-- ==== Sys2Proof/Word.lean ====
section
/-! DEFINITION. The fixed widths of 00_scope.md R9, 10_state.md R21 and 30_encoding.md R70, R86, R88. -/

namespace Sys2Proof

/-- A command or data byte, an address operand, a geometry value (R9, R23). -/
abbrev Byte := BitVec 8

/-- The four bits of one nibble transaction (R9). -/
abbrev Nibble := BitVec 4

/-- A nibble transaction as a word, `rs` above `n[3:0]` (R70). -/
abbrev NibbleWord := BitVec 5

/-- A bus byte as a word, `rs` above `v[7:0]` (R70). -/
abbrev BusWord := BitVec 9

/-- A host request word, `b` above `a` above `op` (R86). -/
abbrev RequestWord := BitVec 15

/-- A response word (R88). -/
abbrev ResponseWord := BitVec 8

/-- A host request's op code (R85, R86). -/
abbrev OpCode := BitVec 4

end Sys2Proof
end

