-- ==== Sys2Proof/Syntax.lean ====
section
/-! DEFINITION. The instructions: one constructor per row of spec/opcode_table.json (R70, R73, R78, R85, R87), and the
three kinds of word they are written in. -/

namespace Sys2Proof

/-- Register select: 0 = Command, 1 = Data (R9, R71). -/
inductive RegSel where
  | command
  | data
  deriving DecidableEq, Repr

/-- One constructor per row of the opcode table.
Bus bytes keep their don't-care bits (`dc`), because a bus byte is carried as it is (R72, R109).
Host requests have no field for the operand bits their op ignores (R86). -/
inductive Instr where
  /-- CLEAR, bus byte 0_00000001 (R73) -/
  | busClear
  /-- RETURN_HOME, bus byte 0_0000001* (R73) -/
  | busReturnHome (dc : BitVec 1)
  /-- ENTRY_MODE, bus byte 0_000001IS (R73) -/
  | busEntryMode (increment shiftDisplay : Bool)
  /-- DISPLAY, bus byte 0_00001DCB (R73) -/
  | busDisplay (on cursor blink : Bool)
  /-- SHIFT, bus byte 0_0001SR** (R73) -/
  | busShift (display right : Bool) (dc : BitVec 2)
  /-- FUNCTION, bus byte 0_001LNF** (R73) -/
  | busFunction (eightBit twoLines font5x10 : Bool) (dc : BitVec 2)
  /-- CGRAM_ADDR, bus byte 0_01AAAAAA (R73) -/
  | busCgramAddr (addr : BitVec 6)
  /-- DDRAM_ADDR, bus byte 0_1AAAAAAA (R73) -/
  | busDdramAddr (addr : BitVec 7)
  /-- DATA, bus byte 1_DDDDDDDD (R73, R82) -/
  | busData (byte : Byte)
  /-- RESET_NIBBLE, nibble transaction 0_0011 (R78) -/
  | nibbleReset
  /-- FOURBIT_NIBBLE, nibble transaction 0_0010 (R78) -/
  | nibbleFourBit
  /-- host request op 0 (R85, R141) -/
  | reqInitialize
  /-- host request op 1 (R85, R109) -/
  | reqSendByte (value : Byte) (rs : RegSel)
  /-- host request op 2 (R85, R161) -/
  | reqClear
  /-- host request op 3 (R85, R162) -/
  | reqReturnHome
  /-- host request op 4 (R85, R163); `direction` true = increment -/
  | reqSetEntryMode (direction shiftDisplay : Bool)
  /-- host request op 5 (R85, R164) -/
  | reqSetDisplay (on cursor blink : Bool)
  /-- host request op 6 (R85, R165); `target` true = display, `direction` true = right -/
  | reqShift (target direction : Bool)
  /-- host request op 7 (R85, R166); `busWidth` true = 8-bit, `lines` true = 2, `font` true = 5x10 -/
  | reqSetFunction (busWidth lines font : Bool)
  /-- host request op 8 (R85, R170) -/
  | reqSetCgramAddress (addr : Byte)
  /-- host request op 9 (R85, R171) -/
  | reqSetDdramAddress (addr : Byte)
  /-- host request op 10 (R85, R172) -/
  | reqWriteChar (byte : Byte)
  /-- reserved op 11 (R87) -/
  | reserved11
  /-- reserved op 12 (R87) -/
  | reserved12
  /-- reserved op 13 (R87) -/
  | reserved13
  /-- reserved op 14 (R87) -/
  | reserved14
  /-- reserved op 15 (R87) -/
  | reserved15
  deriving DecidableEq, Repr

/-- The three levels of transfer of R70, each with its own word space: the numbers of one space mean something else in
another. -/
inductive PortWord where
  | request (w : RequestWord)
  | busByte (w : BusWord)
  | nibble (w : NibbleWord)
  deriving DecidableEq, Repr

end Sys2Proof
end

