-- ==== Sys2Proof/WellFormed.lean ====
section
/-! DEFINITION. Which instructions the engine's own rules form. The widths of every operand are in the types. What is
left to check is the bus bytes: the command encoder emits 0 in every don't-care bit (R79), never sets DL (R80), and never
asks for two lines with the 5x10 font (R166). A bus byte that fails the check is not an illegal instruction: a raw
`send_byte` carries it (R80, R109), and it decodes and runs. -/

namespace Sys2Proof

/-- The instruction is one the engine's own rules form: R79, R80, R166 for bus bytes, no condition elsewhere. -/
def Instr.wellFormed : Instr → Bool
  | .busClear => true
  | .busReturnHome dc => dc == 0#1
  | .busEntryMode _ _ => true
  | .busDisplay _ _ _ => true
  | .busShift _ _ dc => dc == 0#2
  | .busFunction eightBit twoLines font5x10 dc => !eightBit && !(twoLines && font5x10) && dc == 0#2
  | .busCgramAddr _ => true
  | .busDdramAddr _ => true
  | .busData _ => true
  | .nibbleReset => true
  | .nibbleFourBit => true
  | .reqInitialize => true
  | .reqSendByte _ _ => true
  | .reqClear => true
  | .reqReturnHome => true
  | .reqSetEntryMode _ _ => true
  | .reqSetDisplay _ _ _ => true
  | .reqShift _ _ => true
  | .reqSetFunction _ _ _ => true
  | .reqSetCgramAddress _ => true
  | .reqSetDdramAddress _ => true
  | .reqWriteChar _ => true
  | .reserved11 => true
  | .reserved12 => true
  | .reserved13 => true
  | .reserved14 => true
  | .reserved15 => true

/-- The instruction is a host request of R85 (ops 0 to 10), not a reserved op, bus byte or recovery nibble. -/
def Instr.isRequest : Instr → Bool
  | .busClear => false
  | .busReturnHome _ => false
  | .busEntryMode _ _ => false
  | .busDisplay _ _ _ => false
  | .busShift _ _ _ => false
  | .busFunction _ _ _ _ => false
  | .busCgramAddr _ => false
  | .busDdramAddr _ => false
  | .busData _ => false
  | .nibbleReset => false
  | .nibbleFourBit => false
  | .reqInitialize => true
  | .reqSendByte _ _ => true
  | .reqClear => true
  | .reqReturnHome => true
  | .reqSetEntryMode _ _ => true
  | .reqSetDisplay _ _ _ => true
  | .reqShift _ _ => true
  | .reqSetFunction _ _ _ => true
  | .reqSetCgramAddress _ => true
  | .reqSetDdramAddress _ => true
  | .reqWriteChar _ => true
  | .reserved11 => false
  | .reserved12 => false
  | .reserved13 => false
  | .reserved14 => false
  | .reserved15 => false

end Sys2Proof
end

