-- ==== Sys2Proof/Decode.lean ====
section
/-! DEFINITION. Decoding of the three kinds of word (R74, R78, R85-R87), rejecting by name; the encoder, written from the
same encodings; the opcode table's rows; and the reading of a bare table word (log entry 5). -/

namespace Sys2Proof

/-- Why a word is no instruction: neither reason exists at the request port, where all 16 op codes decode (R87). -/
inductive DecodeError where
  /-- the bus byte 0_00000000 selects nothing (R74) -/
  | noCommandBit
  /-- a single nibble other than the two recovery nibbles (R78) -/
  | notRecoveryNibble
  deriving DecidableEq, Repr

/-- The register select that a bit stands for: 0 = Command, 1 = Data (R9). -/
def RegSel.ofBit (b : Bool) : RegSel := if b then .data else .command

/-- The bit of a register select: 0 = Command, 1 = Data (R9). -/
def RegSel.bit : RegSel → Bool
  | .command => false
  | .data => true

/-- A request word by its op code `req[3:0]`, with `a = req[11:4]` and `b = req[14:12]` (R85, R86). Operand bits that the
op does not use are ignored (R86). Ops 11 to 15 are reserved (R87). -/
def decodeRequest (w : RequestWord) : Instr :=
  match (w.extractLsb' 0 4).toNat with
  | 0 => .reqInitialize
  | 1 => .reqSendByte (w.extractLsb' 4 8) (RegSel.ofBit (w.getLsbD 12))
  | 2 => .reqClear
  | 3 => .reqReturnHome
  | 4 => .reqSetEntryMode (w.getLsbD 13) (w.getLsbD 12)
  | 5 => .reqSetDisplay (w.getLsbD 14) (w.getLsbD 13) (w.getLsbD 12)
  | 6 => .reqShift (w.getLsbD 13) (w.getLsbD 12)
  | 7 => .reqSetFunction (w.getLsbD 14) (w.getLsbD 13) (w.getLsbD 12)
  | 8 => .reqSetCgramAddress (w.extractLsb' 4 8)
  | 9 => .reqSetDdramAddress (w.extractLsb' 4 8)
  | 10 => .reqWriteChar (w.extractLsb' 4 8)
  | 11 => .reserved11
  | 12 => .reserved12
  | 13 => .reserved13
  | 14 => .reserved14
  | _ => .reserved15   -- 15, the only value left

/-- A bus byte: bit 8 is `rs`; with `rs = 0` the most significant set bit selects the command, and 0x00 selects nothing
(R73, R74). -/
def decodeBusByte (w : BusWord) : Option Instr :=
  if w.getLsbD 8 then some (.busData (w.extractLsb' 0 8))
  else if w.getLsbD 7 then some (.busDdramAddr (w.extractLsb' 0 7))
  else if w.getLsbD 6 then some (.busCgramAddr (w.extractLsb' 0 6))
  else if w.getLsbD 5 then
    some (.busFunction (w.getLsbD 4) (w.getLsbD 3) (w.getLsbD 2) (w.extractLsb' 0 2))
  else if w.getLsbD 4 then some (.busShift (w.getLsbD 3) (w.getLsbD 2) (w.extractLsb' 0 2))
  else if w.getLsbD 3 then some (.busDisplay (w.getLsbD 2) (w.getLsbD 1) (w.getLsbD 0))
  else if w.getLsbD 2 then some (.busEntryMode (w.getLsbD 1) (w.getLsbD 0))
  else if w.getLsbD 1 then some (.busReturnHome (w.extractLsb' 0 1))
  else if w.getLsbD 0 then some .busClear
  else none

/-- A single nibble: only the two recovery nibbles are instructions (R78, R81). -/
def decodeNibble (w : NibbleWord) : Option Instr :=
  if w = 0x03#5 then some .nibbleReset
  else if w = 0x02#5 then some .nibbleFourBit
  else none

/-- The decoder: total, and each refusal has a name. -/
def decode : PortWord → Except DecodeError Instr
  | .request w => .ok (decodeRequest w)
  | .busByte w =>
    match decodeBusByte w with
    | some i => .ok i
    | none => .error .noCommandBit
  | .nibble w =>
    match decodeNibble w with
    | some i => .ok i
    | none => .error .notRecoveryNibble

/-- A request word from its three fields (R86). -/
def requestWord (b : BitVec 3) (a : Byte) (op : OpCode) : RequestWord := b ++ a ++ op

/-- Three flags as the `b` field, the first in bit 2 (R86). -/
def flags3 (b2 b1 b0 : Bool) : BitVec 3 := BitVec.ofBool b2 ++ BitVec.ofBool b1 ++ BitVec.ofBool b0

/-- The encoder: the word of every instruction, ignored operand bits 0 (R73, R78, R86). -/
def encode : Instr → PortWord
  | .busClear => .busByte 0x001#9
  | .busReturnHome dc => .busByte (0x01#8 ++ dc)
  | .busEntryMode increment shiftDisplay =>
    .busByte (0x01#7 ++ BitVec.ofBool increment ++ BitVec.ofBool shiftDisplay)
  | .busDisplay on cursor blink => .busByte (0x01#6 ++ flags3 on cursor blink)
  | .busShift display right dc =>
    .busByte (0x01#5 ++ BitVec.ofBool display ++ BitVec.ofBool right ++ dc)
  | .busFunction eightBit twoLines font5x10 dc => .busByte (0x1#4 ++ flags3 eightBit twoLines font5x10 ++ dc)
  | .busCgramAddr addr => .busByte (0x1#3 ++ addr)
  | .busDdramAddr addr => .busByte (0x1#2 ++ addr)
  | .busData byte => .busByte (0x1#1 ++ byte)
  | .nibbleReset => .nibble 0x03#5
  | .nibbleFourBit => .nibble 0x02#5
  | .reqInitialize => .request (requestWord 0#3 0#8 0#4)
  | .reqSendByte value rs => .request (requestWord (flags3 false false rs.bit) value 1#4)
  | .reqClear => .request (requestWord 0#3 0#8 2#4)
  | .reqReturnHome => .request (requestWord 0#3 0#8 3#4)
  | .reqSetEntryMode direction shiftDisplay => .request (requestWord (flags3 false direction shiftDisplay) 0#8 4#4)
  | .reqSetDisplay on cursor blink => .request (requestWord (flags3 on cursor blink) 0#8 5#4)
  | .reqShift target direction => .request (requestWord (flags3 false target direction) 0#8 6#4)
  | .reqSetFunction busWidth lines font => .request (requestWord (flags3 busWidth lines font) 0#8 7#4)
  | .reqSetCgramAddress addr => .request (requestWord 0#3 addr 8#4)
  | .reqSetDdramAddress addr => .request (requestWord 0#3 addr 9#4)
  | .reqWriteChar byte => .request (requestWord 0#3 byte 10#4)
  | .reserved11 => .request (requestWord 0#3 0#8 11#4)
  | .reserved12 => .request (requestWord 0#3 0#8 12#4)
  | .reserved13 => .request (requestWord 0#3 0#8 13#4)
  | .reserved14 => .request (requestWord 0#3 0#8 14#4)
  | .reserved15 => .request (requestWord 0#3 0#8 15#4)

/-- How many bits a word of its kind has. -/
def PortWord.width : PortWord → Nat
  | .request _ => 15
  | .busByte _ => 9
  | .nibble _ => 5

/-- A word's bits as a number, bit 0 least significant (R10). -/
def PortWord.bits : PortWord → Nat
  | .request w => w.toNat
  | .busByte w => w.toNat
  | .nibble w => w.toNat

/-- One row of spec/opcode_table.json. -/
structure TableRow where
  mnemonic  : String
  width     : Nat
  matchBits : Nat
  maskBits  : Nat
  deriving DecidableEq, Repr

/-- The row of the opcode table that an instruction belongs to. -/
def Instr.row : Instr → TableRow
  | .busClear => ⟨"CLEAR", 9, 0x001, 0x1FF⟩
  | .busReturnHome _ => ⟨"RETURN_HOME", 9, 0x002, 0x1FE⟩
  | .busEntryMode _ _ => ⟨"ENTRY_MODE", 9, 0x004, 0x1FC⟩
  | .busDisplay _ _ _ => ⟨"DISPLAY", 9, 0x008, 0x1F8⟩
  | .busShift _ _ _ => ⟨"SHIFT", 9, 0x010, 0x1F0⟩
  | .busFunction _ _ _ _ => ⟨"FUNCTION", 9, 0x020, 0x1E0⟩
  | .busCgramAddr _ => ⟨"CGRAM_ADDR", 9, 0x040, 0x1C0⟩
  | .busDdramAddr _ => ⟨"DDRAM_ADDR", 9, 0x080, 0x180⟩
  | .busData _ => ⟨"DATA", 9, 0x100, 0x100⟩
  | .nibbleReset => ⟨"RESET_NIBBLE", 5, 0x03, 0x1F⟩
  | .nibbleFourBit => ⟨"FOURBIT_NIBBLE", 5, 0x02, 0x1F⟩
  | .reqInitialize => ⟨"initialize", 15, 0x0000, 0x000F⟩
  | .reqSendByte _ _ => ⟨"send_byte", 15, 0x0001, 0x000F⟩
  | .reqClear => ⟨"clear", 15, 0x0002, 0x000F⟩
  | .reqReturnHome => ⟨"return_home", 15, 0x0003, 0x000F⟩
  | .reqSetEntryMode _ _ => ⟨"set_entry_mode", 15, 0x0004, 0x000F⟩
  | .reqSetDisplay _ _ _ => ⟨"set_display", 15, 0x0005, 0x000F⟩
  | .reqShift _ _ => ⟨"shift", 15, 0x0006, 0x000F⟩
  | .reqSetFunction _ _ _ => ⟨"set_function", 15, 0x0007, 0x000F⟩
  | .reqSetCgramAddress _ => ⟨"set_cgram_address", 15, 0x0008, 0x000F⟩
  | .reqSetDdramAddress _ => ⟨"set_ddram_address", 15, 0x0009, 0x000F⟩
  | .reqWriteChar _ => ⟨"write_char", 15, 0x000A, 0x000F⟩
  | .reserved11 => ⟨"RESERVED_11", 15, 0x000B, 0x000F⟩
  | .reserved12 => ⟨"RESERVED_12", 15, 0x000C, 0x000F⟩
  | .reserved13 => ⟨"RESERVED_13", 15, 0x000D, 0x000F⟩
  | .reserved14 => ⟨"RESERVED_14", 15, 0x000E, 0x000F⟩
  | .reserved15 => ⟨"RESERVED_15", 15, 0x000F, 0x000F⟩

/-- No ignored operand bit of the request word is set. -/
def requestCanonical (w : RequestWord) : Bool := encode (decodeRequest w) == .request w

/-- A number that is the bus byte of a command row with every operand bit 0: a single bit, as in the OPC column of R73. -/
def bareOpc (w : Nat) : Bool :=
  match w with
  | 0x01 | 0x02 | 0x04 | 0x08 | 0x10 | 0x20 | 0x40 | 0x80 => true
  | _ => false

/-- DESIGN CHOICE (log entry 5): which port a bare number of the opcode table is presented at. The table's three word
spaces use the same numbers for different rows and a number carries no port. A recovery nibble given in one byte is a
nibble: the rows of the other kinds are two bytes wide. A command row's bare OPC is a bus byte. A number that is a request
word with no ignored operand bit set is a request. Any other number below 512 is a bus byte, and every other number is a
request. -/
def portWordOf (nbits w : Nat) : PortWord :=
  if nbits ≤ 8 ∧ (w = 0x02 ∨ w = 0x03) then .nibble (BitVec.ofNat 5 w)
  else if bareOpc w then .busByte (BitVec.ofNat 9 w)
  else if requestCanonical (BitVec.ofNat 15 w) then .request (BitVec.ofNat 15 w)
  else if w < 512 then .busByte (BitVec.ofNat 9 w)
  else .request (BitVec.ofNat 15 w)

/-- The instruction the decoder reads from a bare word of the opcode table (log entry 5). -/
def decodeTableWord (nbits w : Nat) : Option Instr :=
  match decode (portWordOf nbits w) with
  | .ok i => some i
  | .error _ => none

end Sys2Proof
end

