-- ==== Sys2Proof/Config.lean ====
section
/-! DEFINITION. What is fixed for one engine's lifetime (the configuration of R7, R23 and the timing record of R8, R24),
the receiver's data types (R201, R211), and the free values: constants with no body, so nothing in Lean can evaluate them. -/

namespace Sys2Proof

/-- The line count of R7: one or two. -/
inductive LineCount where
  | one
  | two
  deriving DecidableEq, Repr, Inhabited

/-- The font of R7: 5x8 or 5x10. -/
inductive Font where
  | f5x8
  | f5x10
  deriving DecidableEq, Repr, Inhabited

/-- The configuration register of R23. `bus_width` is hardwired to 4 and has no bits. -/
structure Cfg where
  lineCount      : LineCount
  font           : Font
  displayColumns : Byte
  displayRows    : Byte
  deriving DecidableEq, Repr, Inhabited

/-- The timing record of R8: ten durations in nanoseconds. -/
structure Tim where
  tPowerOn      : Nat
  tReset1       : Nat
  tReset2       : Nat
  tReset3       : Nat
  t4Bit         : Nat
  tEnPulse      : Nat
  tAs           : Nat
  tNibbleSettle : Nat
  tExecShort    : Nat
  tExecLong     : Nat
  deriving DecidableEq, Repr, Inhabited

/-- A memory of the receiver: (address, byte) pairs, addresses strictly rising, no pair equal to what an unlisted
address reads as (Machine/Memory.lean has the operations and the check). -/
abbrev Mem := List Host.Cell

/-- The receiver's interface mode (R201). -/
inductive RxMode where
  | m8
  | m4h
  | m4l (h : Nibble)
  deriving DecidableEq, Repr, Inhabited

/-- The space the receiver's address counter refers to (R51, R211). -/
inductive Space where
  | ddram
  | cgram
  deriving DecidableEq, Repr, Inhabited

/-- The reference receiver's state (R201, R206, R211). The engine never reads it (R200). -/
structure Rx where
  mode         : RxMode
  busyUntil    : Nat
  ac           : BitVec 7
  space        : Space
  ddram        : Mem
  cgram        : Mem
  /-- I/D -/
  increment    : Bool
  /-- S -/
  shiftOnWrite : Bool
  /-- D -/
  displayOn    : Bool
  /-- C -/
  cursorOn     : Bool
  /-- B -/
  blinkOn      : Bool
  /-- N -/
  twoLines     : Bool
  /-- F -/
  font5x10     : Bool
  /-- net shift of the display to the right -/
  displayShift : Int
  deriving DecidableEq, Repr, Inhabited

/-- The values the spec leaves open at one latch of the receiver: the levels of D3..D0 (R203), a whole receiver state
(R207, U11, U12, U17), an address counter past the end of its range, the direction of the shift on a data write, and the register
select (1 = Data) and nibble that a stray pulse puts on the lines (R267). -/
structure RxDraws where
  low        : Nibble
  anyRx      : Rx
  ac         : BitVec 7
  shiftRight : Bool
  strayData  : Bool
  strayLines : Nibble
  deriving DecidableEq, Repr, Inhabited

namespace Config

/-- FREE VALUE (R262, U13; log entry 13): by how much the event with this draw number lasts longer than its minimum. -/
opaque overshoot : Nat → Nat

/-- FREE VALUES (R203, R207, R267, U10-U12, U17; log entries 12, 15, 16, 21, 26, 27):
what the spec leaves open at the latch with this draw number. -/
opaque rxDraws : Nat → RxDraws

/-- FREE VALUE (R201, U2; log entry 11): the receiver's state at power-on. -/
opaque rxPowerOn : Rx

end Config

end Sys2Proof
end

