-- ==== Sys2Proof/Machine/Memory.lean ====
section
/-! DEFINITION. The receiver's memories (R51, R211) as lists of (address, byte) in one canonical form. The engine itself has
no memory (R50). -/

namespace Sys2Proof

/-- What an unlisted address reads as: 0x20, the byte CLEAR fills DDRAM with (R211). For a byte that nothing has written,
CLEAR included, this is a DESIGN CHOICE (log entry 17). -/
def Mem.unlisted : Byte := 0x20#8

/-- One byte of a memory. -/
def Mem.read : Mem → Nat → Byte
  | [], _ => Mem.unlisted
  | (x, c) :: m, a => if x = a then c else Mem.read m a

/-- Store one byte and keep the canonical form: addresses rising, no listed byte equal to `Mem.unlisted`. -/
def Mem.write : Mem → Nat → Byte → Mem
  | [], a, b => if b = Mem.unlisted then [] else [(a, b)]
  | (x, c) :: m, a, b =>
    if a < x then (if b = Mem.unlisted then (x, c) :: m else (a, b) :: (x, c) :: m)
    else if a = x then (if b = Mem.unlisted then m else (a, b) :: m)
    else (x, c) :: Mem.write m a b

/-- Canonical from address `lo` up to, not including, `limit`. -/
def Mem.wfFrom (limit : Nat) : Nat → Mem → Bool
  | _, [] => true
  | lo, (a, b) :: m => decide (lo ≤ a) && decide (a < limit) && !(b == Mem.unlisted) && Mem.wfFrom limit (a + 1) m

/-- The canonical form of a memory with addresses below `limit`. -/
def Mem.wf (limit : Nat) (m : Mem) : Bool := Mem.wfFrom limit 0 m

/-- DDRAM has 7-bit addresses, CGRAM 6-bit ones (R51). -/
def Space.size : Space → Nat
  | .ddram => 128
  | .cgram => 64

/-- The canonical memory that a list of cells describes: a later cell wins, a cell outside the space is dropped. Every
canonical memory is the result for itself, so a drawn list stands for any memory. -/
def Mem.canon (limit : Nat) : Mem → Mem
  | [] => []
  | (a, b) :: m => if a < limit then Mem.write (Mem.canon limit m) a b else Mem.canon limit m

end Sys2Proof
end

