-- ==== Sys2Proof/Machine/Parameters.lean ====
section
/-! DEFINITION. The construction parameters: defaults and floors of the timing record (R8), the legal configurations and
the configuration register's bits (R23, R221, R250), and the values State.reset is constructed with (log entries 2, 3). -/

namespace Sys2Proof

/-- The default column of the table of R8. -/
def Tim.default : Tim :=
  { tPowerOn := 16000000, tReset1 := 4100000, tReset2 := 100000, tReset3 := 100000, t4Bit := 100000,
    tEnPulse := 1000, tAs := 1000, tNibbleSettle := 50000, tExecShort := 50000, tExecLong := 2000000 }

/-- Every field is at least its floor (R8, R264). The six fields the table gives no floor, and `T_AS` with floor 0, have
nothing to check. The engine accepts a record that fails this check, with no guarantee (log entry 3). -/
def Tim.valid (t : Tim) : Bool :=
  decide (15000000 ≤ t.tPowerOn) && decide (4100000 ≤ t.tReset1) && decide (100000 ≤ t.tReset2)
    && decide (1500000 ≤ t.tExecLong)

/-- `line_count = 2` with `font = 5x10` is the one illegal combination (R221, R250). -/
def Cfg.legal (c : Cfg) : Bool := !(c.lineCount == .two && c.font == .f5x10)

/-- `bit(cfg.line_count = 2)` (R140). -/
def LineCount.isTwo (n : LineCount) : Bool := n == .two

/-- `bit(cfg.font = 5x10)` (R140). -/
def Font.is5x10 (f : Font) : Bool := f == .f5x10

/-- The configuration register's bits: rows above columns above font above line count (R23). -/
def Cfg.code (c : Cfg) : BitVec 18 :=
  c.displayRows ++ c.displayColumns ++ BitVec.ofBool c.font.is5x10 ++ BitVec.ofBool c.lineCount.isTwo

/-- DESIGN CHOICE (log entry 2): the configuration State.reset is constructed with, that of vector S4 and program P1. -/
def Cfg.construction : Cfg :=
  { lineCount := .two, font := .f5x8, displayColumns := 16#8, displayRows := 2#8 }

end Sys2Proof
end

