-- ==== Sys2Proof/Machine/Receiver.lean ====
section
/-! DEFINITION. The reference receiver of 45_controller_reference.md (R200-R212): general knowledge in the spec itself, an
observer of the bus that no engine rule reads (R200; log entry 10). Values the spec leaves open come in as `RxDraws`. -/

namespace Sys2Proof

/-- Any receiver state: the drawn one, with its memories in canonical form (R207). -/
def Rx.ofDraw (r : Rx) : Rx :=
  { r with ddram := Mem.canon Space.ddram.size r.ddram, cgram := Mem.canon Space.cgram.size r.cgram }

/-- The receiver at power-on: unknown (R201; log entry 11). -/
def Rx.powerOn : Rx := Rx.ofDraw Config.rxPowerOn

/-- The execution time of `(rs, b)` in ns at the nominal oscillator (R212): 1.52 ms for CLEAR and RETURN_HOME, 37 us for
every other command, 41 us for a data write. -/
def Rx.execTime (rs : RegSel) (b : Byte) : Nat :=
  match rs with
  | .data => 41000
  | .command => if b = 0x01#8 ∨ b = 0x02#8 ∨ b = 0x03#8 then 1520000 else 37000

/-- The receiver's address set-up time in ns (R210 (a): about 40 ns; log entry 21). -/
def Rx.addressSetUp : Nat := 40

/-- The receiver's minimum enable width in ns (R210 (b): about 450 ns; log entry 21). -/
def Rx.enableWidth : Nat := 450

/-- The highest address of a space. -/
def Space.last (sp : Space) : BitVec 7 :=
  match sp with
  | .ddram => 127#7
  | .cgram => 63#7

/-- An address of a space: 7 bits for DDRAM, 6 for CGRAM (R51). -/
def Space.clip (sp : Space) (a : BitVec 7) : BitVec 7 := a &&& sp.last

/-- `AC ± 1` (R211 for a data write; for a cursor move log entry 25). The spec does not state the result past either end
of the space: there the counter is the drawn address of the space (log entry 15). -/
def Rx.stepAc (up : Bool) (d : RxDraws) (r : Rx) : Rx :=
  if up then
    { r with ac := if r.ac < r.space.last then r.ac + 1#7 else r.space.clip d.ac }
  else
    { r with ac := if 0#7 < r.ac then r.ac - 1#7 else r.space.clip d.ac }

/-- Shift the display by one, right when `right` (R211). -/
def Rx.shiftDisplay (right : Bool) (r : Rx) : Rx :=
  { r with displayShift := if right then r.displayShift + 1 else r.displayShift - 1 }

/-- Store a byte at AC in the space last addressed (R211). -/
def Rx.store (b : Byte) (r : Rx) : Rx :=
  match r.space with
  | .ddram => { r with ddram := r.ddram.write (r.space.clip r.ac).toNat b }
  | .cgram => { r with cgram := r.cgram.write (r.space.clip r.ac).toNat b }

/-- A data write: store at AC, then AC ± 1 per I/D, and the display shifts if S = 1 (R211). The direction of that shift
is not stated: it is the drawn one (log entry 16). -/
def Rx.dataWrite (b : Byte) (d : RxDraws) (r : Rx) : Rx :=
  let r' := (r.store b).stepAc r.increment d
  if r.shiftOnWrite then r'.shiftDisplay d.shiftRight else r'

/-- The response to a command byte with a nonzero don't-care bit (R80): any value (U11), so every part of the receiver is
drawn but those that R205, R206 and R212 give every execution: the mode, and `busyUntil`, which `Rx.execute` sets (log entry
18). -/
def Rx.anyResponse (d : RxDraws) (r : Rx) : Rx :=
  { Rx.ofDraw d.anyRx with mode := r.mode, busyUntil := r.busyUntil }

/-- The effects of R206 and R211 on every part of the receiver but `busyUntil`, by the instruction that the bus byte decodes
to (R74). With a nonzero don't-care bit the response is any value, but for the mode, N and F that R206 gives a FUNCTION byte
(U11; log entry 18). R75 and R211 say of SHIFT with S/C = 0 only that it moves the cursor: that this is AC ± 1, in the space
last addressed, is the model's choice (PRESUMED; log entry 25). A bus byte never decodes to the instructions of the last
group. -/
def Rx.effect (i : Instr) (d : RxDraws) (r : Rx) : Rx :=
  match i with
  | .busClear => { r with ddram := [], ac := 0#7, space := .ddram, increment := true }
  | .busReturnHome dc =>
    if dc = 0#1 then { r with ac := 0#7, space := .ddram, displayShift := 0 } else r.anyResponse d
  | .busEntryMode increment shiftDisplay => { r with increment := increment, shiftOnWrite := shiftDisplay }
  | .busDisplay on cursor blink => { r with displayOn := on, cursorOn := cursor, blinkOn := blink }
  | .busShift display right dc =>
    if dc = 0#2 then (if display then r.shiftDisplay right else r.stepAc right d) else r.anyResponse d
  | .busFunction eightBit twoLines font5x10 dc =>
    { (if dc = 0#2 then r else r.anyResponse d) with
      mode := if eightBit then .m8 else .m4h, twoLines := twoLines, font5x10 := font5x10 }
  | .busCgramAddr addr => { r with ac := addr.setWidth 7, space := .cgram }
  | .busDdramAddr addr => { r with ac := addr, space := .ddram }
  | .busData byte => r.dataWrite byte d
  | .nibbleReset | .nibbleFourBit | .reqInitialize | .reqSendByte _ _ | .reqClear | .reqReturnHome
  | .reqSetEntryMode _ _ | .reqSetDisplay _ _ _ | .reqShift _ _ | .reqSetFunction _ _ _ | .reqSetCgramAddress _
  | .reqSetDdramAddress _ | .reqWriteChar _ | .reserved11 | .reserved12 | .reserved13 | .reserved14
  | .reserved15 => r

/-- The 9-bit bus byte `{rs, b}` (R70). -/
def busWord (rs : RegSel) (b : Byte) : BusWord := BitVec.ofBool rs.bit ++ b

/-- Execute `(rs, b)` at time `now` (R206, R211, R212). The command byte 0x00 selects nothing (R74, R80), and the response to it
is any value (U11): the whole next state is drawn (log entry 12). -/
def Rx.execute (now : Nat) (rs : RegSel) (b : Byte) (d : RxDraws) (r : Rx) : Rx :=
  match decodeBusByte (busWord rs b) with
  | some i => { r.effect i d with busyUntil := now + Rx.execTime rs b }
  | none => Rx.ofDraw d.anyRx

/-- A latch of the record `(rs, n)` at time `now` (R203-R205, R207). While the receiver is busy its whole next state is
drawn. -/
def Rx.latch (now : Nat) (rs : RegSel) (n : Nibble) (d : RxDraws) (r : Rx) : Rx :=
  if now < r.busyUntil then Rx.ofDraw d.anyRx
  else
    match r.mode with
    | .m8 => r.execute now rs (n ++ d.low) d
    | .m4h => { r with mode := .m4l n }
    | .m4l h => { r with mode := .m4h }.execute now rs (h ++ n) d

/-- The longest execution time of R212, in ns. -/
def Rx.longestExecTime : Nat := 1520000

/-- A byte received after a desynchronization (R267): any value (U17), so the whole next state is drawn. Some byte has been
executed, so the busy time ends within the longest execution time (R212; log entry 27). -/
def Rx.misread (now : Nat) (d : RxDraws) : Rx :=
  { Rx.ofDraw d.anyRx with busyUntil := now + min d.anyRx.busyUntil Rx.longestExecTime }

/-- A latch of a desynchronized receiver (R267, U17; log entry 27). In `M4H` it holds the nibble as a high nibble (R204), which
is the shifted phase; every latch that completes a byte is a misread. While the receiver is busy its whole next state is drawn
(R207, U12). -/
def Rx.latchDesynchronized (now : Nat) (n : Nibble) (d : RxDraws) (r : Rx) : Rx :=
  if now < r.busyUntil then Rx.ofDraw d.anyRx
  else
    match r.mode with
    | .m4h => { r with mode := .m4l n }
    | .m8 => Rx.misread now d
    | .m4l _ => Rx.misread now d

/-- Both memories are in canonical form. -/
def Rx.memWf (r : Rx) : Bool := r.ddram.wf Space.ddram.size && r.cgram.wf Space.cgram.size

end Sys2Proof
end

