-- ==== Sys2Proof/Machine/State.lean ====
section
/-! DEFINITION. The machine's state: the engine's (R21-R26), the Bus Line Driver's line levels (R27), the outputs (R11,
R86), the reference receiver (R201), and the model's own fields (log entries 1, 4, 13, 20, 21, 26, 27). -/

namespace Sys2Proof.Machine

/-- The driver state (R21). The 2-bit value 0b11 is never written and has no constructor (U8; log entry 8). -/
inductive DrvState where
  | uninitialized
  | initializing
  | ready
  deriving DecidableEq, Repr

/-- The seven output lines (R27). -/
inductive Line where
  | rs
  | rw
  | en
  | d4
  | d5
  | d6
  | d7
  deriving DecidableEq, Repr

/-- The level a `SetLine` event drives (R83). -/
inductive Drive where
  | high
  | low
  deriving DecidableEq, Repr

/-- The level of a line; `unknown` until the engine drives it (R27). -/
inductive Level where
  | high
  | low
  | unknown
  deriving DecidableEq, Repr

/-- A bus event (R11, R83); a delay is in nanoseconds. -/
inductive BusEvent where
  | setLine (l : Line) (v : Drive)
  | delay (d : Nat)
  deriving DecidableEq, Repr

/-- The line levels held by the Bus Line Driver (R27). -/
structure Levels where
  rs : Level
  rw : Level
  en : Level
  d4 : Level
  d5 : Level
  d6 : Level
  d7 : Level
  deriving DecidableEq, Repr

/-- The reasons of a ConfigurationError (R88, R221). -/
inductive ConfigReason where
  | invalidLineFont
  | invalidBusWidth
  deriving DecidableEq, Repr

/-- A response (R88, R220-R223). -/
inductive Response where
  | ok
  | configurationError (reason : ConfigReason)
  | protocolStateError (op : OpCode)
  | illegalRequest (op : OpCode)
  deriving DecidableEq, Repr

/-- A pending write of `drv`, tagged with the number of events after which it takes effect (R26). -/
abbrev DrvWrite := Nat × DrvState

/-- The micro-step position (R25, R26): `Busy(rest, writes)`, with the number of events already emitted and the response
to return after the last one (log entry 24). -/
inductive Phase where
  | idle
  | busy (pos : Nat) (rest : List BusEvent) (writes : List DrvWrite) (resp : Option Response)
  deriving DecidableEq, Repr

/-- The MODEL's own switch (log entry 1): one step runs a whole request (`whole`, the big-step reading of R12), or one
micro-step of it (`event`, the reading of R26). -/
inductive Grain where
  | whole
  | event
  deriving DecidableEq, Repr

/-- The MODEL's own record of the receiver's pins (R210 (a), (b); log entry 21): the end of the last event that drove RS or
RW, and of the last event that raised EN. -/
structure PinTimes where
  address : Nat
  enable  : Nat
  deriving DecidableEq, Repr

/-- The MODEL's own record of the hazards of R267 (log entry 27). -/
inductive Sync where
  /-- no hazard since the last `initialize` began -/
  | held
  /-- the last byte transfer to begin carries FUNCTION with DL = 1 (R267 (b)) -/
  | leaving
  /-- desynchronized: every later byte is any value at the receiver (R267, U17) -/
  | lost
  deriving DecidableEq, Repr

/-- What the host, or an agent beside it, presents to the machine next (log entries 4, 19, 26). -/
inductive HostInput where
  /-- a word: a request word (R86), or a bus byte or nibble of the engine's internal transfers (log entries 6, 7) -/
  | word (p : PortWord)
  /-- construction of an engine (R250) -/
  | construct (cfg : Cfg) (tim : Tim)
  /-- another agent drives a line (R260, R261) -/
  | foreignDrive (l : Line) (v : Drive)
  /-- a stray EN pulse from outside the engine (R267 (a), U17) -/
  | strayPulse
  /-- the next nibble transaction does not reach the receiver (R267 (c)) -/
  | loseTransaction
  /-- a second, concurrent requester (R235) -/
  | secondRequester (w : RequestWord)
  deriving DecidableEq, Repr

/-- The machine's hardware faults: none. R220: "There is no `HardwareFault` kind" (log entry 23). -/
inductive Fault
  deriving DecidableEq, Repr

/-- Why the machine gives an input no meaning. No modelled instruction ends in one of these. -/
inductive Refusal where
  /-- raised by an arm of `exec` whose instruction has no meaning yet; safe -/
  | notModelled (mnemonic : String)
  /-- raised by `step` on a bus byte or nibble word that is no row of the opcode table; safe: no host request is such a
  word (log entry 5) -/
  | noTableRow (e : DecodeError)
  /-- raised by `step` when another agent drives a line, or pulses EN during a pulse: R260 gives such a run no meaning (U1);
  safe (log entry 19) -/
  | foreignBusActivity
  /-- raised by `step` for a second concurrent requester: R235 refuses it (U4); safe (log entry 19) -/
  | concurrentRequester
  deriving DecidableEq, Repr

/-- Everything the spec gives the machine; INVENTORY.md lists each field with its rule and reset value. -/
structure State where
  /-- driver state (R21) -/
  drv       : DrvState
  /-- configuration register (R23) -/
  cfg       : Cfg
  /-- timing record (R24) -/
  tim       : Tim
  /-- micro-step position (R26) -/
  phase     : Phase
  /-- line levels (R27) -/
  lv        : Levels
  /-- the output trace, oldest event first (R11) -/
  trace     : List BusEvent
  /-- the responses returned, oldest first (R86) -/
  responses : List Response
  /-- the reference receiver (R201) -/
  rx        : Rx
  /-- the model's own: what will be presented next, in order -/
  inbox     : List HostInput
  /-- the model's own: what one step is -/
  grain     : Grain
  /-- the model's own: nanoseconds since reset (R262) -/
  clock     : Nat
  /-- the model's own: how many free values have been used, one number per event -/
  draws     : Nat
  /-- the model's own: when the receiver's pins were driven (R210) -/
  pins      : PinTimes
  /-- the model's own: the next nibble transaction is lost (R267 (c)) -/
  losing    : Bool
  /-- the model's own: whether the receiver is desynchronized (R267) -/
  sync      : Sync
  deriving DecidableEq, Repr

/-- Every line `Unknown` (R27). -/
def Levels.unknown : Levels :=
  { rs := .unknown, rw := .unknown, en := .unknown, d4 := .unknown, d5 := .unknown, d6 := .unknown, d7 := .unknown }

/-- The machine right after reset, which is construction (R250, R251): `Uninitialized`, `Idle`, every line `Unknown`, no
event emitted. The configuration and the timing record are those the model constructs with (log entries 2, 3), and the
receiver is in an unknown state (R201; log entry 11). -/
def State.reset : State :=
  { drv := .uninitialized, cfg := Cfg.construction, tim := Tim.default, phase := .idle, lv := Levels.unknown,
    trace := [], responses := [], rx := Rx.powerOn, inbox := [], grain := .whole, clock := 0, draws := 0,
    pins := { address := 0, enable := 0 }, losing := false, sync := .held }

end Sys2Proof.Machine
end

