-- ==== Sys2Proof/Machine/Ops.lean ====
section
/-! DEFINITION. The shared operations: the line levels (R27, R28), emitting bus events (R11, R60, R262), writing `drv`
(R21), returning a response (R86), raising an error (R226), the nibble-transaction trace
(R111, R112), and running a request's plan (R12). -/

namespace Sys2Proof.Machine

/-- The 2-bit encoding of the driver state (R21). -/
def DrvState.code : DrvState → BitVec 2
  | .uninitialized => 0b00#2
  | .initializing => 0b01#2
  | .ready => 0b10#2

/-- The level that a drive puts on a line. -/
def Drive.level : Drive → Level
  | .high => .high
  | .low => .low

/-- `lvl(b)`: High when the bit is 1, Low when it is 0 (R11). -/
def lvl (b : Bool) : Drive := if b then .high else .low

/-- The level of one line. -/
def Levels.get (lv : Levels) : Line → Level
  | .rs => lv.rs
  | .rw => lv.rw
  | .en => lv.en
  | .d4 => lv.d4
  | .d5 => lv.d5
  | .d6 => lv.d6
  | .d7 => lv.d7

/-- `lv[l] <- v`, the other lines unchanged (R28). -/
def Levels.set (lv : Levels) (l : Line) (v : Level) : Levels :=
  match l with
  | .rs => { lv with rs := v }
  | .rw => { lv with rw := v }
  | .en => { lv with en := v }
  | .d4 => { lv with d4 := v }
  | .d5 => { lv with d5 := v }
  | .d6 => { lv with d6 := v }
  | .d7 => { lv with d7 := v }

/-- The effect of one event on the levels: a delay changes none (R28). -/
def Levels.after (lv : Levels) : BusEvent → Levels
  | .setLine l v => lv.set l v.level
  | .delay _ => lv

/-- The effect of a list of events on the levels. -/
def Levels.afterAll (lv : Levels) (es : List BusEvent) : Levels := es.foldl Levels.after lv

/-- No line is `Unknown`. -/
def Levels.known (lv : Levels) : Bool :=
  !(lv.rs == .unknown) && !(lv.rw == .unknown) && !(lv.en == .unknown) && !(lv.d4 == .unknown)
    && !(lv.d5 == .unknown) && !(lv.d6 == .unknown) && !(lv.d7 == .unknown)

/-- What an EN falling edge samples (R112): the register select, the nibble on D7..D4, and the level of RW. -/
structure Record where
  rs : RegSel
  n  : Nibble
  rw : Level
  deriving DecidableEq, Repr

/-- The record of the levels `lv` (R112). -/
def Levels.sample (lv : Levels) : Record :=
  { rs := RegSel.ofBit (lv.rs == .high),
    n := BitVec.ofBool (lv.d7 == .high) ++ BitVec.ofBool (lv.d6 == .high) ++ BitVec.ofBool (lv.d5 == .high)
      ++ BitVec.ofBool (lv.d4 == .high),
    rw := lv.rw }

/-- The event lowers EN from High: the edge that `txs` and the receiver sample at (R112, R202). -/
def Levels.fallsAt (lv : Levels) (e : BusEvent) : Bool := e == .setLine .en .low && lv.en == .high

/-- `txs(lv0, trace)`: the record at every EN falling edge, walking the trace from the levels `lv0` (R112). -/
def txs : Levels → List BusEvent → List Record
  | _, [] => []
  | lv, e :: es => if lv.fallsAt e then lv.sample :: txs (lv.after e) es else txs (lv.after e) es

/-- A record of the engine's: register select and nibble, RW Low (R112). -/
def record (rs : RegSel) (n : Nibble) : Record := { rs := rs, n := n, rw := .low }

/-- The least time an event takes (R262): `d` for `Delay(d)`, 0 for `SetLine`. -/
def BusEvent.minDuration : BusEvent → Nat
  | .setLine _ _ => 0
  | .delay d => d

/-- The time at the end of the next event: its minimum and a free overshoot (R262, U13; log entry 13). -/
def State.endOf (s : State) (e : BusEvent) : Nat := s.clock + e.minDuration + Config.overshoot s.draws

/-- The pins after an event that ends at `now`. -/
def PinTimes.after (p : PinTimes) (now : Nat) : BusEvent → PinTimes
  | .setLine .rs _ => { p with address := now }
  | .setLine .rw _ => { p with address := now }
  | .setLine .en .high => { p with enable := now }
  | _ => p

/-- A pulse that ends at `now` meets conditions (a) and (b) of R210: the address lines were set up before EN rose, and EN
was High long enough (log entry 21). -/
def PinTimes.pulseOk (p : PinTimes) (now : Nat) : Bool :=
  decide (p.address + Rx.addressSetUp ≤ p.enable) && decide (p.enable + Rx.enableWidth ≤ now)

/-- The event is a falling edge that the receiver samples at (R202; log entry 14). -/
def State.latchesAt (s : State) (e : BusEvent) : Bool := s.lv.fallsAt e && s.lv.rw == .low

/-- A latch of `(rs, n)` at the receiver: by R203-R207, or as any value once it is desynchronized (R267). -/
def State.latched (s : State) (now : Nat) (rs : RegSel) (n : Nibble) (d : RxDraws) : Rx :=
  match s.sync with
  | .held => s.rx.latch now rs n d
  | .leaving => s.rx.latch now rs n d
  | .lost => s.rx.latchDesynchronized now n d

/-- A transaction that is lost desynchronizes the receiver (R267 (c)). -/
def State.syncAfter (s : State) (e : BusEvent) : Sync := if s.losing && s.latchesAt e then .lost else s.sync

/-- What the receiver makes of an event: a latch when EN falls while RW is Low, nothing otherwise (R202). A lost
transaction does not reach it (R267 (c)). After a pulse that does not meet R210 its whole state is drawn (log entry 21). -/
def State.rxAfter (s : State) (e : BusEvent) : Rx :=
  if s.latchesAt e then
    if s.losing then s.rx
    else if s.pins.pulseOk (s.endOf e) then
      s.latched (s.endOf e) s.lv.sample.rs s.lv.sample.n (Config.rxDraws s.draws)
    else Rx.ofDraw (Config.rxDraws s.draws).anyRx
  else s.rx

/-- `emit(e)` (R11): append to the trace. The line driver acts on it (R28), time passes (R262), and the receiver observes
it (R202). -/
def emit (s : State) (e : BusEvent) : State :=
  { s with
    trace := s.trace ++ [e], lv := s.lv.after e, clock := s.endOf e, draws := s.draws + 1, rx := s.rxAfter e,
    pins := s.pins.after (s.endOf e) e, losing := s.losing && !s.latchesAt e,
    sync := s.syncAfter e }

/-- Emit events in order (R60). -/
def emitAll (s : State) (es : List BusEvent) : State := es.foldl emit s

/-- `st.drv <- x` (R11, R21). -/
def setDrv (s : State) (d : DrvState) : State := { s with drv := d }

/-- The pending `drv` writes that are due after `k` events (R26). -/
def applyWrites (k : Nat) (s : State) (ws : List DrvWrite) : State :=
  ws.foldl (fun t w => if w.1 = k then setDrv t w.2 else t) s

/-- Return a response (R86); an internal transfer returns none. -/
def respond (s : State) (r : Option Response) : State :=
  match r with
  | some x => { s with responses := s.responses ++ [x] }
  | none => s

/-- `raise E` (R11, R226), the one error entry: no bus event, no state written, the error response returned. There is
nothing saved, no handler, and so no return from one (R226, R228). That it takes no time is the model's choice: R269 gives
only the lower bound 0 (log entry 13). -/
def raise (s : State) (r : Response) : State := respond s (some r)

/-- The hazards of R267 when the events `es` of a request begin, on lines at `lv` (log entry 27). The `initialize` of a new
engine recovers the receiver (R209, R254). A byte transfer of FUNCTION with DL = 1 is hazard (b), and the next byte transfer
after it is a later byte. -/
def Sync.begin (y : Sync) (initializes : Bool) (lv : Levels) (es : List BusEvent) : Sync :=
  if initializes then .held
  else
    match txs lv es with
    | [h, _] =>
      match y with
      | .held => if h = record .command 0x3#4 then .leaving else .held
      | .leaving => .lost
      | .lost => .lost
    | _ => y

/-- A request that will emit `es` begins (R267). -/
def begun (initializes : Bool) (es : List BusEvent) (s : State) : State :=
  { s with sync := s.sync.begin initializes s.lv es }

/-- The pending writes of `drv` are those of an admitted `initialize` (R131). -/
def initializes (ws : List DrvWrite) : Bool := decide ((0, DrvState.initializing) ∈ ws)

/-- What a request does once its checks are made (R12, R25, R26): it raises an error, or it emits a fixed list of events
with `drv` writes due at given positions and then returns a response. -/
inductive Plan where
  | error (r : Response)
  | run (events : List BusEvent) (writes : List DrvWrite) (resp : Option Response)
  deriving DecidableEq, Repr

/-- Emit the events from position `k` on, applying each `drv` write when it is due (R26). -/
def runEvents (ws : List DrvWrite) : Nat → State → List BusEvent → State
  | _, s, [] => s
  | k, s, e :: es => runEvents ws (k + 1) (applyWrites (k + 1) (emit s e) ws) es

/-- Run a plan to completion: the big-step `exec` of R12. -/
def perform (p : Plan) (s : State) : Host.Outcome State Fault Refusal :=
  match p with
  | .error r => .next (raise s r)
  | .run es ws resp => .next (respond (runEvents ws 0 (applyWrites 0 (begun (initializes ws) es s) ws) es) resp)

end Sys2Proof.Machine
end

