-- ==== Sys2Proof/Machine/Operands.lean ====
section
/-! DEFINITION. Operand assembly, the masking rule (R76): `cmd = OPC | (p & PMASK)` with the OPC and PMASK columns of R73,
and the command byte of every command with its operands placed as in R163-R171. No sign extension, scaling or other
operand form exists (R76). -/

namespace Sys2Proof.Machine

/-- The commands of R3. -/
inductive Command where
  | clear
  | returnHome
  | entryMode
  | display
  | shift
  | function
  | cgramAddr
  | ddramAddr
  deriving DecidableEq, Repr

/-- The OPC column of R73. -/
def Command.opc : Command → Byte
  | .clear => 0x01#8
  | .returnHome => 0x02#8
  | .entryMode => 0x04#8
  | .display => 0x08#8
  | .shift => 0x10#8
  | .function => 0x20#8
  | .cgramAddr => 0x40#8
  | .ddramAddr => 0x80#8

/-- The PMASK column of R73. -/
def Command.pmask : Command → Byte
  | .clear => 0x00#8
  | .returnHome => 0x00#8
  | .entryMode => 0x03#8
  | .display => 0x07#8
  | .shift => 0x0C#8
  | .function => 0x1C#8
  | .cgramAddr => 0x3F#8
  | .ddramAddr => 0x7F#8

/-- `cmd = OPC | (p & PMASK)` (R76). -/
def Command.byte (c : Command) (p : Byte) : Byte := c.opc ||| (p &&& c.pmask)

/-- `bit(c) << k` as a byte (R10). -/
def bitAt (k : Nat) (c : Bool) : Byte := (BitVec.ofBool c).setWidth 8 <<< k

/-- ENTRY_MODE (R163). -/
def entryModeByte (direction shiftDisplay : Bool) : Byte :=
  Command.entryMode.byte (bitAt 1 direction ||| bitAt 0 shiftDisplay)

/-- DISPLAY (R164). -/
def displayByte (on cursor blink : Bool) : Byte :=
  Command.display.byte (bitAt 2 on ||| bitAt 1 cursor ||| bitAt 0 blink)

/-- SHIFT (R165). -/
def shiftByte (target direction : Bool) : Byte := Command.shift.byte (bitAt 3 target ||| bitAt 2 direction)

/-- FUNCTION (R140, R166). -/
def functionByte (busWidth lines font : Bool) : Byte :=
  Command.function.byte (bitAt 4 busWidth ||| bitAt 3 lines ||| bitAt 2 font)

/-- CGRAM_ADDR (R170). -/
def cgramByte (addr : Byte) : Byte := Command.cgramAddr.byte addr

/-- DDRAM_ADDR (R171). -/
def ddramByte (addr : Byte) : Byte := Command.ddramAddr.byte addr

end Sys2Proof.Machine
end

