-- ==== Sys2Proof/Machine/Transfer.lean ====
section
/-! DEFINITION. The nibble transaction `NT` (R101), the byte transfer `BT` (R106) with its execution delay (R107), and the
plan of a request that is one byte transfer (R109, R160). -/

namespace Sys2Proof.Machine

/-- The events of `NT(rs, n)`, in order; the set-up delay is absent when `T_AS = 0` (R71, R101). -/
def nibbleEvents (t : Tim) (rs : RegSel) (n : Nibble) : List BusEvent :=
  [.setLine .rs (lvl rs.bit), .setLine .rw .low, .setLine .d4 (lvl (n.getLsbD 0)), .setLine .d5 (lvl (n.getLsbD 1)),
    .setLine .d6 (lvl (n.getLsbD 2)), .setLine .d7 (lvl (n.getLsbD 3))]
  ++ (if 0 < t.tAs then [.delay t.tAs] else [])
  ++ [.setLine .en .high, .delay t.tEnPulse, .setLine .en .low, .delay t.tNibbleSettle]

/-- `T_EXEC(rs, v)` (R107). -/
def execDelay (t : Tim) (rs : RegSel) (v : Byte) : Nat :=
  match rs with
  | .command => if v = 0x01#8 ∨ v = 0x02#8 ∨ v = 0x03#8 then t.tExecLong else t.tExecShort
  | .data => t.tExecShort

/-- `v[7:4]` (R52). -/
def highNibble (v : Byte) : Nibble := v.extractLsb' 4 4

/-- `v[3:0]` (R52). -/
def lowNibble (v : Byte) : Nibble := v.extractLsb' 0 4

/-- The events of `BT(rs, v)`: high nibble, low nibble, execution delay (R106). -/
def byteEvents (t : Tim) (rs : RegSel) (v : Byte) : List BusEvent :=
  nibbleEvents t rs (highNibble v) ++ nibbleEvents t rs (lowNibble v) ++ [.delay (execDelay t rs v)]

/-- `guard Ready; BT(rs, v); return Ok`, recording `op` when the guard fails (R109, R160, R222). -/
def bytePlan (op : OpCode) (rs : RegSel) (v : Byte) (s : State) : Plan :=
  if s.drv = .ready then .run (byteEvents s.tim rs v) [] (some .ok) else .error (.protocolStateError op)

end Sys2Proof.Machine
end

