-- ==== Sys2Proof/Machine/BusBytes.lean ====
section
/-! DEFINITION. The bus byte rows of the opcode table (R70, R73). Running a bus byte is the byte transfer that carries it
(R72, R106), with the guard that §4.2 puts on it: valid only in `Ready`, zero transactions otherwise (R109; log entry 6).
What the controller then does is the receiver's part (R206, R211). -/

namespace Sys2Proof.Machine

/-- The register select and the byte of a bus word (R70). -/
def busPlan (w : BusWord) (s : State) : Plan := bytePlan 1#4 (RegSel.ofBit (w.getLsbD 8)) (w.extractLsb' 0 8) s

/-- The byte transfer of an instruction that is a bus byte; the encoder gives its word. -/
def busPlanOf (i : Instr) (s : State) : Plan :=
  match encode i with
  | .busByte w => busPlan w s
  | .request _ | .nibble _ => .run [] [] none   -- never: used on bus bytes only

/-- CLEAR (R73, R161). -/
def planBusClear (s : State) : Plan := busPlanOf .busClear s

/-- RETURN_HOME with its don't-care bit as given (R73, R162). -/
def planBusReturnHome (dc : BitVec 1) (s : State) : Plan := busPlanOf (.busReturnHome dc) s

/-- ENTRY_MODE (R73, R163). -/
def planBusEntryMode (increment shiftDisplay : Bool) (s : State) : Plan :=
  busPlanOf (.busEntryMode increment shiftDisplay) s

/-- DISPLAY (R73, R164). -/
def planBusDisplay (on cursor blink : Bool) (s : State) : Plan := busPlanOf (.busDisplay on cursor blink) s

/-- SHIFT with its don't-care bits as given (R73, R165). -/
def planBusShift (display right : Bool) (dc : BitVec 2) (s : State) : Plan := busPlanOf (.busShift display right dc) s

/-- FUNCTION, DL and don't-care bits as given: a raw bus byte is not checked (R73, R80, R224). -/
def planBusFunction (eightBit twoLines font5x10 : Bool) (dc : BitVec 2) (s : State) : Plan :=
  busPlanOf (.busFunction eightBit twoLines font5x10 dc) s

/-- CGRAM_ADDR (R73, R170). -/
def planBusCgramAddr (addr : BitVec 6) (s : State) : Plan := busPlanOf (.busCgramAddr addr) s

/-- DDRAM_ADDR (R73, R171). -/
def planBusDdramAddr (addr : BitVec 7) (s : State) : Plan := busPlanOf (.busDdramAddr addr) s

/-- DATA (R73, R82, R172). -/
def planBusData (byte : Byte) (s : State) : Plan := busPlanOf (.busData byte) s

/-- CLEAR. -/
def execBusClear (s : State) : Host.Outcome State Fault Refusal := perform (planBusClear s) s

/-- RETURN_HOME. -/
def execBusReturnHome (dc : BitVec 1) (s : State) : Host.Outcome State Fault Refusal :=
  perform (planBusReturnHome dc s) s

/-- ENTRY_MODE. -/
def execBusEntryMode (increment shiftDisplay : Bool) (s : State) : Host.Outcome State Fault Refusal :=
  perform (planBusEntryMode increment shiftDisplay s) s

/-- DISPLAY. -/
def execBusDisplay (on cursor blink : Bool) (s : State) : Host.Outcome State Fault Refusal :=
  perform (planBusDisplay on cursor blink s) s

/-- SHIFT. -/
def execBusShift (display right : Bool) (dc : BitVec 2) (s : State) : Host.Outcome State Fault Refusal :=
  perform (planBusShift display right dc s) s

/-- FUNCTION. -/
def execBusFunction (eightBit twoLines font5x10 : Bool) (dc : BitVec 2) (s : State) :
    Host.Outcome State Fault Refusal :=
  perform (planBusFunction eightBit twoLines font5x10 dc s) s

/-- CGRAM_ADDR. -/
def execBusCgramAddr (addr : BitVec 6) (s : State) : Host.Outcome State Fault Refusal :=
  perform (planBusCgramAddr addr s) s

/-- DDRAM_ADDR. -/
def execBusDdramAddr (addr : BitVec 7) (s : State) : Host.Outcome State Fault Refusal :=
  perform (planBusDdramAddr addr s) s

/-- DATA. -/
def execBusData (byte : Byte) (s : State) : Host.Outcome State Fault Refusal := perform (planBusData byte s) s

end Sys2Proof.Machine
end

