-- ==== Sys2Proof/Machine/Commands.lean ====
section
/-! DEFINITION. `send_byte` (R109) and the command requests (R160-R172). -/

namespace Sys2Proof.Machine

/-- `send_byte`: any value, unchecked (R109). -/
def planReqSendByte (value : Byte) (rs : RegSel) (s : State) : Plan := bytePlan 1#4 rs value s

/-- `clear` (R161). -/
def planReqClear (s : State) : Plan := bytePlan 2#4 .command (Command.clear.byte 0#8) s

/-- `return_home` (R162). -/
def planReqReturnHome (s : State) : Plan := bytePlan 3#4 .command (Command.returnHome.byte 0#8) s

/-- `set_entry_mode` (R163). -/
def planReqSetEntryMode (direction shiftDisplay : Bool) (s : State) : Plan :=
  bytePlan 4#4 .command (entryModeByte direction shiftDisplay) s

/-- `set_display` (R164). -/
def planReqSetDisplay (on cursor blink : Bool) (s : State) : Plan :=
  bytePlan 5#4 .command (displayByte on cursor blink) s

/-- `shift` (R165). -/
def planReqShift (target direction : Bool) (s : State) : Plan :=
  bytePlan 6#4 .command (shiftByte target direction) s

/-- `set_function`: the driver-state guard, then the bus width, then the line/font pair (R166, R167, R227). -/
def planReqSetFunction (busWidth lines font : Bool) (s : State) : Plan :=
  if s.drv = .ready then
    if busWidth then .error (.configurationError .invalidBusWidth)
    else if lines && font then .error (.configurationError .invalidLineFont)
    else .run (byteEvents s.tim .command (functionByte busWidth lines font)) [] (some .ok)
  else .error (.protocolStateError 7#4)

/-- `set_cgram_address`: masked, never rejected (R170). -/
def planReqSetCgramAddress (addr : Byte) (s : State) : Plan := bytePlan 8#4 .command (cgramByte addr) s

/-- `set_ddram_address`: masked, never rejected (R171). -/
def planReqSetDdramAddress (addr : Byte) (s : State) : Plan := bytePlan 9#4 .command (ddramByte addr) s

/-- `write_char`: RS = Data, no mask (R172). -/
def planReqWriteChar (byte : Byte) (s : State) : Plan := bytePlan 10#4 .data byte s

/-- `send_byte` (R109). -/
def execReqSendByte (value : Byte) (rs : RegSel) (s : State) : Host.Outcome State Fault Refusal :=
  perform (planReqSendByte value rs s) s

/-- `clear` (R161). -/
def execReqClear (s : State) : Host.Outcome State Fault Refusal := perform (planReqClear s) s

/-- `return_home` (R162). -/
def execReqReturnHome (s : State) : Host.Outcome State Fault Refusal := perform (planReqReturnHome s) s

/-- `set_entry_mode` (R163). -/
def execReqSetEntryMode (direction shiftDisplay : Bool) (s : State) : Host.Outcome State Fault Refusal :=
  perform (planReqSetEntryMode direction shiftDisplay s) s

/-- `set_display` (R164). -/
def execReqSetDisplay (on cursor blink : Bool) (s : State) : Host.Outcome State Fault Refusal :=
  perform (planReqSetDisplay on cursor blink s) s

/-- `shift` (R165). -/
def execReqShift (target direction : Bool) (s : State) : Host.Outcome State Fault Refusal :=
  perform (planReqShift target direction s) s

/-- `set_function` (R166). -/
def execReqSetFunction (busWidth lines font : Bool) (s : State) : Host.Outcome State Fault Refusal :=
  perform (planReqSetFunction busWidth lines font s) s

/-- `set_cgram_address` (R170). -/
def execReqSetCgramAddress (addr : Byte) (s : State) : Host.Outcome State Fault Refusal :=
  perform (planReqSetCgramAddress addr s) s

/-- `set_ddram_address` (R171). -/
def execReqSetDdramAddress (addr : Byte) (s : State) : Host.Outcome State Fault Refusal :=
  perform (planReqSetDdramAddress addr s) s

/-- `write_char` (R172). -/
def execReqWriteChar (byte : Byte) (s : State) : Host.Outcome State Fault Refusal :=
  perform (planReqWriteChar byte s) s

end Sys2Proof.Machine
end

