-- ==== Sys2Proof/Machine/Initialize.lean ====
section
/-! DEFINITION. The `initialize` request (R130-R150): the finite state machine of R146, its events, and the request's plan
(R141). -/

namespace Sys2Proof.Machine

/-- The states of R146. -/
inductive FsmState where
  | uninit
  | pre
  | pwr
  | rst1
  | rst2
  | rst3
  | set4
  | cfgFunc
  | cfgDoff
  | cfgClr
  | cfgEntry
  | ready
  deriving DecidableEq, Repr

/-- The FUNCTION byte of step 7.1: DL = 0, N and F from the configuration (R140). -/
def initFunctionByte (c : Cfg) : Byte := functionByte false c.lineCount.isTwo c.font.is5x10

/-- The events of each state (R133-R138, R140, R146). -/
def FsmState.events (t : Tim) (c : Cfg) : FsmState → List BusEvent
  | .uninit => []
  | .pre => [.setLine .en .low, .setLine .rs .low, .setLine .rw .low]
  | .pwr => [.delay t.tPowerOn]
  | .rst1 => nibbleEvents t .command 0x3#4 ++ [.delay t.tReset1]
  | .rst2 => nibbleEvents t .command 0x3#4 ++ [.delay t.tReset2]
  | .rst3 => nibbleEvents t .command 0x3#4 ++ [.delay t.tReset3]
  | .set4 => nibbleEvents t .command 0x2#4 ++ [.delay t.t4Bit]
  | .cfgFunc => byteEvents t .command (initFunctionByte c)
  | .cfgDoff => byteEvents t .command (displayByte false false false)
  | .cfgClr => byteEvents t .command (Command.clear.byte 0#8)
  | .cfgEntry => byteEvents t .command (entryModeByte true false)
  | .ready => []

/-- The state after each state, once its events are emitted; `uninit` leaves on `initialize` (R146). -/
def FsmState.succ : FsmState → FsmState
  | .uninit => .pre
  | .pre => .pwr
  | .pwr => .rst1
  | .rst1 => .rst2
  | .rst2 => .rst3
  | .rst3 => .set4
  | .set4 => .cfgFunc
  | .cfgFunc => .cfgDoff
  | .cfgDoff => .cfgClr
  | .cfgClr => .cfgEntry
  | .cfgEntry => .ready
  | .ready => .ready

/-- Steps 1 to 5 with the pre-drive, in order (R133-R138). -/
def recoveryStates : List FsmState := [.pre, .pwr, .rst1, .rst2, .rst3, .set4]

/-- Step 7 (R140). -/
def configStates : List FsmState := [.cfgFunc, .cfgDoff, .cfgClr, .cfgEntry]

/-- The events up to the `Delay(T_4BIT)` of step 5. -/
def recoveryEvents (t : Tim) (c : Cfg) : List BusEvent := recoveryStates.flatMap (FsmState.events t c)

/-- The events of step 7. -/
def configEvents (t : Tim) (c : Cfg) : List BusEvent := configStates.flatMap (FsmState.events t c)

/-- The whole event list of `initialize` (R141). -/
def initEvents (t : Tim) (c : Cfg) : List BusEvent := recoveryEvents t c ++ configEvents t c

/-- The plan of `initialize` (R131, R132, R139, R141): `drv <- Initializing` before the first event and `drv <- Ready`
after the `Delay(T_4BIT)` of step 5. -/
def planReqInitialize (s : State) : Plan :=
  if s.drv = .uninitialized then
    .run (initEvents s.tim s.cfg) [(0, .initializing), ((recoveryEvents s.tim s.cfg).length, .ready)] (some .ok)
  else .error (.protocolStateError 0#4)

/-- `initialize` (R141). -/
def execReqInitialize (s : State) : Host.Outcome State Fault Refusal := perform (planReqInitialize s) s

/-- The state that emits the event at position `k` (from 0) of a chain of states, `ready` past its end (R146, R147). -/
def fsmAt (t : Tim) (c : Cfg) : List FsmState → Nat → FsmState
  | [], _ => .ready
  | f :: fs, k => if k < (f.events t c).length then f else fsmAt t c fs (k - (f.events t c).length)

/-- The step of §4.3 being executed, as a view of the state (R25, R146): by position while the `initialize` list runs, and
by `drv` otherwise. -/
def State.fsm (s : State) : FsmState :=
  match s.phase with
  | .busy pos rest _ _ =>
    if pos + rest.length = (initEvents s.tim s.cfg).length then
      fsmAt s.tim s.cfg (recoveryStates ++ configStates) pos
    else if s.drv = .ready then .ready else .uninit
  | .idle => if s.drv = .ready then .ready else .uninit

end Sys2Proof.Machine
end

