-- ==== Sys2Proof/Machine/Nibbles.lean ====
section
/-! DEFINITION. The recovery nibble rows of the opcode table (R78). Running one is the internal nibble transaction `NT`
(R100, R101), which is emitted alone only while `drv = Initializing` (R54): the engine offers nothing that emits a single
nibble in `Ready` (R55, D20). Otherwise the word is turned away as `initialize`, the one request that carries it, would be
(log entry 7). -/

namespace Sys2Proof.Machine

/-- `NT(0, n)` while `drv = Initializing`, with no response; otherwise an error and no event (R54, R55, R101). -/
def nibblePlan (n : Nibble) (s : State) : Plan :=
  if s.drv = .initializing then .run (nibbleEvents s.tim .command n) [] none else .error (.protocolStateError 0#4)

/-- RESET_NIBBLE: `NT(0, 0x3)` (R78, R135). -/
def planNibbleReset (s : State) : Plan := nibblePlan 0x3#4 s

/-- FOURBIT_NIBBLE: `NT(0, 0x2)` (R78, R138). -/
def planNibbleFourBit (s : State) : Plan := nibblePlan 0x2#4 s

/-- RESET_NIBBLE. -/
def execNibbleReset (s : State) : Host.Outcome State Fault Refusal := perform (planNibbleReset s) s

/-- FOURBIT_NIBBLE. -/
def execNibbleFourBit (s : State) : Host.Outcome State Fault Refusal := perform (planNibbleFourBit s) s

end Sys2Proof.Machine
end

