-- ==== Sys2Proof/Machine/Reserved.lean ====
section
/-! DEFINITION. The reserved op codes 11 to 15 at the request port: `IllegalRequest`, no event, no state change, in any
driver state (R87, R223, R227). -/

namespace Sys2Proof.Machine

/-- `IllegalRequest(op)` (R87, R223). -/
def illegalPlan (op : OpCode) : Plan := .error (.illegalRequest op)

/-- RESERVED_11. -/
def execReserved11 (s : State) : Host.Outcome State Fault Refusal := perform (illegalPlan 11#4) s

/-- RESERVED_12. -/
def execReserved12 (s : State) : Host.Outcome State Fault Refusal := perform (illegalPlan 12#4) s

/-- RESERVED_13. -/
def execReserved13 (s : State) : Host.Outcome State Fault Refusal := perform (illegalPlan 13#4) s

/-- RESERVED_14. -/
def execReserved14 (s : State) : Host.Outcome State Fault Refusal := perform (illegalPlan 14#4) s

/-- RESERVED_15. -/
def execReserved15 (s : State) : Host.Outcome State Fault Refusal := perform (illegalPlan 15#4) s

end Sys2Proof.Machine
end

