-- ==== Sys2Proof/Machine/Dispatch.lean ====
section
/-! DEFINITION. One arm per instruction. -/

namespace Sys2Proof.Machine

/-- The big-step meaning of an instruction (R12). -/
def exec (i : Instr) (s : State) : Host.Outcome State Fault Refusal :=
  match i with
  | .busClear => Sys2Proof.Machine.execBusClear s
  | .busReturnHome dc => Sys2Proof.Machine.execBusReturnHome dc s
  | .busEntryMode increment shiftDisplay => Sys2Proof.Machine.execBusEntryMode increment shiftDisplay s
  | .busDisplay on cursor blink => Sys2Proof.Machine.execBusDisplay on cursor blink s
  | .busShift display right dc => Sys2Proof.Machine.execBusShift display right dc s
  | .busFunction eightBit twoLines font5x10 dc => Sys2Proof.Machine.execBusFunction eightBit twoLines font5x10 dc s
  | .busCgramAddr addr => Sys2Proof.Machine.execBusCgramAddr addr s
  | .busDdramAddr addr => Sys2Proof.Machine.execBusDdramAddr addr s
  | .busData byte => Sys2Proof.Machine.execBusData byte s
  | .nibbleReset => Sys2Proof.Machine.execNibbleReset s
  | .nibbleFourBit => Sys2Proof.Machine.execNibbleFourBit s
  | .reqInitialize => Sys2Proof.Machine.execReqInitialize s
  | .reqSendByte value rs => Sys2Proof.Machine.execReqSendByte value rs s
  | .reqClear => Sys2Proof.Machine.execReqClear s
  | .reqReturnHome => Sys2Proof.Machine.execReqReturnHome s
  | .reqSetEntryMode direction shiftDisplay => Sys2Proof.Machine.execReqSetEntryMode direction shiftDisplay s
  | .reqSetDisplay on cursor blink => Sys2Proof.Machine.execReqSetDisplay on cursor blink s
  | .reqShift target direction => Sys2Proof.Machine.execReqShift target direction s
  | .reqSetFunction busWidth lines font => Sys2Proof.Machine.execReqSetFunction busWidth lines font s
  | .reqSetCgramAddress addr => Sys2Proof.Machine.execReqSetCgramAddress addr s
  | .reqSetDdramAddress addr => Sys2Proof.Machine.execReqSetDdramAddress addr s
  | .reqWriteChar byte => Sys2Proof.Machine.execReqWriteChar byte s
  | .reserved11 => Sys2Proof.Machine.execReserved11 s
  | .reserved12 => Sys2Proof.Machine.execReserved12 s
  | .reserved13 => Sys2Proof.Machine.execReserved13 s
  | .reserved14 => Sys2Proof.Machine.execReserved14 s
  | .reserved15 => Sys2Proof.Machine.execReserved15 s

end Sys2Proof.Machine
end

