-- ==== Sys2Proof/Machine/Fetch.lean ====
section
/-! DEFINITION. What the machine does next (R26, R86, R235, R250, R253, R260, R267), and how a table word is placed for it. -/

namespace Sys2Proof.Machine

/-- Construction (R250-R252). A refused one returns its error and yields no engine: the engine there was is untouched (log
entry 9). That a construction takes no time is the model's choice (log entry 13). An accepted one
sets the engine's state and emits nothing; the levels of the lines are no longer known to it. -/
def construct (c : Cfg) (t : Tim) (s : State) : State :=
  if c.legal then { s with drv := .uninitialized, cfg := c, tim := t, phase := .idle, lv := Levels.unknown }
  else raise s (.configurationError .invalidLineFont)

/-- A stray EN pulse from outside the engine (R267 (a)): the receiver latches what the pulse finds on the lines, which is a
free value (U17; log entry 26), and is desynchronized from then on (log entry
27). The engine cannot detect it: its state, the trace and the levels stay. -/
def strayPulse (s : State) : State :=
  let now := s.clock + Config.overshoot s.draws
  let d := Config.rxDraws s.draws
  { s with
    clock := now, draws := s.draws + 1, rx := s.latched now (RegSel.ofBit d.strayData) d.strayLines d, sync := .lost }

/-- The next nibble transaction will not reach the receiver (R267 (c); log entry 26). -/
def loseNext (s : State) : State := { s with losing := true }

/-- What the next step is about. -/
inductive Activity where
  /-- nothing is presented: the engine is idle and waits (R237, R253) -/
  | wait
  /-- the next event of the request in progress (R26) -/
  | micro
  /-- a decoded instruction, with the state its word has been taken from -/
  | run (i : Instr) (s : State)
  /-- a construction, with the state it has been taken from -/
  | build (c : Cfg) (t : Tim) (s : State)
  /-- a bus byte or nibble word that is no table row -/
  | undecodable (e : DecodeError)
  /-- a stray pulse, with the state it has been taken from -/
  | stray (s : State)
  /-- a transaction will be lost, with the state that this has been taken from -/
  | lose (s : State)
  /-- another agent drives a line, or pulses EN during a pulse -/
  | foreign
  /-- a second concurrent requester -/
  | second
  deriving DecidableEq, Repr

/-- Take the next input. A foreign driver, a second requester, a stray pulse or a loss is met at once
(R235, R260, R267); a stray pulse while EN is High acts on the bus during a pulse (R260). A request in progress goes
first (R26, R86): a word or a construction waits until the engine is `Idle`. -/
def nextActivity (s : State) : Activity :=
  match s.inbox with
  | .foreignDrive _ _ :: _ => .foreign
  | .strayPulse :: rest => if s.lv.en = .high then .foreign else .stray { s with inbox := rest }
  | .loseTransaction :: rest => .lose { s with inbox := rest }
  | .secondRequester _ :: _ => .second
  | [] =>
    match s.phase with
    | .busy _ _ _ _ => .micro
    | .idle => .wait
  | .construct c t :: rest =>
    match s.phase with
    | .busy _ _ _ _ => .micro
    | .idle => .build c t { s with inbox := rest }
  | .word p :: rest =>
    match s.phase with
    | .busy _ _ _ _ => .micro
    | .idle =>
      match decode p with
      | .ok i => .run i { s with inbox := rest }
      | .error e => .undecodable e

/-- The state with a table word as its next input, in `Idle`, one step to a whole instruction (log entries 4, 5). -/
def placeWord (s : State) (nbits w : Nat) : State :=
  { s with inbox := .word (portWordOf nbits w) :: s.inbox, phase := .idle, grain := .whole }

end Sys2Proof.Machine
end

