-- ==== Sys2Proof/Machine/MicroStep.lean ====
section
/-! DEFINITION. The micro-step refinement (R26): accepting a request in `Idle`, and emitting one event in `Busy`. -/

namespace Sys2Proof.Machine

/-- The plan of every instruction, the one its meaning performs at once. -/
def planOf (i : Instr) (s : State) : Plan :=
  match i with
  | .busClear => planBusClear s
  | .busReturnHome dc => planBusReturnHome dc s
  | .busEntryMode increment shiftDisplay => planBusEntryMode increment shiftDisplay s
  | .busDisplay on cursor blink => planBusDisplay on cursor blink s
  | .busShift display right dc => planBusShift display right dc s
  | .busFunction eightBit twoLines font5x10 dc => planBusFunction eightBit twoLines font5x10 dc s
  | .busCgramAddr addr => planBusCgramAddr addr s
  | .busDdramAddr addr => planBusDdramAddr addr s
  | .busData byte => planBusData byte s
  | .nibbleReset => planNibbleReset s
  | .nibbleFourBit => planNibbleFourBit s
  | .reqInitialize => planReqInitialize s
  | .reqSendByte value rs => planReqSendByte value rs s
  | .reqClear => planReqClear s
  | .reqReturnHome => planReqReturnHome s
  | .reqSetEntryMode direction shiftDisplay => planReqSetEntryMode direction shiftDisplay s
  | .reqSetDisplay on cursor blink => planReqSetDisplay on cursor blink s
  | .reqShift target direction => planReqShift target direction s
  | .reqSetFunction busWidth lines font => planReqSetFunction busWidth lines font s
  | .reqSetCgramAddress addr => planReqSetCgramAddress addr s
  | .reqSetDdramAddress addr => planReqSetDdramAddress addr s
  | .reqWriteChar byte => planReqWriteChar byte s
  | .reserved11 => illegalPlan 11#4
  | .reserved12 => illegalPlan 12#4
  | .reserved13 => illegalPlan 13#4
  | .reserved14 => illegalPlan 14#4
  | .reserved15 => illegalPlan 15#4

/-- `Busy` with what is left to emit, or, with nothing left, `Idle` and the response returned (R26). -/
def settle (pos : Nat) (rest : List BusEvent) (writes : List DrvWrite) (resp : Option Response) (s : State) : State :=
  match rest with
  | [] => respond { s with phase := .idle } resp
  | e :: es => { s with phase := .busy pos (e :: es) writes resp }

/-- Accept a plan in `Idle` (R26): a failed guard returns its error at once and stays `Idle`; otherwise the engine applies
the writes due before the first event and enters `Busy`. Accepting takes no time (log entry 13). -/
def accept (p : Plan) (s : State) : State :=
  match p with
  | .error r => raise s r
  | .run es ws resp => settle 0 es ws resp (applyWrites 0 (begun (initializes ws) es s) ws)

/-- One micro-step in `Busy` (R26): emit the head of `rest`, apply the `drv` writes due at that index, and return to `Idle`
with the response when `rest` is empty. -/
def microStep (s : State) : State :=
  match s.phase with
  | .idle => s
  | .busy pos [] writes resp => settle pos [] writes resp s
  | .busy pos (e :: es) writes resp => settle (pos + 1) es writes resp (applyWrites (pos + 1) (emit s e) writes)

end Sys2Proof.Machine
end

