-- ==== Sys2Proof/Machine/Step.lean ====
section
/-! DEFINITION. One step of the machine. -/

namespace Sys2Proof.Machine

/-- One step: a whole instruction, one micro-step, a construction, a disturbance of the bus, or waiting (R12, R26, R250,
R253, R267). -/
def step (s : State) : Host.Outcome State Fault Refusal :=
  match nextActivity s with
  | .wait => .next s
  | .micro => .next (microStep s)
  | .build c t s' => .next (construct c t s')
  | .undecodable e => .refused (.noTableRow e)
  | .stray s' => .next (strayPulse s')
  | .lose s' => .next (loseNext s')
  | .foreign => .refused .foreignBusActivity
  | .second => .refused .concurrentRequester
  | .run i s' =>
    match s'.grain with
    | .whole => exec i s'
    | .event => .next (accept (planOf i s') s')

/-- The state whose very next step runs the table word `w` (log entries 4, 5). -/
def State.withFetchWord (s : State) (nbits w : Nat) : State := placeWord s nbits w

end Sys2Proof.Machine
end

