-- ==== Sys2Proof/Machine/Flags.lean ====
section
/-! DEFINITION. The engine has no flags or status register (R31). What a request leaves behind besides its trace is its
response, and this file computes the response word (R88). -/

namespace Sys2Proof.Machine

/-- `resp[3:2]` (R88). -/
def ConfigReason.code : ConfigReason → BitVec 2
  | .invalidLineFont => 1#2
  | .invalidBusWidth => 2#2

/-- The response word: kind in bits 1..0, ConfigurationError reason in bits 3..2, refused op code in bits 7..4 (R88). -/
def Response.word : Response → ResponseWord
  | .ok => 0x00#8
  | .configurationError reason => 0#4 ++ reason.code ++ 1#2
  | .protocolStateError op => op ++ 0#2 ++ 2#2
  | .illegalRequest op => op ++ 0#2 ++ 3#2

end Sys2Proof.Machine
end

