-- ==== Sys2Proof/Machine/Observe.lean ====
section
/-! DEFINITION. The observations of a trace beside the nibble-transaction trace `txs` of Ops.lean (R111, R112): its bytes,
delay sums (R61), and the shape of an EN pulse (R102, R105). -/

namespace Sys2Proof.Machine

/-- The byte view of a list of records (R112): consecutive records `(rs, h)` and `(rs, l)` form the byte `(rs, {h, l})`.
There is none when a record is left over or the two register selects differ. -/
def byteView : List Record → Option (List (RegSel × Byte))
  | [] => some []
  | [_] => none
  | h :: l :: rest =>
    if h.rs = l.rs then
      match byteView rest with
      | some bytes => some ((h.rs, h.n ++ l.n) :: bytes)
      | none => none
    else none

/-- The sum of the delays of a trace (R61). -/
def delaySum : List BusEvent → Nat
  | [] => 0
  | e :: es => e.minDuration + delaySum es

/-- Every EN rising event is followed at once by the hold delay and the EN falling event, and by nothing else (R102, R105,
R260). -/
def pulsesIntact (hold : Nat) : List BusEvent → Bool
  | [] => true
  | e :: es =>
    (if e = .setLine .en .high then
      match es with
      | d :: f :: _ => d == .delay hold && f == .setLine .en .low
      | _ => false
    else true) && pulsesIntact hold es

end Sys2Proof.Machine
end

