-- ==== Sys2Proof/Safety.lean ====
section
/-! DEFINITION. What counts as a safe run, in the terms the statements use: the invariant every step keeps, the legal steps of
the driver state (R22), the inputs of one host (R235, R261), and the timing under which the receiver is never caught busy
(R207, R210, R212). -/

namespace Sys2Proof

/-- The enable width and the waits of the record give the receiver the time it needs (R210 (b), R209's side conditions, R210
(c), R212). -/
def Tim.waits (t : Tim) : Bool :=
  decide (Rx.enableWidth ≤ t.tEnPulse)
    && decide (1520000 ≤ t.tNibbleSettle + t.tReset1) && decide (37000 ≤ t.tNibbleSettle + t.tReset2)
    && decide (37000 ≤ t.tNibbleSettle + t.tReset3) && decide (37000 ≤ t.tNibbleSettle + t.t4Bit)
    && decide (41000 ≤ t.tNibbleSettle + t.tExecShort) && decide (1520000 ≤ t.tNibbleSettle + t.tExecLong)

/-- The timing record, and the latency of the adapter with it, meets conditions (a), (b) and (c) of R210: `T_AS` plus the
latency of any event is at least the address set-up time. A record with `T_AS` at or above that time needs no latency. -/
def Tim.covers (t : Tim) : Prop :=
  t.waits = true ∧ ∀ n, Rx.addressSetUp ≤ t.tAs + Config.overshoot n

end Sys2Proof

namespace Sys2Proof.Machine

/-- No transition, or one of the two transitions of R22. -/
def DrvState.stepOk (d d' : DrvState) : Bool :=
  d == d' || (d == .uninitialized && d' == .initializing) || (d == .initializing && d' == .ready)

/-- `drv` after the writes due after `k` events. -/
def dueDrv (k : Nat) (d : DrvState) (ws : List DrvWrite) : DrvState :=
  ws.foldl (fun d w => if w.1 = k then w.2 else d) d

/-- Every change of `drv` while the events from position `k` on are emitted is a transition of R22. -/
def drvPathOk (ws : List DrvWrite) : Nat → DrvState → List BusEvent → Bool
  | _, _, [] => true
  | k, d, _ :: es => d.stepOk (dueDrv (k + 1) d ws) && drvPathOk ws (k + 1) (dueDrv (k + 1) d ws) es

/-- The events still to emit. -/
def State.pending (s : State) : List BusEvent :=
  match s.phase with
  | .idle => []
  | .busy _ rest _ _ => rest

/-- The state in which the request in progress ends: the state itself in `Idle`. -/
def State.finished (s : State) : State :=
  match s.phase with
  | .idle => s
  | .busy pos rest ws resp => respond { runEvents ws pos s rest with phase := .idle } resp

/-- The pending `drv` writes are transitions of R22. -/
def State.drvPlanOk (s : State) : Bool :=
  match s.phase with
  | .idle => true
  | .busy pos rest ws _ => drvPathOk ws pos s.drv rest

/-- Between requests `drv` is never `Initializing` (R131), EN is not High (R103), and in `Ready` no line is `Unknown`
(R28). -/
def State.betweenOk (s : State) : Bool :=
  !(s.drv == .initializing) && !(s.lv.en == .high) && (!(s.drv == .ready) || s.lv.known)

/-- The invariant: the configuration is legal (R141, R250), RW is not High and no pending event raises it (R29), the pending
writes of `drv` follow R22, the state the request in progress ends in is a proper state between requests, and the receiver's
memories are in canonical form. -/
def State.Inv (s : State) : Prop :=
  s.cfg.legal = true ∧ s.lv.rw ≠ .high ∧ BusEvent.setLine .rw .high ∉ s.pending ∧ s.drvPlanOk = true
    ∧ s.finished.betweenOk = true ∧ s.rx.memWf = true

/-- An input of the one host of R235: a request word or a construction. Bus bytes and nibbles as inputs are the model's own
(log entries 6, 7). -/
def HostInput.isHosts : HostInput → Bool
  | .word (.request _) => true
  | .word (.busByte _) => false
  | .word (.nibble _) => false
  | .construct _ _ => true
  | .foreignDrive _ _ => false
  | .strayPulse => false
  | .loseTransaction => false
  | .secondRequester _ => false

/-- The receiver expects a high nibble and is not busy, the next transaction reaches it, and no hazard of R267 has
desynchronized it: the engine's pairing and the receiver's phase are aligned (R54, R210). -/
def State.rxReady (s : State) : Bool :=
  s.rx.mode == .m4h && decide (s.rx.busyUntil ≤ s.clock) && !s.losing && s.sync == .held

/-- The state after an admitted byte transfer: the events of `BT(rs, v)` emitted and Ok returned (R106, R109, R160). -/
def transferred (s : State) (rs : RegSel) (v : Byte) : State :=
  respond (emitAll (begun false (byteEvents s.tim rs v) s) (byteEvents s.tim rs v)) (some .ok)

/-- The state after an error: only the response is returned (R226). -/
def failed (s : State) (r : Response) : State := { s with responses := s.responses ++ [r] }

/-- No input is another agent's (R235, R260, R267). -/
def oneAgent (inbox : List HostInput) : Prop :=
  (∀ l v, HostInput.foreignDrive l v ∉ inbox) ∧ (∀ w, HostInput.secondRequester w ∉ inbox)
    ∧ HostInput.strayPulse ∉ inbox ∧ HostInput.loseTransaction ∉ inbox

/-- The next input is not a construction. -/
def State.noConstruction (s : State) : Prop := ∀ c t, s.inbox.head? ≠ some (.construct c t)

end Sys2Proof.Machine
end

