-- ==== Sys2Proof/Certificates/Slice0/Obligations.lean ====
section
/-! DEFINITION. The statements for the provers. Each docstring names the rule of spec/ it formalises. -/

open Sys2Proof Sys2Proof.Machine

/-! ## Reset, construction and the invariant -/

/-- R251 for State.reset, the model's construction (log entries 2, 3, 11), and the invariant there. -/
def Obligations.ResetIsFreshAndSatisfiesInvariant : Prop :=
  State.reset.drv = .uninitialized ∧ State.reset.phase = .idle ∧ State.reset.lv = Levels.unknown
    ∧ State.reset.trace = [] ∧ State.reset.responses = [] ∧ State.reset.tim = Tim.default ∧ State.reset.Inv

/-- R251, R252: an accepted construction leaves exactly the state of R251 and emits nothing. -/
def Obligations.ConstructionLeavesFreshEngine : Prop :=
  ∀ (s : State) (c : Cfg) (t : Tim) (rest : List HostInput),
    s.phase = .idle → s.inbox = .construct c t :: rest → ¬(c.lineCount = .two ∧ c.font = .f5x10) →
      step s = .next { s with
        drv := .uninitialized, cfg := c, tim := t, phase := .idle, inbox := rest,
        lv := { rs := .unknown, rw := .unknown, en := .unknown, d4 := .unknown, d5 := .unknown, d6 := .unknown,
                d7 := .unknown } }

/-- R221 (first row), R250: a construction with two lines and the 5x10 font is refused. That the engine there was stays as it
was is the model's choice (log entry 9). -/
def Obligations.IllegalConstructionIsRefused : Prop :=
  ∀ (s : State) (c : Cfg) (t : Tim) (rest : List HostInput),
    s.phase = .idle → s.inbox = .construct c t :: rest → c.lineCount = .two → c.font = .f5x10 →
      step s = .next (failed { s with inbox := rest } (.configurationError .invalidLineFont))

/-- The invariant of Safety.lean is kept by every step: legal configuration (R141), RW never High (R29), legal driver-state
transitions (R22), proper state between requests (R28, R103, R131), receiver memories in canonical form. -/
def Obligations.StepKeepsInvariant : Prop :=
  ∀ s t : State, s.Inv → step s = .next t → t.Inv

/-- R22: the transitions of `drv`. In micro-steps each is one of the two, and a whole request can only be no transition or
both of them; a construction is the one exception. -/
def Obligations.DriverStateTransitions : Prop :=
  ∀ s t : State, s.Inv → s.noConstruction → step s = .next t →
    (s.grain = .event → t.drv = s.drv ∨ (s.drv = .uninitialized ∧ t.drv = .initializing)
      ∨ (s.drv = .initializing ∧ t.drv = .ready))
    ∧ (s.phase = .idle → s.grain = .whole → t.drv = s.drv ∨ (s.drv = .uninitialized ∧ t.drv = .ready))

/-- R28: once every line is known, no line is `Unknown` again, short of a construction; and one nibble transaction makes
every line known. -/
def Obligations.KnownLinesStayKnown : Prop :=
  (∀ s t : State, s.noConstruction → s.lv.known = true → step s = .next t → t.lv.known = true)
  ∧ ∀ (lv : Levels) (t : Tim) (rs : RegSel) (n : Nibble), (lv.afterAll (nibbleEvents t rs n)).known = true

/-! ## The step -/

/-- R12, R26, R86: with a word presented in `Idle`, a step runs the decoded instruction whole, or accepts it. -/
def Obligations.StepRunsDecodedInstruction : Prop :=
  ∀ (s : State) (p : PortWord) (i : Instr) (rest : List HostInput),
    s.phase = .idle → s.inbox = .word p :: rest → decode p = .ok i →
      (s.grain = .whole → step s = exec i { s with inbox := rest })
      ∧ (s.grain = .event → step s = .next (accept (planOf i { s with inbox := rest }) { s with inbox := rest }))

/-- R237, R253: with nothing presented and no request in progress, the engine is idle and emits nothing. That waiting takes no
time (log entry 13) and that the step answers the very same state (log entry 20) is the model's choice. -/
def Obligations.IdleEngineWaits : Prop :=
  ∀ s : State, s.phase = .idle → s.inbox = [] → step s = .next s

/-- R235, R260 (U1, U4): another agent on the bus, a pulse of EN during a pulse, and a second requester are refused (log entry
19). -/
def Obligations.OtherAgentsAreRefused : Prop :=
  ∀ (s : State) (rest : List HostInput),
    (∀ l v, s.inbox = .foreignDrive l v :: rest → step s = .refused .foreignBusActivity)
    ∧ (∀ w, s.inbox = .secondRequester w :: rest → step s = .refused .concurrentRequester)
    ∧ (s.inbox = .strayPulse :: rest → s.lv.en = .high → step s = .refused .foreignBusActivity)

/-- R267 (a), R55, R203-R205, R207 (U17; log entries 26, 27): a stray EN pulse changes nothing of the engine, and is one latch
at the receiver, at the time the step ends, of the register select and nibble that the pulse finds on the lines. A receiver in
4-bit mode has its phase shifted: a low nibble is expected next, or what it held is executed with what the pulse brought. In
8-bit mode the nibble is executed with the levels of D3..D0. Once the receiver is desynchronized, which it is after the pulse,
a byte so completed is any value, busy no longer than 1.52 ms; a busy receiver goes to any state. -/
def Obligations.StrayPulseShiftsPhase : Prop :=
  ∀ (s : State) (rest : List HostInput), s.inbox = .strayPulse :: rest → s.lv.en ≠ .high →
    let d := Config.rxDraws s.draws
    let rs := RegSel.ofBit d.strayData
    ∃ t, step s = .next t ∧ t.drv = s.drv ∧ t.cfg = s.cfg ∧ t.tim = s.tim ∧ t.phase = s.phase ∧ t.lv = s.lv
      ∧ t.trace = s.trace ∧ t.responses = s.responses ∧ t.inbox = rest ∧ t.grain = s.grain ∧ t.pins = s.pins
      ∧ t.losing = s.losing ∧ t.draws = s.draws + 1 ∧ t.sync = .lost ∧ s.clock ≤ t.clock
      ∧ (s.rx.busyUntil ≤ t.clock → s.rx.mode = .m4h → t.rx = { s.rx with mode := .m4l d.strayLines })
      ∧ (s.sync ≠ .lost → s.rx.busyUntil ≤ t.clock → ∀ h, s.rx.mode = .m4l h →
          t.rx = { s.rx with mode := .m4h }.execute t.clock rs (h ++ d.strayLines) d)
      ∧ (s.sync ≠ .lost → s.rx.busyUntil ≤ t.clock → s.rx.mode = .m8 →
          t.rx = s.rx.execute t.clock rs (d.strayLines ++ d.low) d)
      ∧ (s.sync = .lost → s.rx.busyUntil ≤ t.clock → s.rx.mode ≠ .m4h →
          t.rx = Rx.misread t.clock d ∧ t.rx.busyUntil ≤ t.clock + 1520000)
      ∧ (t.clock < s.rx.busyUntil → t.rx = Rx.ofDraw d.anyRx)

/-- R267 (c) (log entries 26, 27): when the next transaction is lost, a byte transfer leaves a receiver that was ready holding
the byte's low nibble as a high one, changes nothing else of it, and leaves it desynchronized; the engine's own state and its
events are those of any byte transfer. -/
def Obligations.LostTransactionShiftsPhase : Prop :=
  (∀ (s : State) (rest : List HostInput), s.inbox = .loseTransaction :: rest →
    step s = .next { s with inbox := rest, losing := true })
  ∧ ∀ (s : State) (rs : RegSel) (v : Byte), s.losing = true → s.rx.mode = .m4h → s.rx.busyUntil ≤ s.clock →
      s.tim.covers →
      (transferred s rs v).rx = { s.rx with mode := .m4l (v.extractLsb' 0 4) } ∧ (transferred s rs v).losing = false
        ∧ (transferred s rs v).sync = .lost
        ∧ (transferred s rs v).trace = s.trace ++ byteEvents s.tim rs v ∧ (transferred s rs v).drv = s.drv

/-- R267, R254 (log entry 27): a hazard begins with a stray pulse (a), with a FUNCTION byte with DL = 1 for the bytes after it
(b), and with a lost transaction (c), which a presented loss makes of the next one (log entry 26); no step ends it but one
that takes an `initialize` which a new engine admits, and that one ends it unless a transaction of its own is lost. -/
def Obligations.DesynchronizationLasts : Prop :=
  (∀ (s t : State), s.sync ≠ .held → step s = .next t →
    (t.sync ≠ .held ∧ (s.sync = .lost → t.sync = .lost))
    ∨ (s.phase = .idle ∧ s.drv = .uninitialized
        ∧ ∃ p rest, s.inbox = .word p :: rest ∧ decode p = .ok .reqInitialize))
  ∧ (∀ (s : State) (v w : Byte) (rs : RegSel), s.drv = .ready → v.extractLsb' 4 4 = 0x3#4 →
      (transferred s .command v).sync ≠ .held ∧ (transferred (transferred s .command v) rs w).sync = .lost)
  ∧ (∀ (s : State) (rest : List HostInput), s.inbox = .strayPulse :: rest → s.lv.en ≠ .high →
      ∃ t, step s = .next t ∧ t.sync = .lost)
  ∧ (∀ (s : State) (rest : List HostInput), s.inbox = .loseTransaction :: rest → ∃ t, step s = .next t ∧ t.losing = true)
  ∧ (∀ (s : State) (rs : RegSel) (n : Nibble), s.losing = true →
      (emitAll s (nibbleEvents s.tim rs n)).sync = .lost)
  ∧ (∀ s : State, s.drv = .uninitialized → s.losing = false →
      ∃ t, exec .reqInitialize s = .next t ∧ t.drv = .ready ∧ t.sync = .held)

/-- R267, U17 (log entry 27): at a desynchronized receiver a nibble that completes a byte, and a byte that comes to a receiver
which expects its high nibble, leaves a state that does not depend on what was sent: any value. After a nibble that comes while
it is not busy, the receiver is busy no longer than the longest instruction takes, so that `initialize` recovers it (R209,
R254; InitializeBringsUpReceiver); a latch while busy leaves any state (R207). -/
def Obligations.DesynchronizedReceiverReadsAnyValue : Prop :=
  (∀ (s : State) (rs rs' : RegSel) (n n' : Nibble), s.sync = .lost → s.rx.mode ≠ .m4h →
    (emitAll s (nibbleEvents s.tim rs n)).rx = (emitAll s (nibbleEvents s.tim rs' n')).rx)
  ∧ (∀ (s : State) (rs rs' : RegSel) (v v' : Byte), s.sync ≠ .held → s.losing = false → s.tim.covers → s.rx.mode = .m4h →
      s.rx.busyUntil ≤ s.clock → (transferred s rs v).rx = (transferred s rs' v').rx)
  ∧ (∀ (s : State) (rs : RegSel) (n : Nibble), s.sync = .lost → s.tim.covers → s.rx.busyUntil ≤ s.clock →
      (emitAll s (nibbleEvents s.tim rs n)).rx.busyUntil ≤ (emitAll s (nibbleEvents s.tim rs n)).clock + 1520000)

/-- R26: the micro-step reading gives the trace, the final state and the response of the big-step reading, in one step to
accept and one for each event. -/
def Obligations.MicroStepsRefineExec : Prop :=
  ∀ (s t : State) (p : PortWord) (i : Instr) (rest : List HostInput),
    s.phase = .idle → s.grain = .event → s.inbox = .word p :: rest → oneAgent rest → decode p = .ok i →
    exec i { s with inbox := rest, grain := .whole } = .next t →
      Host.Core.run core (1 + (t.trace.length - s.trace.length)) s = .next { t with grain := .event }

/-- R146, R25: after accepting `initialize`, the state of the finite state machine follows the event position, and `drv` is
`Initializing` up to the end of step 5 and `Ready` from there. -/
def Obligations.InitializeWalksItsStates : Prop :=
  ∀ (s t : State) (n : Nat),
    s.phase = .idle → s.grain = .event → s.drv = .uninitialized → s.inbox = [.word (encode .reqInitialize)] →
    n < (initEvents s.tim s.cfg).length → Host.Core.run core (1 + n) s = .next t →
      t.fsm = fsmAt s.tim s.cfg (recoveryStates ++ configStates) n
      ∧ t.drv = (if n < (recoveryEvents s.tim s.cfg).length then .initializing else .ready)
      ∧ t.trace = s.trace ++ (initEvents s.tim s.cfg).take n

/-! ## Transfers -/

/-- R101: the events of a nibble transaction, the levels after it, and that it writes no engine state. -/
def Obligations.NibbleTransactionEvents : Prop :=
  ∀ (s : State) (rs : RegSel) (n : Nibble),
    (emitAll s (nibbleEvents s.tim rs n)).trace
      = s.trace
        ++ [.setLine .rs (if rs = .data then .high else .low), .setLine .rw .low,
            .setLine .d4 (if n.getLsbD 0 then .high else .low), .setLine .d5 (if n.getLsbD 1 then .high else .low),
            .setLine .d6 (if n.getLsbD 2 then .high else .low), .setLine .d7 (if n.getLsbD 3 then .high else .low)]
        ++ (if s.tim.tAs > 0 then [.delay s.tim.tAs] else [])
        ++ [.setLine .en .high, .delay s.tim.tEnPulse, .setLine .en .low, .delay s.tim.tNibbleSettle]
    ∧ (emitAll s (nibbleEvents s.tim rs n)).lv
      = { rs := if rs = .data then .high else .low, rw := .low, en := .low,
          d4 := if n.getLsbD 0 then .high else .low, d5 := if n.getLsbD 1 then .high else .low,
          d6 := if n.getLsbD 2 then .high else .low, d7 := if n.getLsbD 3 then .high else .low }
    ∧ (emitAll s (nibbleEvents s.tim rs n)).drv = s.drv ∧ (emitAll s (nibbleEvents s.tim rs n)).cfg = s.cfg
    ∧ (emitAll s (nibbleEvents s.tim rs n)).tim = s.tim ∧ (emitAll s (nibbleEvents s.tim rs n)).phase = s.phase

/-- R52, R106, R107: a byte transfer is the high nibble, the low nibble and the execution delay. -/
def Obligations.ByteTransferEvents : Prop :=
  ∀ (t : Tim) (rs : RegSel) (v : Byte),
    byteEvents t rs v
      = nibbleEvents t rs (v.extractLsb' 4 4) ++ nibbleEvents t rs (v.extractLsb' 0 4)
        ++ [.delay (if rs = .command ∧ (v = 0x01#8 ∨ v = 0x02#8 ∨ v = 0x03#8) then t.tExecLong else t.tExecShort)]

/-- R108, R113, R147: the event counts, with and without the set-up delay, and the position of the `Ready` write. -/
def Obligations.EventCounts : Prop :=
  ∀ (t : Tim) (c : Cfg) (rs : RegSel) (n : Nibble) (v : Byte),
    (t.tAs > 0 → (nibbleEvents t rs n).length = 11 ∧ (byteEvents t rs v).length = 23
      ∧ (recoveryEvents t c).length = 52 ∧ (initEvents t c).length = 144)
    ∧ (t.tAs = 0 → (nibbleEvents t rs n).length = 10 ∧ (byteEvents t rs v).length = 21
      ∧ (recoveryEvents t c).length = 48 ∧ (initEvents t c).length = 132)

/-- R148, R269: the delay sums of the operations. -/
def Obligations.DelaySums : Prop :=
  ∀ (t : Tim) (c : Cfg) (rs : RegSel) (n : Nibble) (v : Byte),
    delaySum (nibbleEvents t rs n) = t.tAs + t.tEnPulse + t.tNibbleSettle
    ∧ delaySum (byteEvents t rs v) = 2 * (t.tAs + t.tEnPulse + t.tNibbleSettle)
        + (if rs = .command ∧ (v = 0x01#8 ∨ v = 0x02#8 ∨ v = 0x03#8) then t.tExecLong else t.tExecShort)
    ∧ delaySum (initEvents t c) = t.tPowerOn + t.tReset1 + t.tReset2 + t.tReset3 + t.t4Bit
        + 12 * (t.tAs + t.tEnPulse + t.tNibbleSettle) + 3 * t.tExecShort + t.tExecLong

/-- R61: the time an instruction takes is at least the delays it emits. -/
def Obligations.ElapsedTimeCoversDelays : Prop :=
  ∀ (i : Instr) (s t : State) (es : List BusEvent),
    exec i s = .next t → t.trace = s.trace ++ es → s.clock + delaySum es ≤ t.clock

/-! ## Host requests -/

/-- R109: `send_byte` in `Ready` and outside it. -/
def Obligations.SendByteResult : Prop :=
  ∀ (s : State) (value : Byte) (rs : RegSel),
    (s.drv = .ready → exec (.reqSendByte value rs) s = .next (transferred s rs value))
    ∧ (s.drv ≠ .ready → exec (.reqSendByte value rs) s = .next (failed s (.protocolStateError 1#4)))

/-- R161, R162: `clear` and `return_home`. -/
def Obligations.ClearAndReturnHomeResult : Prop :=
  ∀ s : State,
    (s.drv = .ready → exec .reqClear s = .next (transferred s .command 0x01#8)
      ∧ exec .reqReturnHome s = .next (transferred s .command 0x02#8)
      ∧ execDelay s.tim .command 0x01#8 = s.tim.tExecLong ∧ execDelay s.tim .command 0x02#8 = s.tim.tExecLong)
    ∧ (s.drv ≠ .ready → exec .reqClear s = .next (failed s (.protocolStateError 2#4))
      ∧ exec .reqReturnHome s = .next (failed s (.protocolStateError 3#4)))

/-- R163, R164, R165: `set_entry_mode`, `set_display` and `shift`, for every operand, with the short execution delay. -/
def Obligations.ModeDisplayShiftResult : Prop :=
  ∀ (s : State) (x y z : Bool),
    let entry := 0x04#8 ||| (if x then 0x02#8 else 0#8) ||| (if y then 0x01#8 else 0#8)
    let display := 0x08#8 ||| (if x then 0x04#8 else 0#8) ||| (if y then 0x02#8 else 0#8) ||| (if z then 0x01#8 else 0#8)
    let shift := 0x10#8 ||| (if x then 0x08#8 else 0#8) ||| (if y then 0x04#8 else 0#8)
    (s.drv = .ready → exec (.reqSetEntryMode x y) s = .next (transferred s .command entry)
      ∧ exec (.reqSetDisplay x y z) s = .next (transferred s .command display)
      ∧ exec (.reqShift x y) s = .next (transferred s .command shift)
      ∧ execDelay s.tim .command entry = s.tim.tExecShort ∧ execDelay s.tim .command display = s.tim.tExecShort
      ∧ execDelay s.tim .command shift = s.tim.tExecShort)
    ∧ (s.drv ≠ .ready → exec (.reqSetEntryMode x y) s = .next (failed s (.protocolStateError 4#4))
      ∧ exec (.reqSetDisplay x y z) s = .next (failed s (.protocolStateError 5#4))
      ∧ exec (.reqShift x y) s = .next (failed s (.protocolStateError 6#4)))

/-- R166, R167, R168: `set_function`, its checks in their order, its byte with DL = 0, and `cfg` unwritten. -/
def Obligations.SetFunctionResult : Prop :=
  ∀ (s : State) (busWidth lines font : Bool),
    (s.drv ≠ .ready → exec (.reqSetFunction busWidth lines font) s = .next (failed s (.protocolStateError 7#4)))
    ∧ (s.drv = .ready → busWidth = true →
        exec (.reqSetFunction busWidth lines font) s = .next (failed s (.configurationError .invalidBusWidth)))
    ∧ (s.drv = .ready → busWidth = false → lines = true → font = true →
        exec (.reqSetFunction busWidth lines font) s = .next (failed s (.configurationError .invalidLineFont)))
    ∧ (s.drv = .ready → busWidth = false → ¬(lines = true ∧ font = true) →
        exec (.reqSetFunction busWidth lines font) s = .next (transferred s .command
            (0x20#8 ||| (if lines then 0x08#8 else 0#8) ||| (if font then 0x04#8 else 0#8)))
        ∧ (transferred s .command (0x20#8 ||| (if lines then 0x08#8 else 0#8) ||| (if font then 0x04#8 else 0#8))).cfg
          = s.cfg)

/-- R170, R171: the address commands mask their operand and never reject it. -/
def Obligations.AddressCommandsMask : Prop :=
  ∀ (s : State) (addr : Byte),
    (s.drv = .ready → exec (.reqSetCgramAddress addr) s = .next (transferred s .command (0x40#8 ||| (addr &&& 0x3F#8)))
      ∧ exec (.reqSetDdramAddress addr) s = .next (transferred s .command (0x80#8 ||| (addr &&& 0x7F#8)))
      ∧ execDelay s.tim .command (0x40#8 ||| (addr &&& 0x3F#8)) = s.tim.tExecShort
      ∧ execDelay s.tim .command (0x80#8 ||| (addr &&& 0x7F#8)) = s.tim.tExecShort)
    ∧ (s.drv ≠ .ready → exec (.reqSetCgramAddress addr) s = .next (failed s (.protocolStateError 8#4))
      ∧ exec (.reqSetDdramAddress addr) s = .next (failed s (.protocolStateError 9#4)))

/-- R172: `write_char` sends any byte with RS = Data and the short execution delay. -/
def Obligations.WriteCharResult : Prop :=
  ∀ (s : State) (byte : Byte),
    (s.drv = .ready → exec (.reqWriteChar byte) s = .next (transferred s .data byte)
      ∧ execDelay s.tim .data byte = s.tim.tExecShort)
    ∧ (s.drv ≠ .ready → exec (.reqWriteChar byte) s = .next (failed s (.protocolStateError 10#4)))

/-- R141 (with R131-R140): `initialize` is this sequence, and is refused when `drv` is not `Uninitialized`. That it ends the
hazards of R267 where it begins is log entry 27. -/
def Obligations.InitializeResult : Prop :=
  ∀ s : State,
    (s.drv = .uninitialized →
      let nt := fun (n : Nibble) (d : Nat) (u : State) => emitAll u (nibbleEvents s.tim .command n ++ [.delay d])
      let bt := fun (v : Byte) (u : State) => emitAll u (byteEvents s.tim .command v)
      let func := 0x20#8 ||| (if s.cfg.lineCount = .two then 0x08#8 else 0#8)
        ||| (if s.cfg.font = .f5x10 then 0x04#8 else 0#8)
      let s0 := { s with drv := .initializing, sync := .held }
      let s1 := emitAll s0 [.setLine .en .low, .setLine .rs .low, .setLine .rw .low, .delay s.tim.tPowerOn]
      let s5 := nt 0x2#4 s.tim.t4Bit (nt 0x3#4 s.tim.tReset3 (nt 0x3#4 s.tim.tReset2 (nt 0x3#4 s.tim.tReset1 s1)))
      let s6 := { s5 with drv := .ready }
      let s7 := bt 0x06#8 (bt 0x01#8 (bt 0x08#8 (bt func s6)))
      exec .reqInitialize s = .next { s7 with responses := s7.responses ++ [.ok] })
    ∧ (s.drv ≠ .uninitialized → exec .reqInitialize s = .next (failed s (.protocolStateError 0#4)))

/-- R22, R28, R144 and vector V-INIT-7: what `initialize` leaves. -/
def Obligations.InitializeLeavesReadyBus : Prop :=
  ∀ s : State, s.drv = .uninitialized → ∃ t, exec .reqInitialize s = .next t ∧ t.drv = .ready
    ∧ t.cfg = s.cfg ∧ t.tim = s.tim ∧ t.phase = s.phase ∧ t.inbox = s.inbox ∧ t.grain = s.grain
    ∧ t.responses = s.responses ++ [.ok] ∧ t.trace = s.trace ++ initEvents s.tim s.cfg
    ∧ t.lv = { rs := .low, rw := .low, en := .low, d4 := .low, d5 := .high, d6 := .high, d7 := .low }

/-- R222: every request but `initialize` outside `Ready`, and `initialize` outside `Uninitialized`: nothing is emitted, and
the response has code 2 and records the op code. -/
def Obligations.ProtocolStateErrors : Prop :=
  (∀ (i : Instr) (s : State) (w : RequestWord), i.isRequest = true → encode i = .request w →
    (i ≠ .reqInitialize → s.drv ≠ .ready → exec i s = .next (failed s (.protocolStateError (w.extractLsb' 0 4))))
    ∧ (i = .reqInitialize → s.drv ≠ .uninitialized → exec i s = .next (failed s (.protocolStateError 0#4))))
  ∧ ∀ (s : State) (op : OpCode), (failed s (.protocolStateError op)).trace = s.trace
      ∧ (Response.protocolStateError op).word.extractLsb' 0 4 = 2#4
      ∧ (Response.protocolStateError op).word.extractLsb' 4 4 = op

/-- R87: the reserved op codes, at the request port and in any state. -/
def Obligations.ReservedOpsAreIllegal : Prop :=
  (∀ s : State, exec .reserved11 s = .next (failed s (.illegalRequest 11#4))
    ∧ exec .reserved12 s = .next (failed s (.illegalRequest 12#4))
    ∧ exec .reserved13 s = .next (failed s (.illegalRequest 13#4))
    ∧ exec .reserved14 s = .next (failed s (.illegalRequest 14#4))
    ∧ exec .reserved15 s = .next (failed s (.illegalRequest 15#4)))
  ∧ ∀ (w : RequestWord) (s : State), 11#4 ≤ w.extractLsb' 0 4 →
      exec (decodeRequest w) s = .next (failed s (.illegalRequest (w.extractLsb' 0 4)))

/-- R227: the response of every request word, by the first check that fails. -/
def Obligations.FirstFailingCheckAnswers : Prop :=
  ∀ (w : RequestWord) (s : State), ∃ t, exec (decodeRequest w) s = .next t ∧
    t.responses = s.responses ++ [
      let op : OpCode := w.extractLsb' 0 4
      if 11#4 ≤ op then .illegalRequest op
      else if (op = 0#4 ∧ s.drv ≠ .uninitialized) ∨ (op ≠ 0#4 ∧ s.drv ≠ .ready) then .protocolStateError op
      else if op = 7#4 ∧ w.getLsbD 14 = true then .configurationError .invalidBusWidth
      else if op = 7#4 ∧ w.getLsbD 13 = true ∧ w.getLsbD 12 = true then .configurationError .invalidLineFont
      else .ok]

/-- R226: an error changes nothing but the responses. -/
def Obligations.ErrorsChangeNothing : Prop :=
  ∀ (i : Instr) (s t : State) (r : Response),
    exec i s = .next t → t.responses = s.responses ++ [r] → r ≠ .ok →
      t = { s with responses := s.responses ++ [r] }

/-- The frame of every instruction: what is never written (R7, R20-R24), `drv` only by `initialize` (R21), the trace only
extended, the levels only through the events emitted (R27, R28), the receiver only through the bus (R200), and the hazards of
R267 as log entry 27 says. A frame of the receiver's own parts is in CommandsReachReceiver and WriteCharStoresOneByte. -/
def Obligations.InstructionFrame : Prop :=
  ∀ (i : Instr) (s t : State), exec i s = .next t →
    t.cfg = s.cfg ∧ t.tim = s.tim ∧ t.phase = s.phase ∧ t.inbox = s.inbox ∧ t.grain = s.grain
    ∧ (i ≠ .reqInitialize → t.drv = s.drv)
    ∧ ∃ (es : List BusEvent) (u : State), t.trace = s.trace ++ es ∧ t.lv = s.lv.afterAll es ∧ t.draws = s.draws + es.length
        ∧ (u = s ∧ es = [] ∨ u = begun (decide (i = .reqInitialize)) es s)
        ∧ t.rx = (emitAll u es).rx ∧ t.clock = (emitAll u es).clock ∧ t.pins = (emitAll u es).pins
        ∧ t.losing = (emitAll u es).losing ∧ t.sync = (emitAll u es).sync
        ∧ (t.responses = s.responses ∨ ∃ r, t.responses = s.responses ++ [r])

/-- R29: every nibble transaction drives RW Low, and no instruction ever drives it High. -/
def Obligations.RwIsNeverDrivenHigh : Prop :=
  (∀ (t : Tim) (rs : RegSel) (n : Nibble), BusEvent.setLine .rw .low ∈ nibbleEvents t rs n)
  ∧ ∀ (i : Instr) (s t : State) (es : List BusEvent),
      exec i s = .next t → t.trace = s.trace ++ es → BusEvent.setLine .rw .high ∉ es

/-- R102, R105, R260: between raising EN and lowering it there is exactly the hold delay. -/
def Obligations.EnPulsesAreIntact : Prop :=
  ∀ (i : Instr) (s t : State) (es : List BusEvent),
    exec i s = .next t → t.trace = s.trace ++ es → pulsesIntact s.tim.tEnPulse es = true

/-- R54, R55, R72, R108, R112: in `Ready` every instruction, and outside `Initializing` every instruction but `initialize`,
emits no nibble transaction or the two of one byte, with one register select, which the byte view reads as that byte. -/
def Obligations.ReadyRequestsEmitPairs : Prop :=
  ∀ (i : Instr) (s t : State) (es : List BusEvent),
    s.drv = .ready ∨ (s.drv ≠ .initializing ∧ i ≠ .reqInitialize) → exec i s = .next t → t.trace = s.trace ++ es →
      txs s.lv es = [] ∨ ∃ (rs : RegSel) (v : Byte),
        txs s.lv es = [record rs (v.extractLsb' 4 4), record rs (v.extractLsb' 0 4)]
        ∧ byteView (txs s.lv es) = some [(rs, v)]

/-- R112, R149 (a)-(d): the nibble-transaction trace of `initialize`, and the byte view of it after the four recovery
nibbles. -/
def Obligations.InitializeRecords : Prop :=
  ∀ (s t : State) (es : List BusEvent),
    s.drv = .uninitialized → s.lv.en ≠ .high → exec .reqInitialize s = .next t → t.trace = s.trace ++ es →
      let func := 0x20#8 ||| (if s.cfg.lineCount = .two then 0x08#8 else 0#8)
        ||| (if s.cfg.font = .f5x10 then 0x04#8 else 0#8)
      txs s.lv es = [record .command 0x3#4, record .command 0x3#4, record .command 0x3#4, record .command 0x2#4,
        record .command (func.extractLsb' 4 4), record .command (func.extractLsb' 0 4),
        record .command 0x0#4, record .command 0x8#4, record .command 0x0#4, record .command 0x1#4,
        record .command 0x0#4, record .command 0x6#4]
      ∧ byteView ((txs s.lv es).drop 4)
        = some [(.command, func), (.command, 0x08#8), (.command, 0x01#8), (.command, 0x06#8)]

/-! ## Bus bytes and nibbles -/

/-- R70, R72, R106 and log entry 6: a bus byte is carried by a byte transfer in `Ready`; outside `Ready` it is refused as
`send_byte` is (R109). Every operand, don't-care bits and DL included (R80). -/
def Obligations.BusByteInstructionsTransfer : Prop :=
  ∀ (s : State) (x y z : Bool) (dc1 : BitVec 1) (dc2 : BitVec 2) (a6 : BitVec 6) (a7 : BitVec 7) (b : Byte),
    (s.drv = .ready →
      exec .busClear s = .next (transferred s .command 0x01#8)
      ∧ exec (.busReturnHome dc1) s = .next (transferred s .command (0x02#8 ||| dc1.setWidth 8))
      ∧ exec (.busEntryMode x y) s = .next (transferred s .command
          (0x04#8 ||| (if x then 0x02#8 else 0#8) ||| (if y then 0x01#8 else 0#8)))
      ∧ exec (.busDisplay x y z) s = .next (transferred s .command
          (0x08#8 ||| (if x then 0x04#8 else 0#8) ||| (if y then 0x02#8 else 0#8) ||| (if z then 0x01#8 else 0#8)))
      ∧ exec (.busShift x y dc2) s = .next (transferred s .command
          (0x10#8 ||| (if x then 0x08#8 else 0#8) ||| (if y then 0x04#8 else 0#8) ||| dc2.setWidth 8))
      ∧ exec (.busFunction x y z dc2) s = .next (transferred s .command
          (0x20#8 ||| (if x then 0x10#8 else 0#8) ||| (if y then 0x08#8 else 0#8) ||| (if z then 0x04#8 else 0#8)
            ||| dc2.setWidth 8))
      ∧ exec (.busCgramAddr a6) s = .next (transferred s .command (0x40#8 ||| a6.setWidth 8))
      ∧ exec (.busDdramAddr a7) s = .next (transferred s .command (0x80#8 ||| a7.setWidth 8))
      ∧ exec (.busData b) s = .next (transferred s .data b))
    ∧ (s.drv ≠ .ready → ∀ i : Instr, (∃ w, encode i = .busByte w) →
        exec i s = .next (failed s (.protocolStateError 1#4)))

/-- R54, R55, R78, R101 and log entry 7: while `drv = Initializing` the recovery nibbles are one nibble transaction each, with
no response; otherwise no single nibble is emitted. -/
def Obligations.RecoveryNibblesTransact : Prop :=
  ∀ s : State,
    (s.drv = .initializing →
      exec .nibbleReset s = .next (emitAll s (nibbleEvents s.tim .command 0x3#4))
      ∧ exec .nibbleFourBit s = .next (emitAll s (nibbleEvents s.tim .command 0x2#4)))
    ∧ (s.drv ≠ .initializing →
      exec .nibbleReset s = .next (failed s (.protocolStateError 0#4))
      ∧ exec .nibbleFourBit s = .next (failed s (.protocolStateError 0#4)))

/-! ## Encodings -/

/-- R73, R78, R85, R86: decoding an encoded instruction gives it back, every operand at every value. -/
def Obligations.DecodeOfEncode : Prop :=
  ∀ i : Instr, decode (encode i) = .ok i

/-- R74: with RS = 0 the command is selected by the most significant set bit, and 0x00 selects nothing; every other bus byte
is the encoding of exactly one instruction. -/
def Obligations.BusBytesDecodeUniquely : Prop :=
  (∀ v : Byte, decodeBusByte (0#1 ++ v) =
    if v.getLsbD 7 then some (.busDdramAddr (v.extractLsb' 0 7))
    else if v.getLsbD 6 then some (.busCgramAddr (v.extractLsb' 0 6))
    else if v.getLsbD 5 then some (.busFunction (v.getLsbD 4) (v.getLsbD 3) (v.getLsbD 2) (v.extractLsb' 0 2))
    else if v.getLsbD 4 then some (.busShift (v.getLsbD 3) (v.getLsbD 2) (v.extractLsb' 0 2))
    else if v.getLsbD 3 then some (.busDisplay (v.getLsbD 2) (v.getLsbD 1) (v.getLsbD 0))
    else if v.getLsbD 2 then some (.busEntryMode (v.getLsbD 1) (v.getLsbD 0))
    else if v.getLsbD 1 then some (.busReturnHome (v.extractLsb' 0 1))
    else if v.getLsbD 0 then some .busClear
    else none)
  ∧ ∀ w : BusWord, w ≠ 0#9 → ∃ i, decodeBusByte w = some i ∧ encode i = .busByte w
      ∧ w.toNat &&& i.row.maskBits = i.row.matchBits
      ∧ ∀ j, encode j = .busByte w → j = i

/-- R86: the operand bits that an op does not use are ignored. -/
def Obligations.IgnoredOperandBits : Prop :=
  ∀ (a a' : Byte) (b b' : BitVec 3) (op : OpCode),
    (op = 0#4 ∨ op = 2#4 ∨ op = 3#4 ∨ 11#4 ≤ op → decodeRequest (b ++ a ++ op) = decodeRequest (b' ++ a' ++ op))
    ∧ (op = 1#4 → b.getLsbD 0 = b'.getLsbD 0 → decodeRequest (b ++ a ++ op) = decodeRequest (b' ++ a ++ op))
    ∧ (op = 4#4 ∨ op = 6#4 → b.getLsbD 0 = b'.getLsbD 0 → b.getLsbD 1 = b'.getLsbD 1 →
        decodeRequest (b ++ a ++ op) = decodeRequest (b' ++ a' ++ op))
    ∧ (op = 5#4 ∨ op = 7#4 → decodeRequest (b ++ a ++ op) = decodeRequest (b ++ a' ++ op))
    ∧ (op = 8#4 ∨ op = 9#4 ∨ op = 10#4 → decodeRequest (b ++ a ++ op) = decodeRequest (b' ++ a ++ op))

/-- Words of 95_test_vectors.md and bytes of R73 decode to what they stand for. -/
def Obligations.VectorWordsDecode : Prop :=
  decodeRequest 0x0000#15 = .reqInitialize ∧ decodeRequest 0x0281#15 = .reqSendByte 0x28#8 .command
  ∧ decodeRequest 0x1411#15 = .reqSendByte 0x41#8 .data ∧ decodeRequest 0x7FF2#15 = .reqClear
  ∧ decodeRequest 0x2004#15 = .reqSetEntryMode true false ∧ decodeRequest 0x4005#15 = .reqSetDisplay true false false
  ∧ decodeRequest 0x2006#15 = .reqShift true false ∧ decodeRequest 0x3007#15 = .reqSetFunction false true true
  ∧ decodeRequest 0x0468#15 = .reqSetCgramAddress 70#8 ∧ decodeRequest 0x0C89#15 = .reqSetDdramAddress 200#8
  ∧ decodeRequest 0x041A#15 = .reqWriteChar 0x41#8 ∧ decodeRequest 0x000C#15 = .reserved12
  ∧ decodeBusByte 0b0_0010_1000#9 = some (.busFunction false true false 0#2)
  ∧ decodeBusByte 0b1_0100_0001#9 = some (.busData 0x41#8) ∧ decodeNibble 0b0_0011#5 = some .nibbleReset

/-- R88: the response words. -/
def Obligations.ResponseWords : Prop :=
  Response.ok.word = 0x00#8 ∧ (Response.configurationError .invalidLineFont).word = 0x05#8
  ∧ (Response.configurationError .invalidBusWidth).word = 0x09#8
  ∧ (∀ op : OpCode, (Response.protocolStateError op).word = (op.setWidth 8 <<< 4) ||| 2#8)
  ∧ (∀ op : OpCode, (Response.illegalRequest op).word = (op.setWidth 8 <<< 4) ||| 3#8)

/-- R21, R23: the encodings of `drv` and `cfg`; no driver state has the code 0b11. -/
def Obligations.RegisterEncodings : Prop :=
  DrvState.uninitialized.code = 0b00#2 ∧ DrvState.initializing.code = 0b01#2 ∧ DrvState.ready.code = 0b10#2
  ∧ (∀ d : DrvState, d.code ≠ 0b11#2)
  ∧ ∀ c : Cfg, c.code.getLsbD 0 = (c.lineCount == .two) ∧ c.code.getLsbD 1 = (c.font == .f5x10)
      ∧ c.code.extractLsb' 2 8 = c.displayColumns ∧ c.code.extractLsb' 10 8 = c.displayRows

/-- R76, R169: the mask invariant, for every command and every parameter value. -/
def Obligations.MaskInvariant : Prop :=
  (∀ (c : Command) (p : Byte), c.byte p &&& ~~~c.pmask = c.opc ∧ c.opc &&& c.pmask = 0#8)
  ∧ (∀ x y : Bool, entryModeByte x y &&& ~~~0x03#8 = 0x04#8 ∧ shiftByte x y &&& ~~~0x0C#8 = 0x10#8)
  ∧ (∀ x y z : Bool, displayByte x y z &&& ~~~0x07#8 = 0x08#8 ∧ functionByte x y z &&& ~~~0x1C#8 = 0x20#8)
  ∧ ∀ a : Byte, cgramByte a &&& ~~~0x3F#8 = 0x40#8 ∧ ddramByte a &&& ~~~0x7F#8 = 0x80#8

/-- R79, R80: a command request that is admitted sends a byte that decodes, with DL = 0, every don't-care bit 0 and no
illegal line/font pair; `send_byte` is the one raw request. -/
def Obligations.EncoderSendsWellFormedBytes : Prop :=
  ∀ (i : Instr) (s t : State) (es : List BusEvent) (rs : RegSel) (v : Byte),
    i.isRequest = true → (∀ b r, i ≠ .reqSendByte b r) → s.drv = .ready → exec i s = .next t →
    t.trace = s.trace ++ es → txs s.lv es = [record rs (v.extractLsb' 4 4), record rs (v.extractLsb' 0 4)] →
      ∃ j, decodeBusByte (busWord rs v) = some j ∧ j.wellFormed = true

/-! ## The reference receiver (general knowledge, log entry 10) -/

/-- R33, R200, R267: the engine reads neither the receiver nor the time, and it cannot detect a hazard: two machines that
differ only there make the same step. -/
def Obligations.EngineIgnoresReceiverAndTime : Prop :=
  ∀ (s t : State) (r : Rx) (c d : Nat) (p : PinTimes) (l : Bool) (y : Sync), step s = .next t →
    ∃ (r' : Rx) (c' d' : Nat) (p' : PinTimes) (l' : Bool) (y' : Sync),
      step { s with rx := r, clock := c, draws := d, pins := p, losing := l, sync := y }
        = .next { t with rx := r', clock := c', draws := d', pins := p', losing := l', sync := y' }

/-- R209: from every mode, the four recovery nibbles latched while not busy leave the receiver in `M4H`; with two 0x3
nibbles a start in `M4L(5)` ends in `M8`. -/
def Obligations.RecoveryConverges : Prop :=
  (∀ (r : Rx) (t1 t2 t3 t4 : Nat) (d1 d2 d3 d4 : RxDraws),
    let r1 := r.latch t1 .command 0x3#4 d1
    let r2 := r1.latch t2 .command 0x3#4 d2
    let r3 := r2.latch t3 .command 0x3#4 d3
    let r4 := r3.latch t4 .command 0x2#4 d4
    r.busyUntil ≤ t1 → r1.busyUntil ≤ t2 → r2.busyUntil ≤ t3 → r3.busyUntil ≤ t4 → r4.mode = .m4h)
  ∧ ∀ (r : Rx) (t1 t2 t3 : Nat) (d1 d2 d3 : RxDraws),
    let r1 := r.latch t1 .command 0x3#4 d1
    let r2 := r1.latch t2 .command 0x3#4 d2
    let r3 := r2.latch t3 .command 0x2#4 d3
    r.mode = .m4l 0x5#4 → r.busyUntil ≤ t1 → r1.busyUntil ≤ t2 → r2.busyUntil ≤ t3 → r3.mode = .m8

/-- R209, R210 and vector V-RX-3 end to end: with timing that covers the receiver, `initialize` brings the receiver from any
state whose busy time ends within the power-on wait to 4-bit mode, configured, cleared and display off, whatever the events'
real durations and the levels of D3..D0 are. `covers` has conditions (a) and (b) of R210 too, with the figures of log entry
21, and no transaction is lost (R267 (c)). -/
def Obligations.InitializeBringsUpReceiver : Prop :=
  ∀ s : State, s.drv = .uninitialized → s.lv.en ≠ .high → s.tim.covers → s.losing = false →
    s.rx.busyUntil ≤ s.clock + s.tim.tPowerOn →
      ∃ t, exec .reqInitialize s = .next t ∧ t.rxReady = true
        ∧ t.rx.twoLines = (s.cfg.lineCount == .two) ∧ t.rx.font5x10 = (s.cfg.font == .f5x10)
        ∧ t.rx.displayOn = false ∧ t.rx.cursorOn = false ∧ t.rx.blinkOn = false
        ∧ (∀ a, t.rx.ddram.read a = 0x20#8) ∧ t.rx.ac = 0#7 ∧ t.rx.space = .ddram
        ∧ t.rx.increment = true ∧ t.rx.shiftOnWrite = false

/-- R210: a byte transfer to a ready receiver is received as exactly one execution of `(rs, v)`, and the receiver is ready
again, unless the byte is a FUNCTION byte with DL = 1, which leaves it in 8-bit mode (R206, R267 (b)). `covers` is conditions
(a), (b) and (c) of R210, (a) and (b) with the figures of log entry 21. The command byte 0x00 leaves any state (R80, U11; log
entry 12), so nothing is said of the receiver's readiness after it. -/
def Obligations.ByteIsReceivedOnce : Prop :=
  ∀ (s : State) (rs : RegSel) (v : Byte), s.rxReady = true → s.tim.covers →
    let t := transferred s rs v
    (∃ (now : Nat) (d : RxDraws), s.clock ≤ now ∧ t.rx = s.rx.execute now rs v d)
    ∧ ((rs = .command ∧ v.extractLsb' 4 4 = 0x3#4) → t.rx.mode = .m8)
    ∧ (¬(rs = .command ∧ v.extractLsb' 4 4 = 0x3#4) → ¬(rs = .command ∧ v = 0x00#8) → t.rxReady = true)
    ∧ (rs = .command ∧ v = 0x00#8 → ∃ d : RxDraws, t.rx = Rx.ofDraw d.anyRx)

/-- R73, R80, R206 (U11; log entries 12, 18): what the reference receiver makes of a command byte with a nonzero don't-care
bit is any value: it does not depend on the receiver's state before, but for the mode, which only FUNCTION changes. What R206
and R212 give every execution stays: DL, N and F of a FUNCTION byte, the mode kept by the others, and the busy time. What it
makes of 0x00 depends on nothing. -/
def Obligations.DontCareBitsGiveAnyResponse : Prop :=
  (∀ (r r' : Rx) (now : Nat) (d : RxDraws) (b : Byte),
    (b = 0x03#8 ∨ (b.extractLsb' 4 4 = 0x1#4 ∨ b.extractLsb' 5 3 = 0b001#3) ∧ b.extractLsb' 0 2 ≠ 0#2) →
      r.execute now .command b d
        = { r'.execute now .command b d with
            mode := if b.extractLsb' 5 3 = 0b001#3 then (if b.getLsbD 4 then .m8 else .m4h) else r.mode }
      ∧ (b.extractLsb' 5 3 = 0b001#3 → (r.execute now .command b d).twoLines = b.getLsbD 3
          ∧ (r.execute now .command b d).font5x10 = b.getLsbD 2)
      ∧ (r.execute now .command b d).busyUntil = now + (if b = 0x03#8 then 1520000 else 37000))
  ∧ ∀ (r r' : Rx) (now now' : Nat) (d : RxDraws), r.execute now .command 0x00#8 d = r'.execute now' .command 0x00#8 d

/-- R211: the effects of the commands at a ready receiver, and what each leaves unchanged. The model's choices in it: that a
command leaves unchanged what R211 does not list for it, and that a display shift is one place (log entry 16); that a cursor
move is AC ± 1, which at an end of the space is any address of it (log entries 15, 25); the figures in `covers` (log entry
21). -/
def Obligations.CommandsReachReceiver : Prop :=
  ∀ (s : State) (x y z : Bool) (a : Byte), s.drv = .ready → s.rxReady = true → s.tim.covers →
    (∃ t, exec .reqClear s = .next t
      ∧ t.rx = { s.rx with ddram := [], ac := 0#7, space := .ddram, increment := true, busyUntil := t.rx.busyUntil })
    ∧ (∃ t, exec .reqReturnHome s = .next t
      ∧ t.rx = { s.rx with ac := 0#7, space := .ddram, displayShift := 0, busyUntil := t.rx.busyUntil })
    ∧ (∃ t, exec (.reqSetEntryMode x y) s = .next t
      ∧ t.rx = { s.rx with increment := x, shiftOnWrite := y, busyUntil := t.rx.busyUntil })
    ∧ (∃ t, exec (.reqSetDisplay x y z) s = .next t
      ∧ t.rx = { s.rx with displayOn := x, cursorOn := y, blinkOn := z, busyUntil := t.rx.busyUntil })
    ∧ (∃ t, exec (.reqShift true y) s = .next t
      ∧ t.rx = { s.rx with displayShift := s.rx.displayShift + (if y then 1 else -1), busyUntil := t.rx.busyUntil })
    ∧ (∃ t, exec (.reqShift false y) s = .next t
      ∧ t.rx = { s.rx with ac := t.rx.ac, busyUntil := t.rx.busyUntil }
      ∧ (y = true → s.rx.ac < s.rx.space.last → t.rx.ac = s.rx.ac + 1#7)
      ∧ (y = false → 0#7 < s.rx.ac → t.rx.ac = s.rx.ac - 1#7)
      ∧ ((if y then s.rx.space.last ≤ s.rx.ac else s.rx.ac = 0#7) → t.rx.ac ≤ s.rx.space.last))
    ∧ (¬(x = true ∧ y = true) → ∃ t, exec (.reqSetFunction false x y) s = .next t
      ∧ t.rx = { s.rx with twoLines := x, font5x10 := y, busyUntil := t.rx.busyUntil })
    ∧ (∃ t, exec (.reqSetCgramAddress a) s = .next t
      ∧ t.rx = { s.rx with ac := (a &&& 0x3F#8).setWidth 7, space := .cgram, busyUntil := t.rx.busyUntil })
    ∧ (∃ t, exec (.reqSetDdramAddress a) s = .next t
      ∧ t.rx = { s.rx with ac := (a &&& 0x7F#8).setWidth 7, space := .ddram, busyUntil := t.rx.busyUntil })

/-- R211: `write_char` at a ready receiver stores its byte at AC in the space last addressed (at the 6-bit address of it in
CGRAM, R51; log entry 15), moves AC by one inside the space, and changes no other byte of either memory. At an end of the
space AC becomes some address of it (log entry 15), and with S = 1 the display shifts by one, either way (log entry 16).
Every other part of the receiver but its busy time stays (log entry 16 for those that R211 does not list).
`covers` has the figures of log entry 21. -/
def Obligations.WriteCharStoresOneByte : Prop :=
  ∀ (s : State) (b : Byte), s.drv = .ready → s.rxReady = true → s.tim.covers → s.rx.memWf = true →
    ∃ t, exec (.reqWriteChar b) s = .next t ∧ t.rxReady = true ∧ t.rx.space = s.rx.space
      ∧ t.rx = { s.rx with ddram := t.rx.ddram, cgram := t.rx.cgram, ac := t.rx.ac, displayShift := t.rx.displayShift,
                           busyUntil := t.rx.busyUntil }
      ∧ (s.rx.space = .ddram → t.rx.cgram = s.rx.cgram
          ∧ ∀ a, t.rx.ddram.read a = if a = s.rx.ac.toNat then b else s.rx.ddram.read a)
      ∧ (s.rx.space = .cgram → t.rx.ddram = s.rx.ddram
          ∧ ∀ a, t.rx.cgram.read a = if a = (s.rx.ac &&& 63#7).toNat then b else s.rx.cgram.read a)
      ∧ (s.rx.increment = true → s.rx.ac < s.rx.space.last → t.rx.ac = s.rx.ac + 1#7)
      ∧ (s.rx.increment = false → 0#7 < s.rx.ac → t.rx.ac = s.rx.ac - 1#7)
      ∧ ((if s.rx.increment then s.rx.space.last ≤ s.rx.ac else s.rx.ac = 0#7) → t.rx.ac ≤ s.rx.space.last)
      ∧ (s.rx.shiftOnWrite = false → t.rx.displayShift = s.rx.displayShift)
      ∧ (s.rx.shiftOnWrite = true →
          t.rx.displayShift = s.rx.displayShift + 1 ∨ t.rx.displayShift = s.rx.displayShift - 1)

/-- R174: two `clear` requests leave the receiver as one does: every DDRAM byte 0x20, the address counter 0.
Reception rests on `covers`, with the figures of log entry 21. -/
def Obligations.ClearIsIdempotentAtReceiver : Prop :=
  ∀ s : State, s.drv = .ready → s.rxReady = true → s.tim.covers →
    ∃ t u, exec .reqClear s = .next t ∧ exec .reqClear t = .next u
      ∧ (∀ a, t.rx.ddram.read a = 0x20#8) ∧ t.rx.ac = 0#7 ∧ u.rx = { t.rx with busyUntil := u.rx.busyUntil }
end

