-- ==== Sys2Proof/Laws/Memory.lean ====
section
/-! SUPPORT. The laws of the receiver's memories: a read after a write, and that every memory operation keeps the canonical
form (R211; log entry 17). -/

namespace Sys2Proof

/-- Below the first listed address a canonical memory reads as unlisted. -/
theorem Mem.read_below {limit lo : Nat} {m : Mem} (h : Mem.wfFrom limit lo m = true) {a : Nat} (ha : a < lo) :
    m.read a = Mem.unlisted := by
  induction m generalizing lo with
  | nil => rfl
  | cons c m ih =>
    obtain ⟨x, b⟩ := c
    simp only [Mem.wfFrom, Bool.and_eq_true, decide_eq_true_eq] at h
    have hx : x ≠ a := by omega
    simp only [Mem.read, hx, if_false]
    exact ih h.2 (by omega)

/-- A lower bound may be lowered. -/
theorem Mem.wfFrom_mono {limit lo lo' : Nat} {m : Mem} (h : Mem.wfFrom limit lo m = true) (hl : lo' ≤ lo) :
    Mem.wfFrom limit lo' m = true := by
  cases m with
  | nil => rfl
  | cons c m =>
    simp only [Mem.wfFrom, Bool.and_eq_true, decide_eq_true_eq] at h ⊢
    exact ⟨⟨⟨by omega, h.1.1.2⟩, h.1.2⟩, h.2⟩

/-- A write keeps the canonical form. -/
theorem Mem.wfFrom_write {limit lo : Nat} {m : Mem} {a : Nat} {b : Byte} (h : Mem.wfFrom limit lo m = true)
    (hlo : lo ≤ a) (hlim : a < limit) : Mem.wfFrom limit lo (m.write a b) = true := by
  induction m generalizing lo with
  | nil =>
    simp only [Mem.write]
    split <;> simp_all [Mem.wfFrom]
  | cons c m ih =>
    obtain ⟨x, v⟩ := c
    have h' := h
    simp only [Mem.wfFrom, Bool.and_eq_true, decide_eq_true_eq, Bool.not_eq_true', beq_eq_false_iff_ne] at h'
    obtain ⟨⟨⟨hx, hxl⟩, hv⟩, hm⟩ := h'
    simp only [Mem.write]
    split
    · split
      · exact h
      · simp only [Mem.wfFrom, Bool.and_eq_true, decide_eq_true_eq, Bool.not_eq_true', beq_eq_false_iff_ne]
        exact ⟨⟨⟨hlo, hlim⟩, by assumption⟩, ⟨⟨by omega, hxl⟩, hv⟩, hm⟩
    · split
      · split
        · exact Mem.wfFrom_mono hm (by omega)
        · subst a
          simp only [Mem.wfFrom, Bool.and_eq_true, decide_eq_true_eq, Bool.not_eq_true', beq_eq_false_iff_ne]
          exact ⟨⟨⟨hx, hlim⟩, by assumption⟩, hm⟩
      · simp only [Mem.wfFrom, Bool.and_eq_true, decide_eq_true_eq, Bool.not_eq_true', beq_eq_false_iff_ne]
        exact ⟨⟨⟨hx, hxl⟩, hv⟩, ih hm (by omega)⟩

/-- A write inside the space keeps the canonical form. -/
theorem Mem.wf_write {limit : Nat} {m : Mem} {a : Nat} (b : Byte) (h : m.wf limit = true) (ha : a < limit) :
    (m.write a b).wf limit = true :=
  Mem.wfFrom_write h (Nat.zero_le a) ha

/-- A byte read after a write: the written byte at its address, every other byte as before. -/
theorem Mem.read_write {limit lo : Nat} {m : Mem} (h : Mem.wfFrom limit lo m = true) (a a' : Nat) (b : Byte) :
    (m.write a b).read a' = if a' = a then b else m.read a' := by
  induction m generalizing lo with
  | nil =>
    by_cases hb : b = Mem.unlisted
    · subst hb; simp [Mem.write, Mem.read]
    · by_cases ha : a = a'
      · simp [Mem.write, Mem.read, hb, ha]
      · have ha' : ¬a' = a := fun hh => ha hh.symm
        simp [Mem.write, Mem.read, hb, ha, ha']
  | cons c m ih =>
    obtain ⟨x, v⟩ := c
    have h' := h
    simp only [Mem.wfFrom, Bool.and_eq_true, decide_eq_true_eq] at h'
    obtain ⟨_, hm⟩ := h'
    have hbelow : ∀ y, y ≤ x → Mem.read m y = Mem.unlisted := fun y hy => Mem.read_below hm (Nat.lt_succ_of_le hy)
    simp only [Mem.write]
    split
    · have hax : ¬a = x := by omega
      split
      · rename_i hb
        by_cases he : a' = a
        · subst he
          have : x ≠ a' := by omega
          simp [Mem.read, this, hb, hbelow a' (by omega)]
        · simp [he]
      · by_cases he : a' = a
        · simp [Mem.read, he]
        · have he' : ¬a = a' := fun hh => he hh.symm
          simp [Mem.read, he, he']
    · split
      · rename_i hax
        subst hax
        split
        · rename_i hb
          by_cases he : a' = a
          · subst he; simp [hb, hbelow a' (Nat.le_refl a')]
          · have he' : ¬a = a' := fun hh => he hh.symm
            simp [Mem.read, he, he']
        · by_cases he : a' = a
          · simp [Mem.read, he]
          · have he' : ¬a = a' := fun hh => he hh.symm
            simp [Mem.read, he, he']
      · rename_i hlt hne
        by_cases he : x = a'
        · have : ¬a' = a := by omega
          simp [Mem.read, he, this]
        · simp [Mem.read, he, ih hm]

/-- The memory of a list of cells is canonical. -/
theorem Mem.wf_canon (limit : Nat) (m : Mem) : (Mem.canon limit m).wf limit = true := by
  induction m with
  | nil => rfl
  | cons c m ih =>
    obtain ⟨a, b⟩ := c
    simp only [Mem.canon]
    split
    · exact Mem.wf_write b ih (by assumption)
    · exact ih

end Sys2Proof
end

