-- ==== Sys2Proof/Laws/Receiver.lean ====
section
/-! SUPPORT. What the receiver's operations keep: its memories stay in canonical form whatever it latches. -/

namespace Sys2Proof

/-- Any drawn receiver state has canonical memories. -/
@[simp] theorem Rx.memWf_ofDraw (r : Rx) : (Rx.ofDraw r).memWf = true := by
  simp [Rx.memWf, Rx.ofDraw, Mem.wf_canon]

/-- An address of a space lies in it. -/
theorem Space.clip_lt (sp : Space) (a : BitVec 7) : (sp.clip a).toNat < sp.size := by
  cases sp
  · have := (Space.ddram.clip a).isLt; simpa [Space.size] using this
  · have h : (a &&& 63#7).toNat ≤ 63 := by
      rw [BitVec.toNat_and]; exact Nat.and_le_right
    simp only [Space.clip, Space.last, Space.size]; omega

theorem Rx.memWf_stepAc (up : Bool) (d : RxDraws) (r : Rx) : (r.stepAc up d).memWf = r.memWf := by
  simp only [Rx.stepAc]; split <;> rfl

theorem Rx.memWf_shiftDisplay (right : Bool) (r : Rx) : (r.shiftDisplay right).memWf = r.memWf := rfl

theorem Rx.memWf_store {r : Rx} (b : Byte) (h : r.memWf = true) : (r.store b).memWf = true := by
  simp only [Rx.memWf, Bool.and_eq_true] at h
  simp only [Rx.store]
  split
  · rename_i hs
    simp only [Rx.memWf, Bool.and_eq_true]
    exact ⟨Mem.wf_write b h.1 (hs ▸ Space.clip_lt r.space r.ac), h.2⟩
  · rename_i hs
    simp only [Rx.memWf, Bool.and_eq_true]
    exact ⟨h.1, Mem.wf_write b h.2 (hs ▸ Space.clip_lt r.space r.ac)⟩

theorem Rx.memWf_dataWrite {r : Rx} (b : Byte) (d : RxDraws) (h : r.memWf = true) :
    (r.dataWrite b d).memWf = true := by
  simp only [Rx.dataWrite]
  split
  · rw [Rx.memWf_shiftDisplay, Rx.memWf_stepAc]; exact Rx.memWf_store b h
  · rw [Rx.memWf_stepAc]; exact Rx.memWf_store b h

theorem Rx.memWf_anyResponse (d : RxDraws) (r : Rx) : (r.anyResponse d).memWf = true := Rx.memWf_ofDraw d.anyRx

theorem Rx.memWf_effect {r : Rx} (i : Instr) (d : RxDraws) (h : r.memWf = true) : (r.effect i d).memWf = true := by
  cases i with
  | busClear =>
    simp only [Rx.memWf, Bool.and_eq_true] at h
    simp only [Rx.effect, Rx.memWf, Bool.and_eq_true]
    exact ⟨rfl, h.2⟩
  | busData byte => exact Rx.memWf_dataWrite byte d h
  | busReturnHome dc =>
    simp only [Rx.effect]
    split
    · exact h
    · exact Rx.memWf_anyResponse d r
  | busShift display right dc =>
    simp only [Rx.effect]
    split
    · cases display
      · simpa [Rx.memWf_stepAc] using h
      · exact h
    · exact Rx.memWf_anyResponse d r
  | busFunction eightBit twoLines font5x10 dc =>
    by_cases hdc : dc = 0#2
    · simp only [Rx.effect, hdc, if_true]; exact h
    · simp only [Rx.effect, hdc, if_false]; exact Rx.memWf_anyResponse d r
  | _ => exact h

theorem Rx.memWf_execute {r : Rx} (now : Nat) (rs : RegSel) (b : Byte) (d : RxDraws) (h : r.memWf = true) :
    (r.execute now rs b d).memWf = true := by
  simp only [Rx.execute]
  split
  · exact Rx.memWf_effect _ d h
  · exact Rx.memWf_ofDraw d.anyRx

/-- A latch keeps the memories canonical. -/
theorem Rx.memWf_latch {r : Rx} (now : Nat) (rs : RegSel) (n : Nibble) (d : RxDraws) (h : r.memWf = true) :
    (r.latch now rs n d).memWf = true := by
  simp only [Rx.latch]
  split
  · exact Rx.memWf_ofDraw d.anyRx
  · split
    · exact Rx.memWf_execute now rs _ d h
    · exact h
    · exact Rx.memWf_execute now rs _ d h

theorem Rx.memWf_misread (now : Nat) (d : RxDraws) : (Rx.misread now d).memWf = true := Rx.memWf_ofDraw d.anyRx

/-- What a latch of a desynchronized receiver can do: hold a high nibble, misread a byte, or draw while busy. -/
theorem Rx.latchDesynchronized_cases (now : Nat) (n : Nibble) (d : RxDraws) (r : Rx) :
    (r.busyUntil ≤ now ∧ r.mode = .m4h ∧ r.latchDesynchronized now n d = { r with mode := .m4l n })
    ∨ (r.busyUntil ≤ now ∧ r.mode ≠ .m4h ∧ r.latchDesynchronized now n d = Rx.misread now d)
    ∨ (now < r.busyUntil ∧ r.latchDesynchronized now n d = Rx.ofDraw d.anyRx) := by
  unfold Rx.latchDesynchronized
  split
  · exact .inr (.inr ⟨by assumption, rfl⟩)
  · cases hm : r.mode
    · exact .inr (.inl ⟨by omega, by simp, rfl⟩)
    · exact .inl ⟨by omega, rfl, rfl⟩
    · exact .inr (.inl ⟨by omega, by simp, rfl⟩)

/-- Such a latch keeps the memories canonical. -/
theorem Rx.memWf_latchDesynchronized {r : Rx} (now : Nat) (n : Nibble) (d : RxDraws) (h : r.memWf = true) :
    (r.latchDesynchronized now n d).memWf = true := by
  rcases Rx.latchDesynchronized_cases now n d r with ⟨-, -, hl⟩ | ⟨-, -, hl⟩ | ⟨-, hl⟩ <;> rw [hl]
  · exact h
  · exact Rx.memWf_misread now d
  · exact Rx.memWf_ofDraw d.anyRx

/-- Unless it holds a high nibble, what such a latch leaves does not depend on the nibble. -/
theorem Rx.latchDesynchronized_of_mode {now : Nat} {d : RxDraws} {r : Rx} (h : r.mode ≠ .m4h) (n n' : Nibble) :
    r.latchDesynchronized now n d = r.latchDesynchronized now n' d := by
  unfold Rx.latchDesynchronized
  cases hm : r.mode <;> simp_all

/-- Such a latch in `M4H` that is not busy holds the nibble. -/
theorem Rx.latchDesynchronized_of_m4h {now : Nat} {n : Nibble} {d : RxDraws} {r : Rx} (h : r.mode = .m4h)
    (hb : r.busyUntil ≤ now) : r.latchDesynchronized now n d = { r with mode := .m4l n } := by
  simp [Rx.latchDesynchronized, h, Nat.not_lt.mpr hb]

/-! ## The interface mode -/

/-- The mode after executing a command byte: only FUNCTION changes it (R206). -/
def RxMode.afterCommand (m : RxMode) (b : Byte) : RxMode :=
  if b.extractLsb' 5 3 = 1#3 then (if b.getLsbD 4 then .m8 else .m4h) else m

/-- The instruction is a FUNCTION bus byte. -/
def Instr.isBusFunction : Option Instr → Bool
  | some (.busFunction _ _ _ _) => true
  | _ => false

/-- A FUNCTION byte is one with `b[7:5] = 0b001` (R206). -/
theorem decodeBusByte_command (b : Byte) :
    (if b.extractLsb' 5 3 = 1#3 then
      decide (decodeBusByte (busWord .command b)
        = some (.busFunction (b.getLsbD 4) (b.getLsbD 3) (b.getLsbD 2) (b.extractLsb' 0 2)))
    else !Instr.isBusFunction (decodeBusByte (busWord .command b))) = true := by
  revert b; decide +kernel

theorem Rx.mode_stepAc (up : Bool) (d : RxDraws) (r : Rx) : (r.stepAc up d).mode = r.mode := by
  simp only [Rx.stepAc]; split <;> rfl

theorem Rx.mode_dataWrite (b : Byte) (d : RxDraws) (r : Rx) : (r.dataWrite b d).mode = r.mode := by
  have hs : (r.store b).mode = r.mode := by simp only [Rx.store]; split <;> rfl
  simp only [Rx.dataWrite]
  split
  · exact (Rx.mode_stepAc _ _ _).trans hs
  · exact (Rx.mode_stepAc _ _ _).trans hs

/-- Only FUNCTION changes the mode (R206). -/
theorem Rx.mode_effect (i : Instr) (d : RxDraws) (r : Rx) (h : Instr.isBusFunction (some i) = false) :
    (r.effect i d).mode = r.mode := by
  cases i with
  | busFunction _ _ _ _ => exact absurd h (by simp [Instr.isBusFunction])
  | busData byte => exact Rx.mode_dataWrite byte d r
  | busReturnHome dc => simp only [Rx.effect]; split <;> rfl
  | busShift display right dc =>
    simp only [Rx.effect]
    split
    · cases display
      · exact Rx.mode_stepAc right d r
      · rfl
    · rfl
  | _ => rfl

/-- Every bus byte but the command byte 0x00 is an instruction (R74). -/
theorem decodeBusByte_isSome {rs : RegSel} {b : Byte} (h : ¬(rs = .command ∧ b = 0#8)) :
    ∃ i, decodeBusByte (busWord rs b) = some i := by
  have hall : ∀ b : Byte, (decodeBusByte (busWord .data b)).isSome = true
      ∧ (b ≠ 0#8 → (decodeBusByte (busWord .command b)).isSome = true) := by decide +kernel
  cases rs with
  | data => exact Option.isSome_iff_exists.mp (hall b).1
  | command => exact Option.isSome_iff_exists.mp ((hall b).2 fun hb => h ⟨rfl, hb⟩)

theorem Rx.mode_execute_command (now : Nat) {b : Byte} (hb0 : b ≠ 0#8) (d : RxDraws) (r : Rx) :
    (r.execute now .command b d).mode = r.mode.afterCommand b := by
  have h := decodeBusByte_command b
  obtain ⟨i, hi⟩ := decodeBusByte_isSome (rs := .command) (b := b) fun hc => hb0 hc.2
  simp only [Rx.execute, RxMode.afterCommand, hi] at h ⊢
  by_cases hb : b.extractLsb' 5 3 = 1#3
  · simp only [hb, if_true, decide_eq_true_eq, Option.some.injEq] at h ⊢
    rw [h]; rfl
  · simp only [hb, if_false, Bool.not_eq_true'] at h ⊢
    exact Rx.mode_effect i d r h

theorem Rx.mode_execute_data (now : Nat) (b : Byte) (d : RxDraws) (r : Rx) :
    (r.execute now .data b d).mode = r.mode := by
  have h : ∀ b : Byte, decodeBusByte (busWord .data b) = some (.busData b) := by decide +kernel
  simp only [Rx.execute, h]
  exact Rx.mode_dataWrite b d r

theorem Rx.busyUntil_execute (now : Nat) {rs : RegSel} {b : Byte} (h : ¬(rs = .command ∧ b = 0#8)) (d : RxDraws) (r : Rx) :
    (r.execute now rs b d).busyUntil = now + Rx.execTime rs b := by
  obtain ⟨i, hi⟩ := decodeBusByte_isSome h
  simp only [Rx.execute, hi]

/-- The command byte 0x00 leaves any state (U11). -/
@[simp] theorem Rx.execute_zero (now : Nat) (d : RxDraws) (r : Rx) :
    r.execute now .command 0#8 d = Rx.ofDraw d.anyRx := rfl

/-- A latch of a receiver that is not busy, by its mode (R203-R205). -/
theorem Rx.latch_of_not_busy {now : Nat} {r : Rx} (rs : RegSel) (n : Nibble) (d : RxDraws) (h : r.busyUntil ≤ now) :
    r.latch now rs n d =
      match r.mode with
      | .m8 => r.execute now rs (n ++ d.low) d
      | .m4h => { r with mode := .m4l n }
      | .m4l k => { r with mode := .m4h }.execute now rs (k ++ n) d := by
  have : ¬now < r.busyUntil := by omega
  exact (if_neg this).trans (by cases r.mode <;> rfl)

end Sys2Proof
end

