-- ==== Sys2Proof/Laws/State.lean ====
section
/-! SUPPORT. One lemma per field per update: what each shared operation leaves in every field of the state, so that no
later proof unfolds a record update. -/

namespace Sys2Proof.Machine

section
variable (s : State) (e : BusEvent) (d : DrvState) (r : Option Response) (k : Nat)

@[simp] theorem emit_drv : (emit s e).drv = s.drv := rfl
@[simp] theorem emit_cfg : (emit s e).cfg = s.cfg := rfl
@[simp] theorem emit_tim : (emit s e).tim = s.tim := rfl
@[simp] theorem emit_phase : (emit s e).phase = s.phase := rfl
@[simp] theorem emit_inbox : (emit s e).inbox = s.inbox := rfl
@[simp] theorem emit_grain : (emit s e).grain = s.grain := rfl
@[simp] theorem emit_responses : (emit s e).responses = s.responses := rfl
@[simp] theorem emit_trace : (emit s e).trace = s.trace ++ [e] := rfl
@[simp] theorem emit_lv : (emit s e).lv = s.lv.after e := rfl
@[simp] theorem emit_draws : (emit s e).draws = s.draws + 1 := rfl
@[simp] theorem emit_clock : (emit s e).clock = s.endOf e := rfl
@[simp] theorem emit_rx : (emit s e).rx = s.rxAfter e := rfl
@[simp] theorem emit_pins : (emit s e).pins = s.pins.after (s.endOf e) e := rfl
@[simp] theorem emit_sync : (emit s e).sync = s.syncAfter e := rfl
@[simp] theorem emit_losing : (emit s e).losing = (s.losing && !s.latchesAt e) := rfl

@[simp] theorem setDrv_drv : (setDrv s d).drv = d := rfl
@[simp] theorem setDrv_cfg : (setDrv s d).cfg = s.cfg := rfl
@[simp] theorem setDrv_tim : (setDrv s d).tim = s.tim := rfl
@[simp] theorem setDrv_phase : (setDrv s d).phase = s.phase := rfl
@[simp] theorem setDrv_inbox : (setDrv s d).inbox = s.inbox := rfl
@[simp] theorem setDrv_grain : (setDrv s d).grain = s.grain := rfl
@[simp] theorem setDrv_responses : (setDrv s d).responses = s.responses := rfl
@[simp] theorem setDrv_trace : (setDrv s d).trace = s.trace := rfl
@[simp] theorem setDrv_lv : (setDrv s d).lv = s.lv := rfl
@[simp] theorem setDrv_draws : (setDrv s d).draws = s.draws := rfl
@[simp] theorem setDrv_clock : (setDrv s d).clock = s.clock := rfl
@[simp] theorem setDrv_rx : (setDrv s d).rx = s.rx := rfl
@[simp] theorem setDrv_pins : (setDrv s d).pins = s.pins := rfl
@[simp] theorem setDrv_sync : (setDrv s d).sync = s.sync := rfl
@[simp] theorem setDrv_losing : (setDrv s d).losing = s.losing := rfl

@[simp] theorem respond_drv : (respond s r).drv = s.drv := by cases r <;> rfl
@[simp] theorem respond_cfg : (respond s r).cfg = s.cfg := by cases r <;> rfl
@[simp] theorem respond_tim : (respond s r).tim = s.tim := by cases r <;> rfl
@[simp] theorem respond_phase : (respond s r).phase = s.phase := by cases r <;> rfl
@[simp] theorem respond_inbox : (respond s r).inbox = s.inbox := by cases r <;> rfl
@[simp] theorem respond_grain : (respond s r).grain = s.grain := by cases r <;> rfl
@[simp] theorem respond_responses : (respond s r).responses = s.responses ++ r.toList := by
  cases r <;> simp [respond]
@[simp] theorem respond_trace : (respond s r).trace = s.trace := by cases r <;> rfl
@[simp] theorem respond_lv : (respond s r).lv = s.lv := by cases r <;> rfl
@[simp] theorem respond_draws : (respond s r).draws = s.draws := by cases r <;> rfl
@[simp] theorem respond_clock : (respond s r).clock = s.clock := by cases r <;> rfl
@[simp] theorem respond_rx : (respond s r).rx = s.rx := by cases r <;> rfl
@[simp] theorem respond_pins : (respond s r).pins = s.pins := by cases r <;> rfl
@[simp] theorem respond_sync : (respond s r).sync = s.sync := by cases r <;> rfl
@[simp] theorem respond_losing : (respond s r).losing = s.losing := by cases r <;> rfl

@[simp] theorem strayPulse_drv : (strayPulse s).drv = s.drv := rfl
@[simp] theorem strayPulse_cfg : (strayPulse s).cfg = s.cfg := rfl
@[simp] theorem strayPulse_tim : (strayPulse s).tim = s.tim := rfl
@[simp] theorem strayPulse_phase : (strayPulse s).phase = s.phase := rfl
@[simp] theorem strayPulse_inbox : (strayPulse s).inbox = s.inbox := rfl
@[simp] theorem strayPulse_grain : (strayPulse s).grain = s.grain := rfl
@[simp] theorem strayPulse_responses : (strayPulse s).responses = s.responses := rfl
@[simp] theorem strayPulse_trace : (strayPulse s).trace = s.trace := rfl
@[simp] theorem strayPulse_lv : (strayPulse s).lv = s.lv := rfl
@[simp] theorem strayPulse_pins : (strayPulse s).pins = s.pins := rfl
@[simp] theorem strayPulse_sync : (strayPulse s).sync = .lost := rfl
@[simp] theorem strayPulse_losing : (strayPulse s).losing = s.losing := rfl
@[simp] theorem strayPulse_draws : (strayPulse s).draws = s.draws + 1 := rfl

@[simp] theorem loseNext_drv : (loseNext s).drv = s.drv := rfl
@[simp] theorem loseNext_cfg : (loseNext s).cfg = s.cfg := rfl
@[simp] theorem loseNext_tim : (loseNext s).tim = s.tim := rfl
@[simp] theorem loseNext_phase : (loseNext s).phase = s.phase := rfl
@[simp] theorem loseNext_inbox : (loseNext s).inbox = s.inbox := rfl
@[simp] theorem loseNext_grain : (loseNext s).grain = s.grain := rfl
@[simp] theorem loseNext_responses : (loseNext s).responses = s.responses := rfl
@[simp] theorem loseNext_trace : (loseNext s).trace = s.trace := rfl
@[simp] theorem loseNext_lv : (loseNext s).lv = s.lv := rfl
@[simp] theorem loseNext_draws : (loseNext s).draws = s.draws := rfl
@[simp] theorem loseNext_clock : (loseNext s).clock = s.clock := rfl
@[simp] theorem loseNext_rx : (loseNext s).rx = s.rx := rfl
@[simp] theorem loseNext_pins : (loseNext s).pins = s.pins := rfl
@[simp] theorem loseNext_sync : (loseNext s).sync = s.sync := rfl
@[simp] theorem loseNext_losing : (loseNext s).losing = true := rfl

variable (init : Bool) (es : List BusEvent)

@[simp] theorem begun_drv : (begun init es s).drv = s.drv := rfl
@[simp] theorem begun_cfg : (begun init es s).cfg = s.cfg := rfl
@[simp] theorem begun_tim : (begun init es s).tim = s.tim := rfl
@[simp] theorem begun_phase : (begun init es s).phase = s.phase := rfl
@[simp] theorem begun_inbox : (begun init es s).inbox = s.inbox := rfl
@[simp] theorem begun_grain : (begun init es s).grain = s.grain := rfl
@[simp] theorem begun_responses : (begun init es s).responses = s.responses := rfl
@[simp] theorem begun_trace : (begun init es s).trace = s.trace := rfl
@[simp] theorem begun_lv : (begun init es s).lv = s.lv := rfl
@[simp] theorem begun_draws : (begun init es s).draws = s.draws := rfl
@[simp] theorem begun_clock : (begun init es s).clock = s.clock := rfl
@[simp] theorem begun_rx : (begun init es s).rx = s.rx := rfl
@[simp] theorem begun_pins : (begun init es s).pins = s.pins := rfl
@[simp] theorem begun_losing : (begun init es s).losing = s.losing := rfl
@[simp] theorem begun_sync : (begun init es s).sync = s.sync.begin init s.lv es := rfl

end

/-- Of two writes of `drv` the last stands. -/
@[simp] theorem setDrv_setDrv (s : State) (d e : DrvState) : setDrv (setDrv s d) e = setDrv s e := rfl

/-! ## A list of events -/

@[simp] theorem emitAll_nil (s : State) : emitAll s [] = s := rfl

@[simp] theorem emitAll_cons (s : State) (e : BusEvent) (es : List BusEvent) :
    emitAll s (e :: es) = emitAll (emit s e) es := rfl

theorem emitAll_append (s : State) (es fs : List BusEvent) :
    emitAll s (es ++ fs) = emitAll (emitAll s es) fs := by
  simp [emitAll, List.foldl_append]

section
variable (s : State) (es : List BusEvent)

@[simp] theorem emitAll_drv : (emitAll s es).drv = s.drv := by
  induction es generalizing s with
  | nil => rfl
  | cons e es ih => simp [ih]

@[simp] theorem emitAll_cfg : (emitAll s es).cfg = s.cfg := by
  induction es generalizing s with
  | nil => rfl
  | cons e es ih => simp [ih]

@[simp] theorem emitAll_tim : (emitAll s es).tim = s.tim := by
  induction es generalizing s with
  | nil => rfl
  | cons e es ih => simp [ih]

@[simp] theorem emitAll_phase : (emitAll s es).phase = s.phase := by
  induction es generalizing s with
  | nil => rfl
  | cons e es ih => simp [ih]

@[simp] theorem emitAll_inbox : (emitAll s es).inbox = s.inbox := by
  induction es generalizing s with
  | nil => rfl
  | cons e es ih => simp [ih]

@[simp] theorem emitAll_grain : (emitAll s es).grain = s.grain := by
  induction es generalizing s with
  | nil => rfl
  | cons e es ih => simp [ih]

@[simp] theorem emitAll_responses : (emitAll s es).responses = s.responses := by
  induction es generalizing s with
  | nil => rfl
  | cons e es ih => simp [ih]

@[simp] theorem emitAll_trace : (emitAll s es).trace = s.trace ++ es := by
  induction es generalizing s with
  | nil => simp
  | cons e es ih => simp [ih]

@[simp] theorem emitAll_lv : (emitAll s es).lv = s.lv.afterAll es := by
  induction es generalizing s with
  | nil => rfl
  | cons e es ih => simp [ih, Levels.afterAll]

@[simp] theorem emitAll_draws : (emitAll s es).draws = s.draws + es.length := by
  induction es generalizing s with
  | nil => rfl
  | cons e es ih => simp [ih]; omega

end

/-! ## The driver state written at given positions -/

@[simp] theorem applyWrites_nil (k : Nat) (s : State) : applyWrites k s [] = s := rfl

@[simp] theorem applyWrites_cons (k : Nat) (s : State) (w : DrvWrite) (ws : List DrvWrite) :
    applyWrites k s (w :: ws) = applyWrites k (if w.1 = k then setDrv s w.2 else s) ws := rfl

/-- Writing `drv` is all that the due writes do. -/
theorem applyWrites_eq_setDrv (k : Nat) (s : State) (ws : List DrvWrite) :
    applyWrites k s ws = setDrv s (applyWrites k s ws).drv := by
  induction ws generalizing s with
  | nil => rfl
  | cons w ws ih =>
    rw [applyWrites_cons]
    split
    · rw [ih]; rfl
    · exact ih s

/-- `drv` is not read by `emit`. -/
theorem emit_setDrv (s : State) (d : DrvState) (e : BusEvent) : emit (setDrv s d) e = setDrv (emit s e) d := rfl

/-- `drv` is not read by `emitAll`. -/
theorem emitAll_setDrv (s : State) (d : DrvState) (es : List BusEvent) :
    emitAll (setDrv s d) es = setDrv (emitAll s es) d := by
  induction es generalizing s with
  | nil => rfl
  | cons e es ih => rw [emitAll_cons, emit_setDrv, ih, emitAll_cons]

/-- Running events with writes is emitting them and writing `drv`: nothing else is touched. -/
theorem runEvents_eq_setDrv (ws : List DrvWrite) (k : Nat) (s : State) (es : List BusEvent) :
    runEvents ws k s es = setDrv (emitAll s es) (runEvents ws k s es).drv := by
  induction es generalizing k s with
  | nil => rfl
  | cons e es ih =>
    have hall : emitAll (applyWrites (k + 1) (emit s e) ws) es
        = setDrv (emitAll (emit s e) es) (applyWrites (k + 1) (emit s e) ws).drv :=
      (congrArg (fun t => emitAll t es) (applyWrites_eq_setDrv (k + 1) (emit s e) ws)).trans (emitAll_setDrv _ _ _)
    have h := ih (k + 1) (applyWrites (k + 1) (emit s e) ws)
    rw [hall] at h
    exact h

/-- With no writes, running events is emitting them. -/
@[simp] theorem runEvents_nil_writes (k : Nat) (s : State) (es : List BusEvent) :
    runEvents [] k s es = emitAll s es := by
  induction es generalizing k s with
  | nil => rfl
  | cons e es ih => simp [runEvents, ih]

/-- Running two lists one after the other. -/
theorem runEvents_append (ws : List DrvWrite) (k : Nat) (s : State) (es fs : List BusEvent) :
    runEvents ws k s (es ++ fs) = runEvents ws (k + es.length) (runEvents ws k s es) fs := by
  induction es generalizing k s with
  | nil => rfl
  | cons e es ih =>
    simp only [List.cons_append, runEvents, ih, List.length_cons]
    congr 1
    omega

end Sys2Proof.Machine
end

