-- ==== Sys2Proof/Laws/Transfer.lean ====
section
/-! SUPPORT. What a nibble transaction and a byte transfer do to the levels, the receiver, the time and the observations
(R101, R106, R112, R202). -/

namespace Sys2Proof.Machine

/-! ## Lists of events -/

theorem Levels.afterAll_append (lv : Levels) (es fs : List BusEvent) :
    lv.afterAll (es ++ fs) = (lv.afterAll es).afterAll fs := by
  simp [Levels.afterAll, List.foldl_append]

theorem delaySum_append (es fs : List BusEvent) : delaySum (es ++ fs) = delaySum es + delaySum fs := by
  induction es with
  | nil => simp [delaySum]
  | cons e es ih => simp [delaySum, ih]; omega

theorem txs_append (lv : Levels) (es fs : List BusEvent) : txs lv (es ++ fs) = txs lv es ++ txs (lv.afterAll es) fs := by
  induction es generalizing lv with
  | nil => rfl
  | cons e es ih =>
    simp only [List.cons_append, txs, ih, Levels.afterAll, List.foldl_cons]
    split <;> simp

/-- The time passed is at least the delays emitted (R61). -/
theorem clock_add_delaySum_le (s : State) (es : List BusEvent) : s.clock + delaySum es ≤ (emitAll s es).clock := by
  induction es generalizing s with
  | nil => simp [delaySum]
  | cons e es ih =>
    have h := ih (emit s e)
    simp only [emit_clock, State.endOf] at h
    simp only [emitAll_cons, delaySum]
    omega

/-! ## One nibble transaction -/

/-- The levels that a nibble transaction leaves (R101). -/
def nibbleLevels (rs : RegSel) (n : Nibble) : Levels :=
  { rs := (lvl rs.bit).level, rw := .low, en := .low, d4 := (lvl (n.getLsbD 0)).level,
    d5 := (lvl (n.getLsbD 1)).level, d6 := (lvl (n.getLsbD 2)).level, d7 := (lvl (n.getLsbD 3)).level }

theorem afterAll_nibbleEvents (lv : Levels) (t : Tim) (rs : RegSel) (n : Nibble) :
    lv.afterAll (nibbleEvents t rs n) = nibbleLevels rs n := by
  unfold nibbleEvents
  split <;> rfl

/-- The record sampled from the levels of a nibble transaction is its register select and nibble. -/
theorem sample_nibbleLevels (rs : RegSel) (n : Nibble) (en : Level) :
    Levels.sample { nibbleLevels rs n with en := en } = record rs n := by
  revert n
  cases rs <;> cases en <;> decide

theorem txs_nibbleEvents (lv : Levels) (t : Tim) (rs : RegSel) (n : Nibble) :
    txs lv (nibbleEvents t rs n) = [record rs n] := by
  rw [← sample_nibbleLevels rs n .high]
  unfold nibbleEvents
  split <;> rfl

theorem txs_byteEvents (lv : Levels) (t : Tim) (rs : RegSel) (v : Byte) :
    txs lv (byteEvents t rs v) = [record rs (highNibble v), record rs (lowNibble v)] := by
  simp only [byteEvents, txs_append, txs_nibbleEvents]
  rfl

theorem afterAll_byteEvents (lv : Levels) (t : Tim) (rs : RegSel) (v : Byte) :
    lv.afterAll (byteEvents t rs v) = nibbleLevels rs (lowNibble v) := by
  simp only [byteEvents, Levels.afterAll_append, afterAll_nibbleEvents]
  rfl

/-- The byte view of one byte transfer's records is its register select and byte (R112). -/
theorem byteView_byteEvents (lv : Levels) (t : Tim) (rs : RegSel) (v : Byte) :
    byteView (txs lv (byteEvents t rs v)) = some [(rs, v)] := by
  have hv : ∀ v : Byte, (highNibble v ++ lowNibble v : BitVec 8) = v := by decide +kernel
  rw [txs_byteEvents]
  simp [byteView, record, hv]

/-! ## The hazards of R267 when a request begins -/

/-- A single nibble is no byte: its beginning changes nothing. -/
theorem begun_nibbleEvents (t : Tim) (rs : RegSel) (n : Nibble) (s : State) :
    begun false (nibbleEvents t rs n) s = s := by
  have h : s.sync.begin false s.lv (nibbleEvents t rs n) = s.sync := by simp [Sync.begin, txs_nibbleEvents]
  rw [begun, h]

/-- The beginning of a byte transfer (R267 (b)): FUNCTION with DL = 1 is the hazard, and after one every byte is a later one. -/
theorem sync_begin_byteEvents (y : Sync) (lv : Levels) (t : Tim) (rs : RegSel) (v : Byte) :
    y.begin false lv (byteEvents t rs v)
      = if y = .held then (if rs = .command ∧ highNibble v = 3#4 then .leaving else .held) else .lost := by
  cases y <;> simp [Sync.begin, txs_byteEvents, record]

/-! ## The receiver's view -/

/-- An event at which nothing is sampled leaves the receiver, a coming loss and the hazards alone. -/
theorem emit_of_not_latches {s : State} {e : BusEvent} (h : s.latchesAt e = false) :
    (emit s e).rx = s.rx ∧ (emit s e).losing = s.losing ∧ (emit s e).sync = s.sync := by
  simp [State.rxAfter, State.syncAfter, h]

/-- Nothing is sampled at an event that is not the lowering of EN. -/
theorem latchesAt_of_ne {s : State} {e : BusEvent} (h : e ≠ .setLine .en .low) : s.latchesAt e = false := by
  simp [State.latchesAt, Levels.fallsAt, h]

/-- Nothing is sampled while EN is not High. -/
theorem latchesAt_of_en {s : State} {e : BusEvent} (h : s.lv.en ≠ .high) : s.latchesAt e = false := by
  simp [State.latchesAt, Levels.fallsAt, h]

/-- Events among which EN is not lowered leave the receiver, a coming loss and the hazards alone. -/
theorem emitAll_of_quiet (s : State) (es : List BusEvent) (h : BusEvent.setLine .en .low ∉ es) :
    (emitAll s es).rx = s.rx ∧ (emitAll s es).losing = s.losing ∧ (emitAll s es).sync = s.sync := by
  induction es generalizing s with
  | nil => exact ⟨rfl, rfl, rfl⟩
  | cons e es ih =>
    simp only [List.mem_cons, not_or] at h
    have he := emit_of_not_latches (latchesAt_of_ne (s := s) (e := e) (fun heq => h.1 heq.symm))
    have hes := ih (emit s e) h.2
    exact ⟨hes.1.trans he.1, hes.2.1.trans he.2.1, hes.2.2.trans he.2.2⟩

/-- What events can do to the hazards: nothing, or desynchronize, and that only when a transaction is lost (R267). -/
theorem emitAll_sync (s : State) (es : List BusEvent) :
    (emitAll s es).sync = s.sync ∨ (s.losing = true ∧ (emitAll s es).sync = .lost) := by
  induction es generalizing s with
  | nil => exact .inl rfl
  | cons e es ih =>
    have he : (emit s e).sync = s.sync ∨ (s.losing = true ∧ (emit s e).sync = .lost) := by
      cases hl : s.losing <;> cases ha : s.latchesAt e <;> simp [State.syncAfter, hl, ha]
    have hl : (emit s e).losing = true → s.losing = true := by simp +contextual
    rcases ih (emit s e) with h | ⟨h, h'⟩
    · rw [emitAll_cons, h]; exact he
    · exact .inr ⟨hl h, h'⟩

/-- Events that drive neither RS nor RW nor raise EN leave the times of the pins alone. -/
theorem emitAll_pins_of_quiet (s : State) (es : List BusEvent)
    (h : ∀ e ∈ es, ∀ p now, PinTimes.after p now e = p) : (emitAll s es).pins = s.pins := by
  induction es generalizing s with
  | nil => rfl
  | cons e es ih =>
    rw [emitAll_cons, ih _ (fun f hf => h f (List.mem_cons_of_mem _ hf)), emit_pins,
      h e List.mem_cons_self]

/-- The events of a nibble transaction before EN rises, after RS and RW. -/
def setUpEvents (t : Tim) (n : Nibble) : List BusEvent :=
  [.setLine .d4 (lvl (n.getLsbD 0)), .setLine .d5 (lvl (n.getLsbD 1)), .setLine .d6 (lvl (n.getLsbD 2)),
    .setLine .d7 (lvl (n.getLsbD 3))] ++ (if 0 < t.tAs then [.delay t.tAs] else [])

theorem nibbleEvents_eq (t : Tim) (rs : RegSel) (n : Nibble) :
    nibbleEvents t rs n = [.setLine .rs (lvl rs.bit), .setLine .rw .low] ++ setUpEvents t n
      ++ [.setLine .en .high, .delay t.tEnPulse] ++ [.setLine .en .low, .delay t.tNibbleSettle] := by
  simp [nibbleEvents, setUpEvents]

theorem delaySum_setUpEvents (t : Tim) (n : Nibble) : t.tAs ≤ delaySum (setUpEvents t n) := by
  unfold setUpEvents
  split
  · simp [delaySum, BusEvent.minDuration]
  · simp [delaySum, BusEvent.minDuration]; omega

/-- At the moment EN is lowered in a nibble transaction: what the receiver sees, unless the transaction is lost. -/
theorem nibble_before_fall (s : State) (rs : RegSel) (n : Nibble) :
    ∃ u : State, emitAll s (nibbleEvents s.tim rs n) = emitAll u [.setLine .en .low, .delay s.tim.tNibbleSettle]
      ∧ u.rx = s.rx ∧ u.losing = s.losing ∧ u.sync = s.sync ∧ u.lv = { nibbleLevels rs n with en := .high }
      ∧ s.clock + s.tim.tAs + s.tim.tEnPulse ≤ u.clock ∧ u.pins.enable + s.tim.tEnPulse ≤ u.clock
      ∧ ∃ k, u.pins.address + s.tim.tAs + Config.overshoot k ≤ u.pins.enable := by
  generalize ha : emitAll s [.setLine .rs (lvl rs.bit), .setLine .rw .low] = a
  generalize hb : emitAll a (setUpEvents s.tim n) = b
  refine ⟨emitAll b [.setLine .en .high, .delay s.tim.tEnPulse], ?_, ?_⟩
  · rw [nibbleEvents_eq, emitAll_append, emitAll_append, emitAll_append, ha, hb]
  have hq : emitAll b [.setLine .en .high, .delay s.tim.tEnPulse]
      = emitAll s ([.setLine .rs (lvl rs.bit), .setLine .rw .low] ++ setUpEvents s.tim n
        ++ [.setLine .en .high, .delay s.tim.tEnPulse]) := by
    rw [emitAll_append, emitAll_append, ha, hb]
  have hquiet := emitAll_of_quiet s ([.setLine .rs (lvl rs.bit), .setLine .rw .low] ++ setUpEvents s.tim n
        ++ [.setLine .en .high, .delay s.tim.tEnPulse]) (by unfold setUpEvents; split <;> simp)
  have hab : a.clock + s.tim.tAs ≤ b.clock := by
    have h1 := clock_add_delaySum_le a (setUpEvents s.tim n)
    have h2 := delaySum_setUpEvents s.tim n
    rw [hb] at h1
    omega
  have hsa : s.clock ≤ a.clock := by
    have h1 := clock_add_delaySum_le s [.setLine .rs (lvl rs.bit), .setLine .rw .low]
    rw [ha] at h1
    omega
  have haddr : a.pins.address = a.clock := by rw [← ha]; rfl
  have hbp : b.pins = a.pins := by
    rw [← hb]
    exact emitAll_pins_of_quiet a _ (by unfold setUpEvents; split <;> simp [PinTimes.after])
  have hclock : (emitAll b [.setLine .en .high, .delay s.tim.tEnPulse]).clock
      = b.clock + Config.overshoot b.draws + s.tim.tEnPulse + Config.overshoot (b.draws + 1) := rfl
  have hen : (emitAll b [.setLine .en .high, .delay s.tim.tEnPulse]).pins.enable
      = b.clock + Config.overshoot b.draws := rfl
  have had : (emitAll b [.setLine .en .high, .delay s.tim.tEnPulse]).pins.address = b.pins.address := rfl
  refine ⟨by rw [hq]; exact hquiet.1, by rw [hq]; exact hquiet.2.1, by rw [hq]; exact hquiet.2.2, ?_, by omega, by omega, b.draws, ?_⟩
  · rw [hq, emitAll_lv]
    unfold setUpEvents
    split <;> rfl
  · rw [had, hen, hbp, haddr]
    omega

/-- A nibble transaction that is not lost is one latch of its record when the timing covers the receiver, at a time after
the set-up and hold delays, and the settle delay follows it (R101, R202, R210). -/
theorem emitAll_nibbleEvents_rx (s : State) (rs : RegSel) (n : Nibble) (hc : s.tim.covers) (hl : s.losing = false) :
    ∃ (now : Nat) (d : RxDraws), s.clock + s.tim.tAs + s.tim.tEnPulse ≤ now
      ∧ (emitAll s (nibbleEvents s.tim rs n)).rx = s.latched now rs n d
      ∧ now + s.tim.tNibbleSettle ≤ (emitAll s (nibbleEvents s.tim rs n)).clock
      ∧ (emitAll s (nibbleEvents s.tim rs n)).losing = false
      ∧ (emitAll s (nibbleEvents s.tim rs n)).sync = s.sync := by
  obtain ⟨u, hu, hrx, hlos, hsy, hlv, hclock, hen, k, hadr⟩ := nibble_before_fall s rs n
  have hw : Rx.enableWidth ≤ s.tim.tEnPulse := by
    have h := hc.1
    simp only [Tim.waits, Bool.and_eq_true, decide_eq_true_eq] at h
    omega
  have hset := hc.2 k
  have hlatch : u.latchesAt (.setLine .en .low) = true := by
    rw [State.latchesAt, hlv]; rfl
  have hok : u.pins.pulseOk (u.endOf (.setLine .en .low)) = true := by
    rw [PinTimes.pulseOk, Bool.and_eq_true]
    exact ⟨decide_eq_true (by omega), decide_eq_true (by simp only [State.endOf, BusEvent.minDuration]; omega)⟩
  have hdelay : ∀ (t : State) (d : Nat), (emit t (.delay d)).rx = t.rx ∧ (emit t (.delay d)).losing = t.losing
      ∧ (emit t (.delay d)).sync = t.sync := fun t d => emit_of_not_latches (latchesAt_of_ne (by simp))
  rw [hu]
  refine ⟨u.endOf (.setLine .en .low), Config.rxDraws u.draws, ?_, ?_, ?_, ?_, ?_⟩
  · simp only [State.endOf, BusEvent.minDuration]; omega
  · simp only [emitAll_cons, emitAll_nil, (hdelay _ _).1, emit_rx, State.rxAfter, hlatch, hok, hlos, hl, if_true,
      Bool.false_eq_true, if_false, State.latched, hsy, hrx]
    rw [hlv, sample_nibbleLevels]
    rfl
  · simp only [emitAll_cons, emitAll_nil, emit_clock, State.endOf, BusEvent.minDuration]
    omega
  · simp only [emitAll_cons, emitAll_nil, (hdelay _ _).2.1, emit_losing, hlatch, hlos, hl, Bool.false_and]
  · simp only [emitAll_cons, emitAll_nil, (hdelay _ _).2.2, emit_sync, State.syncAfter, hlos, hl, Bool.false_and,
      Bool.false_eq_true, if_false, hsy]

/-- A nibble transaction that is lost does not reach the receiver, the next one is not lost, and the receiver is
desynchronized from then on (R267 (c)). -/
theorem emitAll_nibbleEvents_lost (s : State) (rs : RegSel) (n : Nibble) (hl : s.losing = true) :
    (emitAll s (nibbleEvents s.tim rs n)).rx = s.rx ∧ (emitAll s (nibbleEvents s.tim rs n)).losing = false
      ∧ (emitAll s (nibbleEvents s.tim rs n)).sync = .lost := by
  obtain ⟨u, hu, hrx, hlos, -, hlv, _⟩ := nibble_before_fall s rs n
  have hlatch : u.latchesAt (.setLine .en .low) = true := by
    rw [State.latchesAt, hlv]; rfl
  have hdelay : ∀ (t : State) (d : Nat), (emit t (.delay d)).rx = t.rx ∧ (emit t (.delay d)).losing = t.losing
      ∧ (emit t (.delay d)).sync = t.sync := fun t d => emit_of_not_latches (latchesAt_of_ne (by simp))
  rw [hu]
  simp only [emitAll_cons, emitAll_nil, (hdelay _ _).1, (hdelay _ _).2.1, (hdelay _ _).2.2]
  simp [State.rxAfter, State.syncAfter, hlatch, hlos, hl, hrx]

/-- A receiver that is not desynchronized latches by R203-R207. -/
theorem latched_of_sync {s : State} (h : s.sync ≠ .lost) (now : Nat) (rs : RegSel) (n : Nibble) (d : RxDraws) :
    s.latched now rs n d = s.rx.latch now rs n d := by
  unfold State.latched
  cases hs : s.sync
  · rfl
  · rfl
  · exact absurd hs h

/-- A desynchronized receiver latches any value (R267). -/
theorem latched_of_lost {s : State} (h : s.sync = .lost) (now : Nat) (rs : RegSel) (n : Nibble) (d : RxDraws) :
    s.latched now rs n d = s.rx.latchDesynchronized now n d := by
  simp [State.latched, h]

/-- A byte transfer to a receiver in `M4H` that is not busy is one execution of the byte when the timing covers it and
neither transaction is lost (R204, R205, R210), and the receiver is not desynchronized, at a time from which the settle and
execution delays run. -/
theorem emitAll_byteEvents_rx (s : State) (rs : RegSel) (v : Byte) (hc : s.tim.covers) (hl : s.losing = false)
    (hy : s.sync ≠ .lost) (hmode : s.rx.mode = .m4h) (hbusy : s.rx.busyUntil ≤ s.clock) :
    ∃ (now : Nat) (d : RxDraws), s.clock ≤ now ∧ (emitAll s (byteEvents s.tim rs v)).rx = s.rx.execute now rs v d
      ∧ now + s.tim.tNibbleSettle + execDelay s.tim rs v ≤ (emitAll s (byteEvents s.tim rs v)).clock
      ∧ (emitAll s (byteEvents s.tim rs v)).losing = false ∧ (emitAll s (byteEvents s.tim rs v)).sync = s.sync := by
  obtain ⟨t1, d1, h1, hr1, hc1, hl1, hy1⟩ := emitAll_nibbleEvents_rx s rs (highNibble v) hc hl
  generalize hu : emitAll s (nibbleEvents s.tim rs (highNibble v)) = u at hr1 hc1 hl1 hy1
  have htim : u.tim = s.tim := by rw [← hu, emitAll_tim]
  obtain ⟨t2, d2, h2, hr2, hc2, hl2, hy2⟩ := emitAll_nibbleEvents_rx u rs (lowNibble v) (by rw [htim]; exact hc) hl1
  rw [htim] at h2 hr2 hc2 hl2 hy2
  rw [latched_of_sync hy] at hr1
  rw [latched_of_sync (hy1 ▸ hy)] at hr2
  have hu1 : u.rx = { s.rx with mode := .m4l (highNibble v) } := by
    rw [hr1, Rx.latch_of_not_busy rs _ d1 (by omega), hmode]
  have hu2 : (emitAll u (nibbleEvents s.tim rs (lowNibble v))).rx = s.rx.execute t2 rs v d2 := by
    rw [hr2, Rx.latch_of_not_busy rs _ d2 (by rw [hu1]; show s.rx.busyUntil ≤ t2; omega), hu1]
    have hv : ∀ v : Byte, (highNibble v ++ lowNibble v : BitVec 8) = v := by decide +kernel
    have hsame : ({ s.rx with mode := .m4h } : Rx) = s.rx := by rw [← hmode]
    show Rx.execute t2 rs (highNibble v ++ lowNibble v) d2 { s.rx with mode := .m4h } = _
    rw [hv, hsame]
  have hsplit : emitAll s (byteEvents s.tim rs v)
      = emit (emitAll u (nibbleEvents s.tim rs (lowNibble v))) (.delay (execDelay s.tim rs v)) := by
    simp only [byteEvents, emitAll_append, hu, emitAll_cons, emitAll_nil]
  have hdelay := emit_of_not_latches (s := emitAll u (nibbleEvents s.tim rs (lowNibble v)))
    (e := .delay (execDelay s.tim rs v)) (latchesAt_of_ne (by simp))
  refine ⟨t2, d2, by omega, ?_, ?_, ?_, ?_⟩
  · rw [hsplit, hdelay.1, hu2]
  · rw [hsplit, emit_clock]
    simp only [State.endOf, BusEvent.minDuration]
    omega
  · rw [hsplit, hdelay.2.1, hl2]
  · rw [hsplit, hdelay.2.2, hy2, hy1]

end Sys2Proof.Machine
end

