-- ==== Sys2Proof/Laws/Exec.lean ====
section
/-! SUPPORT. What any instruction can do, said once: its meaning performs its plan, and a plan has one of four forms. -/

namespace Sys2Proof.Machine

/-- Every meaning performs the instruction's plan. -/
theorem exec_eq_perform (i : Instr) (s : State) : exec i s = perform (planOf i s) s := by
  cases i <;> rfl

/-- A byte transfer's plan: the guard fails, or the transfer runs. -/
theorem bytePlan_cases (op : OpCode) (rs : RegSel) (v : Byte) (s : State) :
    (s.drv ≠ .ready ∧ bytePlan op rs v s = .error (.protocolStateError op))
    ∨ (s.drv = .ready ∧ bytePlan op rs v s = .run (byteEvents s.tim rs v) [] (some .ok)) := by
  unfold bytePlan
  split
  · exact .inr ⟨by assumption, rfl⟩
  · exact .inl ⟨by assumption, rfl⟩

/-- A recovery nibble's plan: one nibble transaction while `drv = Initializing`, an error otherwise. -/
theorem nibblePlan_cases (n : Nibble) (s : State) :
    (s.drv ≠ .initializing ∧ nibblePlan n s = .error (.protocolStateError 0#4))
    ∨ (s.drv = .initializing ∧ nibblePlan n s = .run (nibbleEvents s.tim .command n) [] none) := by
  unfold nibblePlan
  split
  · exact .inr ⟨by assumption, rfl⟩
  · exact .inl ⟨by assumption, rfl⟩

/-- The four forms of a plan: an error that is not Ok, one byte transfer in `Ready`, one recovery nibble in `Initializing`,
or the whole of `initialize`. -/
theorem planOf_cases (i : Instr) (s : State) :
    (∃ r, r ≠ .ok ∧ planOf i s = .error r)
    ∨ (∃ rs v, s.drv = .ready ∧ planOf i s = .run (byteEvents s.tim rs v) [] (some .ok))
    ∨ (∃ n, i.isRequest = false ∧ s.drv = .initializing ∧ planOf i s = .run (nibbleEvents s.tim .command n) [] none)
    ∨ (i = .reqInitialize ∧ s.drv = .uninitialized ∧ planOf i s = .run (initEvents s.tim s.cfg)
        [(0, .initializing), ((recoveryEvents s.tim s.cfg).length, .ready)] (some .ok)) := by
  have byte : ∀ op rs v, planOf i s = bytePlan op rs v s →
      (∃ r, r ≠ .ok ∧ planOf i s = .error r)
      ∨ (∃ rs v, s.drv = .ready ∧ planOf i s = .run (byteEvents s.tim rs v) [] (some .ok)) := by
    intro op rs v h
    rcases bytePlan_cases op rs v s with ⟨_, hp⟩ | ⟨hr, hp⟩
    · exact .inl ⟨_, by simp, h.trans hp⟩
    · exact .inr ⟨rs, v, hr, h.trans hp⟩
  have nibble : ∀ n, i.isRequest = false → planOf i s = nibblePlan n s →
      (∃ r, r ≠ .ok ∧ planOf i s = .error r)
      ∨ (∃ rs v, s.drv = .ready ∧ planOf i s = .run (byteEvents s.tim rs v) [] (some .ok))
      ∨ (∃ n, i.isRequest = false ∧ s.drv = .initializing ∧ planOf i s = .run (nibbleEvents s.tim .command n) [] none)
      ∨ (i = .reqInitialize ∧ s.drv = .uninitialized ∧ planOf i s = .run (initEvents s.tim s.cfg)
        [(0, .initializing), ((recoveryEvents s.tim s.cfg).length, .ready)] (some .ok)) := by
    intro n hi h
    rcases nibblePlan_cases n s with ⟨_, hp⟩ | ⟨hd, hp⟩
    · exact .inl ⟨_, by simp, h.trans hp⟩
    · exact .inr (.inr (.inl ⟨n, hi, hd, h.trans hp⟩))
  cases i with
  | nibbleReset => exact nibble _ rfl rfl
  | nibbleFourBit => exact nibble _ rfl rfl
  | reqInitialize =>
    by_cases hd : s.drv = .uninitialized
    · exact .inr (.inr (.inr ⟨rfl, hd, by simp [planOf, planReqInitialize, hd]⟩))
    · exact .inl ⟨.protocolStateError 0#4, by simp, by simp [planOf, planReqInitialize, hd]⟩
  | reqSetFunction busWidth lines font =>
    by_cases hd : s.drv = .ready
    · cases busWidth
      · cases hlf : (lines && font)
        · exact .inr (.inl ⟨.command, _, hd, by simp [planOf, planReqSetFunction, hd, hlf]; rfl⟩)
        · exact .inl ⟨.configurationError .invalidLineFont, by simp, by simp [planOf, planReqSetFunction, hd, hlf]⟩
      · exact .inl ⟨.configurationError .invalidBusWidth, by simp, by simp [planOf, planReqSetFunction, hd]⟩
    · exact .inl ⟨.protocolStateError 7#4, by simp, by simp [planOf, planReqSetFunction, hd]⟩
  | reserved11 => exact .inl ⟨_, by simp, rfl⟩
  | reserved12 => exact .inl ⟨_, by simp, rfl⟩
  | reserved13 => exact .inl ⟨_, by simp, rfl⟩
  | reserved14 => exact .inl ⟨_, by simp, rfl⟩
  | reserved15 => exact .inl ⟨_, by simp, rfl⟩
  | _ => exact (byte _ _ _ rfl).elim Or.inl (fun h => Or.inr (Or.inl h))

/-- What a performed plan can be. -/
theorem perform_error (r : Response) (s : State) : perform (.error r) s = .next (raise s r) := rfl

/-- A plan with no driver-state write emits its events and returns its response. -/
theorem perform_run_nil (es : List BusEvent) (resp : Option Response) (s : State) :
    perform (.run es [] resp) s = .next (respond (emitAll (begun false es s) es) resp) := by
  simp [perform, initializes]

/-- Every instruction answers a next state: no instruction ends in a fault or a refusal. -/
theorem exec_next (i : Instr) (s : State) : ∃ t, exec i s = .next t := by
  rw [exec_eq_perform]
  cases planOf i s <;> exact ⟨_, rfl⟩

/-- The two writes of `initialize` taken apart: what is emitted before `drv <- Ready`, and after it (R132, R139). -/
theorem runEvents_initialize (s : State) (pre post : List BusEvent) (hpre : pre ≠ []) :
    runEvents [(0, .initializing), (pre.length, .ready)] 0
      (applyWrites 0 s [(0, .initializing), (pre.length, .ready)]) (pre ++ post)
    = emitAll (setDrv (emitAll (setDrv s .initializing) pre) .ready) post := by
  have hlen : pre.length ≠ 0 := by simpa using hpre
  have aux : ∀ (es : List BusEvent) (n k : Nat) (t : State), es ≠ [] → k + es.length = n →
      runEvents [(0, .initializing), (n, .ready)] k t es = setDrv (emitAll t es) .ready := by
    intro es
    induction es with
    | nil => intro n k t h _; exact absurd rfl h
    | cons e es ih =>
      intro n k t _ hk
      simp only [List.length_cons] at hk
      cases es with
      | nil =>
        have : n = k + 1 := by simpa using hk.symm
        subst this
        simp [runEvents]
      | cons f fs =>
        have hn : n ≠ k + 1 := by simp only [List.length_cons] at hk; omega
        have hstep : runEvents [(0, .initializing), (n, .ready)] k t (e :: f :: fs)
            = runEvents [(0, .initializing), (n, .ready)] (k + 1) (emit t e) (f :: fs) := by
          simp [runEvents, hn]
        rw [hstep, ih n (k + 1) (emit t e) (by simp) (by simp only [List.length_cons] at hk ⊢; omega)]
        rfl
  have auxPost : ∀ (es : List BusEvent) (n k : Nat) (t : State), n ≤ k →
      runEvents [(0, .initializing), (n, .ready)] k t es = emitAll t es := by
    intro es
    induction es with
    | nil => intro n k t _; rfl
    | cons e es ih =>
      intro n k t hk
      have hn : n ≠ k + 1 := by omega
      have hstep : runEvents [(0, .initializing), (n, .ready)] k t (e :: es)
          = runEvents [(0, .initializing), (n, .ready)] (k + 1) (emit t e) es := by
        simp [runEvents, hn]
      rw [hstep, ih n (k + 1) (emit t e) (by omega)]
      rfl
  have h0 : applyWrites 0 s [(0, .initializing), (pre.length, .ready)] = setDrv s .initializing := by
    simp [hlen]
  rw [h0, runEvents_append, aux pre pre.length 0 _ hpre (by omega), auxPost post pre.length _ _ (by omega)]

/-- `initialize` admitted: its whole event list, `Ready` at its end, Ok (R141). -/
theorem exec_initialize (s : State) (hd : s.drv = .uninitialized) :
    exec .reqInitialize s = .next (respond (setDrv
      (emitAll (begun true (initEvents s.tim s.cfg) s) (initEvents s.tim s.cfg)) .ready) (some .ok)) := by
  have hplan : planOf .reqInitialize s = .run (recoveryEvents s.tim s.cfg ++ configEvents s.tim s.cfg)
      [(0, .initializing), ((recoveryEvents s.tim s.cfg).length, .ready)] (some .ok) := by
    simp [planOf, planReqInitialize, hd, initEvents]
  have hinit : ∀ w : DrvWrite, initializes [(0, .initializing), w] = true := fun w => by simp [initializes]
  rw [exec_eq_perform, hplan]
  simp only [perform, hinit]
  rw [runEvents_initialize _ _ _ (by simp [recoveryEvents, recoveryStates, FsmState.events]), initEvents, emitAll_append,
    emitAll_setDrv, emitAll_setDrv, emitAll_setDrv, setDrv_setDrv]

/-- The four forms of a next state that an instruction can answer. -/
theorem exec_cases {i : Instr} {s t : State} (h : exec i s = .next t) :
    (∃ r, r ≠ .ok ∧ t = failed s r)
    ∨ (∃ rs v, s.drv = .ready ∧ t = transferred s rs v)
    ∨ (∃ n, i.isRequest = false ∧ s.drv = .initializing ∧ t = emitAll s (nibbleEvents s.tim .command n))
    ∨ (i = .reqInitialize ∧ s.drv = .uninitialized
        ∧ t = respond (setDrv (emitAll (begun true (initEvents s.tim s.cfg) s) (initEvents s.tim s.cfg)) .ready)
            (some .ok)) := by
  rcases planOf_cases i s with ⟨r, hr, hp⟩ | ⟨rs, v, hd, hp⟩ | ⟨n, hn, hd, hp⟩ | ⟨hi, hd, hp⟩
  · rw [exec_eq_perform, hp] at h
    cases h
    exact .inl ⟨r, hr, rfl⟩
  · rw [exec_eq_perform, hp, perform_run_nil] at h
    cases h
    exact .inr (.inl ⟨rs, v, hd, rfl⟩)
  · rw [exec_eq_perform, hp, perform_run_nil] at h
    cases h
    exact .inr (.inr (.inl ⟨n, hn, hd, by rw [begun_nibbleEvents]; rfl⟩))
  · subst hi
    rw [exec_initialize s hd] at h
    cases h
    exact .inr (.inr (.inr ⟨rfl, hd, rfl⟩))

end Sys2Proof.Machine
end

