-- ==== Sys2Proof/Laws/PerInstr.lean ====
section
/-! SUPPORT. Statements made per instruction, as syntax. -/

namespace Sys2Proof.Laws.RowMatch

/-- The encoded word has its table row's width and fixed bits (R73, R78, R85). -/
def Statement (i : Instr) : Prop :=
  (encode i).width = i.row.width ∧ (encode i).bits &&& i.row.maskBits = i.row.matchBits

/-- The low four bits of a request word are its op code (R85). -/
theorem requestWord_op (b : BitVec 3) (a : Byte) (op : OpCode) : (requestWord b a op).toNat &&& 0x000F = op.toNat := by
  have h : ((requestWord b a op) &&& 0x000F#15) = op.setWidth 15 := by
    apply BitVec.eq_of_getLsbD_eq
    intro i hi
    have hmask : (0x000F#15).getLsbD i = decide (i < 4) := by interval_cases i <;> rfl
    rw [BitVec.getLsbD_and, hmask, requestWord, BitVec.getLsbD_append, BitVec.getLsbD_setWidth]
    by_cases h4 : i < 4
    · simp [h4, hi]
    · simp [h4, BitVec.getLsbD_of_ge op i (by omega)]
  have h2 := congrArg BitVec.toNat h
  simpa [BitVec.toNat_and, Nat.mod_eq_of_lt (show op.toNat < 32768 by omega)] using h2

theorem busClear : Statement .busClear := ⟨rfl, rfl⟩

theorem busReturnHome (dc : BitVec 1) : Statement (.busReturnHome dc) := by
  unfold Statement; revert dc; decide +kernel

theorem busEntryMode (x : Bool) (y : Bool) : Statement (.busEntryMode x y) := by
  unfold Statement; revert x y; decide +kernel

theorem busDisplay (x : Bool) (y : Bool) (z : Bool) : Statement (.busDisplay x y z) := by
  unfold Statement; revert x y z; decide +kernel

theorem busShift (x : Bool) (y : Bool) (dc : BitVec 2) : Statement (.busShift x y dc) := by
  unfold Statement; revert x y dc; decide +kernel

theorem busFunction (x : Bool) (y : Bool) (z : Bool) (dc : BitVec 2) : Statement (.busFunction x y z dc) := by
  unfold Statement; revert x y z dc; decide +kernel

theorem busCgramAddr (a : BitVec 6) : Statement (.busCgramAddr a) := by
  unfold Statement; revert a; decide +kernel

theorem busDdramAddr (a : BitVec 7) : Statement (.busDdramAddr a) := by
  unfold Statement; revert a; decide +kernel

theorem busData (b : Byte) : Statement (.busData b) := by
  unfold Statement; revert b; decide +kernel

theorem nibbleReset : Statement .nibbleReset := ⟨rfl, rfl⟩

theorem nibbleFourBit : Statement .nibbleFourBit := ⟨rfl, rfl⟩

theorem reqInitialize : Statement .reqInitialize := ⟨rfl, requestWord_op _ _ _⟩

theorem reqSendByte (b : Byte) (rs : RegSel) : Statement (.reqSendByte b rs) := ⟨rfl, requestWord_op _ _ _⟩

theorem reqClear : Statement .reqClear := ⟨rfl, requestWord_op _ _ _⟩

theorem reqReturnHome : Statement .reqReturnHome := ⟨rfl, requestWord_op _ _ _⟩

theorem reqSetEntryMode (x : Bool) (y : Bool) : Statement (.reqSetEntryMode x y) := ⟨rfl, requestWord_op _ _ _⟩

theorem reqSetDisplay (x : Bool) (y : Bool) (z : Bool) : Statement (.reqSetDisplay x y z) := ⟨rfl, requestWord_op _ _ _⟩

theorem reqShift (x : Bool) (y : Bool) : Statement (.reqShift x y) := ⟨rfl, requestWord_op _ _ _⟩

theorem reqSetFunction (x : Bool) (y : Bool) (z : Bool) : Statement (.reqSetFunction x y z) := ⟨rfl, requestWord_op _ _ _⟩

theorem reqSetCgramAddress (a : Byte) : Statement (.reqSetCgramAddress a) := ⟨rfl, requestWord_op _ _ _⟩

theorem reqSetDdramAddress (a : Byte) : Statement (.reqSetDdramAddress a) := ⟨rfl, requestWord_op _ _ _⟩

theorem reqWriteChar (b : Byte) : Statement (.reqWriteChar b) := ⟨rfl, requestWord_op _ _ _⟩

theorem reserved11 : Statement .reserved11 := ⟨rfl, requestWord_op _ _ _⟩

theorem reserved12 : Statement .reserved12 := ⟨rfl, requestWord_op _ _ _⟩

theorem reserved13 : Statement .reserved13 := ⟨rfl, requestWord_op _ _ _⟩

theorem reserved14 : Statement .reserved14 := ⟨rfl, requestWord_op _ _ _⟩

theorem reserved15 : Statement .reserved15 := ⟨rfl, requestWord_op _ _ _⟩

end Sys2Proof.Laws.RowMatch
end

