-- ==== Sys2Proof/Laws/Step.lean ====
section
/-! SUPPORT. What one step can do, said once, and the micro-step reading's shared facts (R26): the state that a request in
progress ends in does not depend on how far it has got. -/

namespace Sys2Proof.Machine

/-- The six forms of a step that answers a next state: waiting, a micro-step, a construction, an instruction, a stray pulse,
a transaction to be lost. -/
theorem step_cases {s t : State} (h : step s = .next t) :
    (s.phase = .idle ∧ s.inbox = [] ∧ t = s)
    ∨ ((∃ pos rest ws resp, s.phase = .busy pos rest ws resp) ∧ t = microStep s)
    ∨ (∃ c tm rest, s.phase = .idle ∧ s.inbox = .construct c tm :: rest ∧ t = construct c tm { s with inbox := rest })
    ∨ (∃ p rest i, s.phase = .idle ∧ s.inbox = .word p :: rest ∧ decode p = .ok i
        ∧ ((s.grain = .whole ∧ exec i { s with inbox := rest } = .next t)
          ∨ (s.grain = .event ∧ t = accept (planOf i { s with inbox := rest }) { s with inbox := rest })))
    ∨ (∃ rest, s.inbox = .strayPulse :: rest ∧ s.lv.en ≠ .high ∧ t = strayPulse { s with inbox := rest })
    ∨ (∃ rest, s.inbox = .loseTransaction :: rest ∧ t = loseNext { s with inbox := rest }) := by
  unfold step nextActivity at h
  cases hi : s.inbox with
  | nil => cases hp : s.phase <;> simp [hi, hp] at h <;> simp [h]
  | cons x rest =>
    cases x with
    | foreignDrive l v => simp [hi] at h
    | strayPulse =>
      by_cases hen : s.lv.en = .high
      · simp [hi, hen] at h
      · simp [hi, hen] at h
        exact .inr (.inr (.inr (.inr (.inl ⟨rest, rfl, hen, h.symm⟩))))
    | loseTransaction =>
      simp [hi] at h
      exact .inr (.inr (.inr (.inr (.inr ⟨rest, rfl, h.symm⟩))))
    | secondRequester w => simp [hi] at h
    | construct c tm =>
      cases hp : s.phase <;> simp [hi, hp] at h
      · exact .inr (.inr (.inl ⟨c, tm, rest, rfl, rfl, h.symm⟩))
      · exact .inr (.inl ⟨⟨_, _, _, _, rfl⟩, h.symm⟩)
    | word p =>
      cases hp : s.phase <;> simp [hi, hp] at h
      · cases hd : decode p with
        | error e => simp [hd] at h
        | ok i =>
          simp only [hd] at h
          refine .inr (.inr (.inr (.inl ⟨p, rest, i, rfl, rfl, hd, ?_⟩)))
          cases hg : s.grain <;> simp [hg] at h
          · exact .inl ⟨rfl, by simpa using h⟩
          · exact .inr ⟨rfl, by simpa using h.symm⟩
      · exact .inr (.inl ⟨⟨_, _, _, _, rfl⟩, h.symm⟩)

/-- `drv` after the due writes, in the terms of Safety.lean. -/
theorem drv_applyWrites (k : Nat) (s : State) (ws : List DrvWrite) :
    (applyWrites k s ws).drv = dueDrv k s.drv ws := by
  induction ws generalizing s with
  | nil => rfl
  | cons w ws ih =>
    simp only [applyWrites_cons, ih, dueDrv, List.foldl_cons]
    split <;> rfl

/-- The due writes do not read the phase. -/
theorem applyWrites_phase (k : Nat) (s : State) (p : Phase) (ws : List DrvWrite) :
    applyWrites k { s with phase := p } ws = { applyWrites k s ws with phase := p } := by
  rw [applyWrites_eq_setDrv k s, applyWrites_eq_setDrv k { s with phase := p }, drv_applyWrites, drv_applyWrites]
  rfl

/-- Running events does not read the phase. -/
theorem runEvents_phase (ws : List DrvWrite) (k : Nat) (s : State) (p : Phase) (es : List BusEvent) :
    runEvents ws k { s with phase := p } es = { runEvents ws k s es with phase := p } := by
  induction es generalizing k s with
  | nil => rfl
  | cons e es ih =>
    have he : emit { s with phase := p } e = { emit s e with phase := p } := rfl
    simp only [runEvents, he, applyWrites_phase, ih]

/-- The end of a request that has just settled into `Busy` or `Idle`. -/
theorem finished_settle (pos : Nat) (es : List BusEvent) (ws : List DrvWrite) (resp : Option Response) (s : State) :
    (settle pos es ws resp s).finished = respond { runEvents ws pos s es with phase := .idle } resp := by
  cases es with
  | nil => cases resp <;> rfl
  | cons e es =>
    show respond { runEvents ws pos { s with phase := .busy pos (e :: es) ws resp } (e :: es) with phase := .idle } resp = _
    rw [runEvents_phase]

/-- A micro-step does not change the state in which the request ends (R26). -/
theorem finished_microStep (s : State) : (microStep s).finished = s.finished := by
  cases hp : s.phase with
  | idle => simp only [microStep, hp]
  | busy pos rest ws resp =>
    have hs : s.finished = respond { runEvents ws pos s rest with phase := .idle } resp := by
      simp only [State.finished, hp]
    cases rest with
    | nil =>
      rw [show microStep s = settle pos [] ws resp s by simp only [microStep, hp], finished_settle, hs]
    | cons e es =>
      rw [show microStep s = settle (pos + 1) es ws resp (applyWrites (pos + 1) (emit s e) ws) by
        simp only [microStep, hp], finished_settle, hs]
      rfl

/-- No event of a nibble transaction raises RW. -/
theorem rw_high_not_mem_nibbleEvents (t : Tim) (rs : RegSel) (n : Nibble) :
    BusEvent.setLine .rw .high ∉ nibbleEvents t rs n := by
  unfold nibbleEvents
  split <;> simp

/-- The canonical form of the receiver's memories is kept by a latch. -/
theorem memWf_latched {s : State} (now : Nat) (rs : RegSel) (n : Nibble) (d : RxDraws) (h : s.rx.memWf = true) :
    (s.latched now rs n d).memWf = true := by
  unfold State.latched
  split
  · exact Rx.memWf_latch now rs n d h
  · exact Rx.memWf_latch now rs n d h
  · exact Rx.memWf_latchDesynchronized now n d h

/-- The canonical form of the receiver's memories is kept by an event. -/
theorem memWf_emit (s : State) (e : BusEvent) (h : s.rx.memWf = true) : (emit s e).rx.memWf = true := by
  rw [emit_rx]
  unfold State.rxAfter
  split
  · split
    · exact h
    · split
      · exact memWf_latched _ _ _ _ h
      · exact Rx.memWf_ofDraw _
  · exact h

/-- The canonical form of the receiver's memories is kept by a stray pulse. -/
theorem memWf_strayPulse (s : State) (h : s.rx.memWf = true) : (strayPulse s).rx.memWf = true :=
  memWf_latched _ _ _ _ h

/-- The canonical form of the receiver's memories is kept by every list of events. -/
theorem memWf_emitAll (s : State) (es : List BusEvent) (h : s.rx.memWf = true) : (emitAll s es).rx.memWf = true := by
  induction es generalizing s with
  | nil => exact h
  | cons e es ih => exact ih _ (memWf_emit s e h)

end Sys2Proof.Machine
end

