-- ==== Sys2Proof/Machine/Assembler.lean ====
section
/-! DEFINITION. The request syntax of R89: one request per line, mnemonic first, operands separated by commas, and the
construction line. A comment runs from `;` to the end of the line, as the programs of 95_test_vectors.md write it (log entry
22). Every function recurses on a list of characters or lines. -/

namespace Sys2Proof.Machine

/-- Drop a comment; a `;` inside a character literal is no comment. -/
def dropComment : List Char → List Char
  | '\'' :: c :: '\'' :: cs => '\'' :: c :: '\'' :: dropComment cs
  | c :: cs => if c = ';' then [] else c :: dropComment cs
  | [] => []

/-- Drop leading blanks. -/
def dropBlanks : List Char → List Char
  | c :: cs => if c = ' ' then dropBlanks cs else c :: cs
  | [] => []

/-- Drop blanks at both ends. -/
def trim (cs : List Char) : List Char := (dropBlanks (dropBlanks cs).reverse).reverse

/-- Split at commas; a comma inside a character literal splits nothing. `cur` is the piece so far, reversed. -/
def splitCommas : List Char → List Char → List (List Char)
  | cur, '\'' :: c :: '\'' :: cs => splitCommas ('\'' :: c :: '\'' :: cur) cs
  | cur, c :: cs => if c = ',' then cur.reverse :: splitCommas [] cs else splitCommas (c :: cur) cs
  | cur, [] => [cur.reverse]

/-- The mnemonic, up to the first blank, and what follows it. `cur` is the mnemonic so far, reversed. -/
def splitMnemonic : List Char → List Char → List Char × List Char
  | cur, c :: cs => if c = ' ' then (cur.reverse, cs) else splitMnemonic (c :: cur) cs
  | cur, [] => (cur.reverse, [])

/-- The value of a digit in a base. -/
def digit (base : Nat) (c : Char) : Option Nat :=
  let v :=
    if '0' ≤ c ∧ c ≤ '9' then c.toNat - '0'.toNat
    else if 'a' ≤ c ∧ c ≤ 'f' then c.toNat - 'a'.toNat + 10
    else if 'A' ≤ c ∧ c ≤ 'F' then c.toNat - 'A'.toNat + 10
    else base
  if v < base then some v else none

/-- The value of digits that follow the value `acc`. -/
def digits (base : Nat) : Nat → List Char → Option Nat
  | acc, [] => some acc
  | acc, c :: cs =>
    match digit base c with
    | some v => digits base (acc * base + v) cs
    | none => none

/-- `<u8>`: decimal or `0x` hexadecimal, 0..255 (R89). -/
def parseByte (cs : List Char) : Option Byte :=
  let v :=
    match cs with
    | [] => none
    | ['0', 'x'] => none
    | '0' :: 'x' :: ds => digits 16 0 ds
    | ds => digits 10 0 ds
  match v with
  | some n => if n < 256 then some (BitVec.ofNat 8 n) else none
  | none => none

/-- `<u8>|'<c>'`: a byte, or the ASCII code of a printable ASCII character (R89). -/
def parseChar (cs : List Char) : Option Byte :=
  match cs with
  | ['\'', c, '\''] => if 0x20 ≤ c.toNat ∧ c.toNat < 0x7F then some (BitVec.ofNat 8 c.toNat) else none
  | _ => parseByte cs

/-- One of two words: the first is 0, the second 1. -/
def parseFlag (zero one : String) (cs : List Char) : Option Bool :=
  if cs = zero.toList then some false else if cs = one.toList then some true else none

/-- What follows a key. -/
def afterKey : List Char → List Char → Option (List Char)
  | [], cs => some cs
  | k :: ks, c :: cs => if k = c then afterKey ks cs else none
  | _ :: _, [] => none

/-- A construction line's operands: `lines=1|2, font=5x8|5x10, cols=<u8>, rows=<u8>` (R89), with the default timing
record (R8). -/
def assembleConstruct (lines font cols rows : List Char) : Option HostInput := do
  let two ← parseFlag "1" "2" (← afterKey "lines=".toList lines)
  let tall ← parseFlag "5x8" "5x10" (← afterKey "font=".toList font)
  let columns ← parseByte (← afterKey "cols=".toList cols)
  let rowCount ← parseByte (← afterKey "rows=".toList rows)
  return .construct
    { lineCount := if two then .two else .one, font := if tall then .f5x10 else .f5x8,
      displayColumns := columns, displayRows := rowCount } Tim.default

/-- A request from its mnemonic and operands (R89). -/
def assembleRequest (mnemonic : List Char) (operands : List (List Char)) : Option Instr :=
  match operands with
  | [] =>
    if mnemonic = "initialize".toList then some .reqInitialize
    else if mnemonic = "clear".toList then some .reqClear
    else if mnemonic = "return_home".toList then some .reqReturnHome
    else none
  | [x] =>
    if mnemonic = "set_cgram_address".toList then (parseByte x).map .reqSetCgramAddress
    else if mnemonic = "set_ddram_address".toList then (parseByte x).map .reqSetDdramAddress
    else if mnemonic = "write_char".toList then (parseChar x).map .reqWriteChar
    else none
  | [x, y] =>
    if mnemonic = "send_byte".toList then do
      let value ← parseByte x
      let rs ← parseFlag "cmd" "data" y
      return .reqSendByte value (RegSel.ofBit rs)
    else if mnemonic = "set_entry_mode".toList then do
      let direction ← parseFlag "dec" "inc" x
      let shiftDisplay ← parseFlag "noshift" "shift" y
      return .reqSetEntryMode direction shiftDisplay
    else if mnemonic = "shift".toList then do
      let target ← parseFlag "cursor" "display" x
      let direction ← parseFlag "left" "right" y
      return .reqShift target direction
    else none
  | [x, y, z] =>
    if mnemonic = "set_display".toList then do
      let on ← parseFlag "off" "on" x
      let cursor ← parseFlag "nocursor" "cursor" y
      let blink ← parseFlag "noblink" "blink" z
      return .reqSetDisplay on cursor blink
    else if mnemonic = "set_function".toList then do
      let busWidth ← parseFlag "4bit" "8bit" x
      let lines ← parseFlag "1line" "2line" y
      let font ← parseFlag "5x8" "5x10" z
      return .reqSetFunction busWidth lines font
    else none
  | _ => none

/-- One line of a program as an input, `none` when it is not of R89's form. -/
def assembleLine (line : List Char) : Option HostInput :=
  let parts := splitMnemonic [] (trim (dropComment line))
  let operands := if trim parts.2 = [] then [] else (splitCommas [] parts.2).map trim
  match operands with
  | [lines, font, cols, rows] =>
    if parts.1 = "construct".toList then assembleConstruct lines font cols rows else none
  | _ => (assembleRequest parts.1 operands).map (fun i => .word (encode i))

/-- A program: one input per line; `none` when a line is not of R89's form. -/
def assemble : List (List Char) → Option (List HostInput)
  | [] => some []
  | l :: ls =>
    match assembleLine l, assemble ls with
    | some x, some xs => some (x :: xs)
    | _, _ => none

/-- A program given as lines of text. -/
def assembleText (lines : List String) : Option (List HostInput) := assemble (lines.map String.toList)

end Sys2Proof.Machine
end

