-- ==== Sys2Proof/Tests/Slice0.lean ====
section
/-! SUPPORT. The model's own tests. Expected values come from spec/95_test_vectors.md (named V-…, S…, P…), from the encodings
of spec/30_encoding.md (R73, R78, R86), or are worked out by hand from a rule named there. The last part shows, for every
statement with hypotheses, a concrete state and operands that meet them. -/

namespace Sys2Proof.Tests

-- One theorem at a time: each waiting kernel evaluation would otherwise hold a thread's stack.
set_option Elab.async false

open Sys2Proof.Machine

/-! ## Small states -/

/-- A receiver in 4-bit mode, idle, with nothing written. -/
def rxAtRest : Rx :=
  { mode := .m4h, busyUntil := 0, ac := 0#7, space := .ddram, ddram := [], cgram := [], increment := true,
    shiftOnWrite := false, displayOn := false, cursorOn := false, blinkOn := false, twoLines := true,
    font5x10 := false, displayShift := 0 }

/-- Draws with every level 0. -/
def lowDraws : RxDraws :=
  { low := 0#4, anyRx := rxAtRest, ac := 0#7, shiftRight := false, strayData := false, strayLines := 0#4 }

/-- An engine in `Ready`, after V-INIT-7. -/
def readyState : State :=
  { drv := .ready, cfg := Cfg.construction, tim := Tim.default, phase := .idle,
    lv := { rs := .low, rw := .low, en := .low, d4 := .low, d5 := .high, d6 := .high, d7 := .low },
    trace := [], responses := [], rx := rxAtRest, inbox := [], grain := .whole, clock := 0, draws := 0,
    pins := { address := 0, enable := 0 }, losing := false, sync := .held }

/-- A fresh engine with a known receiver. -/
def freshState : State := { State.reset with rx := { rxAtRest with mode := .m8 } }

/-- The state that an instruction answers. -/
def after (i : Instr) (s : State) : State :=
  match exec i s with
  | .next t => t
  | .fault _ => s
  | .refused _ => s

/-- What a vector lists of a request: response words, records, delay sum, number of events. -/
def summary (i : Instr) (s : State) : List ResponseWord × List Record × Nat × Nat :=
  let t := after i s
  (t.responses.map Response.word, txs s.lv t.trace, delaySum t.trace, t.trace.length)

/-- One admitted byte transfer with the short delay. -/
def short (rs : RegSel) (high low : Nibble) : List ResponseWord × List Record × Nat × Nat :=
  ([0x00#8], [record rs high, record rs low], 154000, 23)

/-- One admitted byte transfer with the long delay. -/
def long (high low : Nibble) : List ResponseWord × List Record × Nat × Nat :=
  ([0x00#8], [record .command high, record .command low], 2104000, 23)

/-- A request answered by a response word alone. -/
def onlyResponse (w : ResponseWord) : List ResponseWord × List Record × Nat × Nat := ([w], [], 0, 0)

/-! ## WellFormed refuses an ill-formed term for each of its checks -/

/-- R79: RETURN_HOME with its don't-care bit set. -/
theorem test_wf_return_home_dc : Instr.wellFormed (.busReturnHome 1#1) = false := by decide

/-- R79: SHIFT with a don't-care bit set. -/
theorem test_wf_shift_dc : Instr.wellFormed (.busShift true true 2#2) = false := by decide

/-- R79: FUNCTION with a don't-care bit set. -/
theorem test_wf_function_dc : Instr.wellFormed (.busFunction false true false 1#2) = false := by decide

/-- R80: FUNCTION with DL = 1. -/
theorem test_wf_function_dl : Instr.wellFormed (.busFunction true false false 0#2) = false := by decide

/-- R166: FUNCTION with two lines and the 5x10 font. -/
theorem test_wf_function_line_font : Instr.wellFormed (.busFunction false true true 0#2) = false := by decide

/-- R140: the FUNCTION bytes of `initialize` pass. -/
theorem test_wf_function_ok : Instr.wellFormed (.busFunction false true false 0#2) = true
    ∧ Instr.wellFormed (.busFunction false false true 0#2) = true := by decide

/-! ## Decoding, every constructor by a word written out from the spec's encoding -/

theorem test_decode_clear : decodeBusByte 0b0_00000001#9 = some .busClear := by decide
theorem test_decode_return_home : decodeBusByte 0b0_00000011#9 = some (.busReturnHome 1#1) := by decide
theorem test_decode_entry_mode : decodeBusByte 0b0_00000110#9 = some (.busEntryMode true false) := by decide
theorem test_decode_display : decodeBusByte 0b0_00001100#9 = some (.busDisplay true false false) := by decide
theorem test_decode_shift : decodeBusByte 0b0_00010110#9 = some (.busShift false true 2#2) := by decide
theorem test_decode_function : decodeBusByte 0b0_00111001#9 = some (.busFunction true true false 1#2) := by decide
theorem test_decode_cgram_addr : decodeBusByte 0b0_01000110#9 = some (.busCgramAddr 6#6) := by decide
theorem test_decode_ddram_addr : decodeBusByte 0b0_11001000#9 = some (.busDdramAddr 72#7) := by decide
theorem test_decode_data : decodeBusByte 0b1_00000001#9 = some (.busData 1#8) := by decide
theorem test_decode_no_command_bit : decode (.busByte 0#9) = .error .noCommandBit := by decide
theorem test_decode_reset_nibble : decodeNibble 0b0_0011#5 = some .nibbleReset := by decide
theorem test_decode_fourbit_nibble : decodeNibble 0b0_0010#5 = some .nibbleFourBit := by decide
theorem test_decode_other_nibble : decode (.nibble 0b1_0011#5) = .error .notRecoveryNibble := by decide
theorem test_decode_initialize : decodeRequest 0b000_00000000_0000#15 = .reqInitialize := by decide
theorem test_decode_send_byte : decodeRequest 0b001_01000001_0001#15 = .reqSendByte 0x41#8 .data := by decide
theorem test_decode_req_clear : decodeRequest 0b111_11111111_0010#15 = .reqClear := by decide
theorem test_decode_req_return_home : decodeRequest 0b000_00000000_0011#15 = .reqReturnHome := by decide
theorem test_decode_set_entry_mode : decodeRequest 0b001_00000000_0100#15 = .reqSetEntryMode false true := by decide
theorem test_decode_set_display : decodeRequest 0b100_00000000_0101#15 = .reqSetDisplay true false false := by decide
theorem test_decode_req_shift : decodeRequest 0b001_00000000_0110#15 = .reqShift false true := by decide
theorem test_decode_set_function : decodeRequest 0b011_00000000_0111#15 = .reqSetFunction false true true := by decide
theorem test_decode_set_cgram : decodeRequest 0b000_01000110_1000#15 = .reqSetCgramAddress 70#8 := by decide
theorem test_decode_set_ddram : decodeRequest 0b000_11001000_1001#15 = .reqSetDdramAddress 200#8 := by decide
theorem test_decode_write_char : decodeRequest 0b000_01000001_1010#15 = .reqWriteChar 0x41#8 := by decide
theorem test_decode_reserved11 : decodeRequest 0b000_00000000_1011#15 = .reserved11 := by decide
theorem test_decode_reserved12 : decodeRequest 0b000_00000000_1100#15 = .reserved12 := by decide
theorem test_decode_reserved13 : decodeRequest 0b000_00000000_1101#15 = .reserved13 := by decide
theorem test_decode_reserved14 : decodeRequest 0b000_00000000_1110#15 = .reserved14 := by decide
theorem test_decode_reserved15 : decodeRequest 0b101_00010000_1111#15 = .reserved15 := by decide

/-- Log entry 5: a number of the table at its port, and one that only its width tells apart. -/
theorem test_table_words :
    decodeTableWord 16 0x001 = some .busClear ∧ decodeTableWord 16 0x046 = some (.busCgramAddr 6#6)
      ∧ decodeTableWord 8 0x02 = some .nibbleFourBit ∧ decodeTableWord 16 0x02 = some (.busReturnHome 0#1)
      ∧ decodeTableWord 16 0x0468 = some (.reqSetCgramAddress 70#8) ∧ decodeTableWord 16 0x0F = some .reserved15 := by
  decide

/-- The very next step runs a placed word (log entry 4): from reset, `initialize` leaves `Ready`. -/
theorem test_fetch_word : (match step (State.reset.withFetchWord 16 0x0000) with
    | .next t => t.drv
    | .fault _ => .uninitialized
    | .refused _ => .uninitialized) = .ready := by decide +kernel

/-! ## Transfers -/

/-- V-NT-1. -/
theorem test_nt_1 : nibbleEvents Tim.default .command 0x3#4
    = [.setLine .rs .low, .setLine .rw .low, .setLine .d4 .high, .setLine .d5 .high, .setLine .d6 .low, .setLine .d7 .low,
       .delay 1000, .setLine .en .high, .delay 1000, .setLine .en .low, .delay 50000] := by decide

/-- V-NT-2, the end levels. -/
theorem test_nt_2 : Levels.unknown.afterAll (nibbleEvents Tim.default .data 0xA#4)
    = { rs := .high, rw := .low, en := .low, d4 := .low, d5 := .high, d6 := .low, d7 := .high } := by decide

/-- V-NT-3: no set-up delay when `T_AS = 0`. -/
theorem test_nt_3 : nibbleEvents { Tim.default with tAs := 0 } .command 0x2#4
    = [.setLine .rs .low, .setLine .rw .low, .setLine .d4 .low, .setLine .d5 .high, .setLine .d6 .low, .setLine .d7 .low,
       .setLine .en .high, .delay 1000, .setLine .en .low, .delay 50000] := by decide

/-- V-BT-2: 0x03 is long as a command and short as data, 0x00 is short. -/
theorem test_bt_2 : delaySum (byteEvents Tim.default .command 0x03#8) = 2104000
    ∧ delaySum (byteEvents Tim.default .data 0x03#8) = 154000
    ∧ delaySum (byteEvents Tim.default .command 0x00#8) = 154000 := by decide

/-! ## Requests, one vector each -/

/-- S4, S9: the records, the delay sum and the number of events of `initialize`. -/
theorem test_initialize : summary .reqInitialize State.reset
    = ([0x00#8], [record .command 3#4, record .command 3#4, record .command 3#4, record .command 2#4,
        record .command 2#4, record .command 8#4, record .command 0#4, record .command 8#4, record .command 0#4,
        record .command 1#4, record .command 0#4, record .command 6#4], 23174000, 144) := by decide +kernel

/-- V-INIT-6: a second `initialize`. -/
theorem test_initialize_again : summary .reqInitialize readyState = onlyResponse 0x02#8 := by decide

/-- S6: high nibble first, RS as given. -/
theorem test_send_byte : summary (.reqSendByte 0x5A#8 .data) readyState = short .data 0x5#4 0xA#4 := by decide +kernel

/-- V-SB-5. -/
theorem test_send_byte_uninitialized : summary (.reqSendByte 0x5A#8 .data) State.reset = onlyResponse 0x12#8 := by decide

/-- V-CMD-1. -/
theorem test_clear : summary .reqClear readyState = long 0x0#4 0x1#4 := by decide +kernel

/-- V-CMD-1. -/
theorem test_return_home : summary .reqReturnHome readyState = long 0x0#4 0x2#4 := by decide +kernel

/-- V-CMD-2: direction is bit 1, shift bit 0. -/
theorem test_set_entry_mode : summary (.reqSetEntryMode true false) readyState = short .command 0x0#4 0x6#4 := by
  decide +kernel

/-- V-CMD-3: cursor is bit 1. -/
theorem test_set_display : summary (.reqSetDisplay false true false) readyState = short .command 0x0#4 0xA#4 := by
  decide +kernel

/-- V-CMD-4. -/
theorem test_shift : summary (.reqShift true false) readyState = short .command 0x1#4 0x8#4 := by decide +kernel

/-- V-CMD-5. -/
theorem test_set_function : summary (.reqSetFunction false false true) readyState = short .command 0x2#4 0x4#4 := by
  decide +kernel

/-- V-CMD-5, V-ERR-2: the bus width is checked before the pair, the driver state before both. -/
theorem test_set_function_order : summary (.reqSetFunction true true true) readyState = onlyResponse 0x09#8
    ∧ summary (.reqSetFunction true true true) State.reset = onlyResponse 0x72#8 := by decide

/-- S1. -/
theorem test_set_cgram : summary (.reqSetCgramAddress 70#8) readyState = short .command 0x4#4 0x6#4 := by decide +kernel

/-- S2. -/
theorem test_set_ddram : summary (.reqSetDdramAddress 200#8) readyState = short .command 0xC#4 0x8#4 := by decide +kernel

/-- V-CMD-8: the byte 0x01 with RS = Data has the short delay. -/
theorem test_write_char : summary (.reqWriteChar 0x01#8) readyState = short .data 0x0#4 0x1#4 := by decide +kernel

/-- V-ERR-3. -/
theorem test_reserved : summary .reserved11 State.reset = onlyResponse 0xB3#8
    ∧ summary .reserved12 readyState = onlyResponse 0xC3#8 ∧ summary .reserved13 readyState = onlyResponse 0xD3#8
    ∧ summary .reserved14 readyState = onlyResponse 0xE3#8 ∧ summary .reserved15 readyState = onlyResponse 0xF3#8 := by
  decide

/-- R72, R73: the bus byte rows, operands and don't-care bits as given. -/
theorem test_bus_bytes : summary .busClear readyState = long 0x0#4 0x1#4
    ∧ summary (.busReturnHome 1#1) readyState = long 0x0#4 0x3#4
    ∧ summary (.busEntryMode false true) readyState = short .command 0x0#4 0x5#4
    ∧ summary (.busDisplay true true false) readyState = short .command 0x0#4 0xE#4 := by decide +kernel

/-- R72, R73: the other bus byte rows. -/
theorem test_bus_bytes_2 : summary (.busShift true false 1#2) readyState = short .command 0x1#4 0x9#4
    ∧ summary (.busFunction true false true 2#2) readyState = short .command 0x3#4 0x6#4
    ∧ summary (.busCgramAddr 63#6) readyState = short .command 0x7#4 0xF#4
    ∧ summary (.busDdramAddr 64#7) readyState = short .command 0xC#4 0x0#4
    ∧ summary (.busData 0xF0#8) readyState = short .data 0xF#4 0x0#4 := by decide +kernel

/-- An engine in the middle of the recovery sequence. -/
def recoveringState : State := { readyState with drv := .initializing }

/-- R78, V-NT-1: a recovery nibble while `drv = Initializing`, with no response. -/
theorem test_recovery_nibbles : summary .nibbleReset recoveringState = ([], [record .command 3#4], 52000, 11)
    ∧ summary .nibbleFourBit recoveringState = ([], [record .command 2#4], 52000, 11) := by decide +kernel

/-- R54, R55: no single nibble in `Ready` or `Uninitialized`. -/
theorem test_no_single_nibble : summary .nibbleReset readyState = onlyResponse 0x02#8
    ∧ summary .nibbleFourBit State.reset = onlyResponse 0x02#8 := by decide

/-- R112: the byte view pairs records, and there is none of a record left over or of two register selects. -/
theorem test_byte_view :
    byteView [record .command 2#4, record .command 8#4, record .data 4#4, record .data 1#4]
      = some [(.command, 0x28#8), (.data, 0x41#8)]
    ∧ byteView [record .data 4#4] = none ∧ byteView [record .command 4#4, record .data 1#4] = none := by decide

/-! ## Programs, construction, inputs -/

/-- P1. -/
def programP1 : List String :=
  ["construct lines=2, font=5x8, cols=16, rows=2", "initialize ; 0x0000", "set_display on, nocursor, noblink",
    "write_char 'H'", "write_char 'i'"]

/-- P1 as text, run from reset: 213 events, the delay sum, and the responses. -/
theorem test_program_p1 :
    (match Host.Core.run core 5 { State.reset with inbox := (assembleText programP1).getD [] } with
      | .next t => (t.trace.length, delaySum t.trace, t.drv, t.responses.map Response.word)
      | .fault _ => (0, 0, .initializing, [])
      | .refused _ => (0, 0, .initializing, []))
      = (213, 23636000, .ready, [0x00#8, 0x00#8, 0x00#8, 0x00#8]) := by decide +kernel

/-- V-ERR-1. -/
theorem test_construct_illegal :
    (match step { State.reset with inbox := [.construct ⟨.two, .f5x10, 16#8, 2#8⟩ Tim.default] } with
      | .next t => (t.responses.map Response.word, t.trace)
      | .fault _ => ([], [])
      | .refused _ => ([], [])) = ([0x05#8], []) := by decide +kernel

/-- P4, three lines of text. -/
theorem test_assemble : assembleText ["construct lines=1, font=5x10, cols=16, rows=1", "send_byte 0x01, cmd",
      "write_char 'A'  ; 0x041A"]
    = some [.construct ⟨.one, .f5x10, 16#8, 1#8⟩ Tim.default, .word (.request 0x0011#15),
        .word (.request 0x041A#15)] := by decide +kernel

/-! ## The reference receiver -/

/-- V-RX-1: the modes of the four recovery nibbles from `M4L(5)`. -/
theorem test_rx_1 :
    let r0 := { rxAtRest with mode := .m4l 5#4 }
    let r1 := r0.latch 10000000 .command 3#4 lowDraws
    let r2 := r1.latch 20000000 .command 3#4 lowDraws
    let r3 := r2.latch 30000000 .command 3#4 lowDraws
    let r4 := r3.latch 40000000 .command 2#4 lowDraws
    [r1.mode, r2.mode, r3.mode, r4.mode] = [.m4h, .m4l 3#4, .m8, .m4h] := by decide +kernel

/-- V-RX-2: two `0x3` nibbles only. -/
theorem test_rx_2 :
    let r0 := { rxAtRest with mode := .m4l 5#4 }
    let r1 := r0.latch 10000000 .command 3#4 lowDraws
    let r2 := r1.latch 20000000 .command 3#4 lowDraws
    let r3 := r2.latch 30000000 .command 2#4 lowDraws
    [r1.mode, r2.mode, r3.mode] = [.m4h, .m4l 3#4, .m8] := by decide +kernel

/-- R211: a data write stores at AC and steps it, up and down. -/
theorem test_rx_write : (rxAtRest.dataWrite 0x48#8 lowDraws).ddram = [(0, 0x48#8)]
    ∧ (rxAtRest.dataWrite 0x48#8 lowDraws).ac = 1#7
    ∧ ({ rxAtRest with ac := 9#7, space := .cgram, increment := false }.dataWrite 0x0E#8 lowDraws).cgram = [(9, 0x0E#8)]
    ∧ ({ rxAtRest with ac := 9#7, space := .cgram, increment := false }.dataWrite 0x0E#8 lowDraws).ac = 8#7 := by
  decide

/-- U11: with a don't-care bit set the response is the drawn one, but for the mode, N and F (R206) and the busy time (R212);
0x00 leaves the whole drawn state. -/
theorem test_dont_care :
    let d := { lowDraws with anyRx := { rxAtRest with mode := .m8, busyUntil := 5, ac := 9#7, twoLines := false } }
    let r := fun b => Rx.execute 100 .command b d { rxAtRest with ac := 3#7 }
    ((r 0x03#8).ac, (r 0x03#8).mode, (r 0x03#8).busyUntil) = (9#7, .m4h, 1520100)
    ∧ ((r 0x02#8).ac, (r 0x11#8).ac, (r 0x21#8).ac, (r 0x20#8).ac) = (0#7, 9#7, 9#7, 3#7)
    ∧ ((r 0x2B#8).mode, (r 0x2B#8).twoLines, (r 0x2B#8).busyUntil) = (.m4h, true, 37100)
    ∧ ((r 0x00#8).ac, (r 0x00#8).mode, (r 0x00#8).busyUntil) = (9#7, .m8, 5) := by decide +kernel

/-- R207, U12: a latch while busy leaves the drawn state, of a desynchronized receiver too. -/
theorem test_latch_while_busy :
    let d := { lowDraws with anyRx := { rxAtRest with mode := .m8, busyUntil := 99000000 } }
    ({ rxAtRest with busyUntil := 200 }.latch 100 .command 2#4 d).busyUntil = 99000000
    ∧ ({ rxAtRest with busyUntil := 200 }.latchDesynchronized 100 2#4 d).busyUntil = 99000000 := by decide +kernel

/-- R210: a pulse of 450 ns after a set-up of 40 ns is long enough, one nanosecond less of either is not. -/
theorem test_pulse_ok : PinTimes.pulseOk { address := 100, enable := 140 } 590 = true
    ∧ PinTimes.pulseOk { address := 101, enable := 140 } 590 = false
    ∧ PinTimes.pulseOk { address := 100, enable := 140 } 589 = false := by decide

/-- R267 (a), R204: a stray pulse makes a receiver that expects a high nibble expect a low one; nothing is emitted. -/
theorem test_stray_pulse :
    (match step { readyState with inbox := [.strayPulse] } with
      | .next t => (match t.rx.mode with | .m4l _ => true | .m4h => false | .m8 => false, t.trace, t.drv)
      | .fault _ => (false, [], .uninitialized)
      | .refused _ => (false, [], .uninitialized)) = (true, [], .ready) := by decide +kernel

/-- R267 (b): FUNCTION with DL = 1 is sent (V-SB-4), and the byte after it is a later byte; other bytes are no hazard. -/
theorem test_function_dl_hazard :
    (after (.reqSendByte 0x30#8 .command) readyState).sync = .leaving
    ∧ (after (.reqSendByte 0x2F#8 .command) readyState).sync = .held
    ∧ (after (.reqSendByte 0x30#8 .data) readyState).sync = .held
    ∧ (after .reqClear (after (.reqSendByte 0x30#8 .command) readyState)).sync = .lost := by decide +kernel

/-- R267: a lost transaction desynchronizes at its falling edge; `initialize` of a new engine ends that (R254). -/
theorem test_lost_until_initialize :
    (after .reqClear { readyState with losing := true }).sync = .lost
    ∧ (after .reqInitialize readyState).sync = .held
    ∧ (after .reqInitialize { freshState with sync := .lost }).sync = .held := by decide +kernel

/-- U17: in `M8`, the nibble of the byte 0x12 does not bring a desynchronized receiver back to 4-bit mode: the drawn state
is M8 here, where R203 and R206 would give M4H for FUNCTION with DL = 0. -/
theorem test_misread :
    let d := { lowDraws with anyRx := { rxAtRest with mode := .m8, busyUntil := 2000000 } }
    ({ rxAtRest with mode := .m8 }.latch 100 .command 0x2#4 d).mode = .m4h
    ∧ ({ rxAtRest with mode := .m8 }.latchDesynchronized 100 0x2#4 d).mode = .m8
    ∧ ({ rxAtRest with mode := .m8 }.latchDesynchronized 100 0x2#4 d).busyUntil = 1520100
    ∧ (rxAtRest.latchDesynchronized 100 0x2#4 d).mode = .m4l 0x2#4 := by decide +kernel

/-- Writing what an unlisted address reads as removes the entry, so equal memories are equal lists. -/
theorem test_mem_canonical : Mem.write (Mem.write (Mem.write [] 5 0x41#8) 2 0x42#8) 5 0x20#8 = [(2, 0x42#8)] := by decide

/-- The receiver's memories are canonical at reset, whatever the drawn power-on state. -/
theorem test_reset_mem : State.reset.rx.memWf = true := Rx.memWf_ofDraw _

/-! ## Witnesses: a concrete state and operands that meet the hypotheses of each statement -/

/-- A state with an input presented. -/
def given (s : State) (g : Grain) (inbox : List HostInput) : State := { s with grain := g, inbox := inbox }

theorem after_eq {i : Instr} {s : State} : exec i s = .next (after i s) := by
  obtain ⟨t, ht⟩ := exec_next i s
  simp [after, ht]

/-- ConstructionLeavesFreshEngine: the other legal pairs, in `Ready`. -/
theorem witness_construction :
    (given readyState .whole [.construct ⟨.one, .f5x10, 8#8, 1#8⟩ Tim.default]).phase = .idle
    ∧ (given readyState .whole [.construct ⟨.one, .f5x10, 8#8, 1#8⟩ Tim.default]).inbox
      = .construct ⟨.one, .f5x10, 8#8, 1#8⟩ Tim.default :: []
    ∧ ¬(LineCount.one = .two ∧ Font.f5x10 = .f5x10) := by decide

/-- IllegalConstructionIsRefused. -/
theorem witness_illegal_construction :
    (given readyState .whole [.construct ⟨.two, .f5x10, 16#8, 2#8⟩ Tim.default]).phase = .idle
    ∧ (given readyState .whole [.construct ⟨.two, .f5x10, 16#8, 2#8⟩ Tim.default]).inbox
      = .construct ⟨.two, .f5x10, 16#8, 2#8⟩ Tim.default :: [] := by decide

theorem readyState_inv : readyState.Inv := by
  refine ⟨?_, ?_, ?_, ?_, ?_, ?_⟩ <;> decide

theorem freshState_inv : freshState.Inv := by
  refine ⟨?_, ?_, ?_, ?_, ?_, ?_⟩ <;> decide

/-- The engine in the middle of `clear`, in micro-steps. -/
def midClear : State :=
  accept (planOf .reqClear { readyState with grain := .event }) { readyState with grain := .event }

/-- The engine that has accepted `initialize` and is about to emit the last event of step 5. -/
def lastOfStep5 : State :=
  { freshState with
    grain := .event, drv := .initializing, lv := readyState.lv
    phase := .busy 51 ((initEvents Tim.default Cfg.construction).drop 51) [(0, .initializing), (52, .ready)] (some .ok) }

theorem lastOfStep5_inv : lastOfStep5.Inv := by
  refine ⟨?_, ?_, ?_, ?_, ?_, ?_⟩ <;> decide +kernel

/-- StepKeepsInvariant: between requests, and in the middle of one. -/
theorem witness_invariant : (readyState.Inv ∧ step readyState = .next readyState)
    ∧ (lastOfStep5.Inv ∧ step lastOfStep5 = .next (microStep lastOfStep5)) :=
  ⟨⟨readyState_inv, rfl⟩, lastOfStep5_inv, rfl⟩

/-- DriverStateTransitions, first clause: the step in which `drv` becomes `Ready`. -/
theorem witness_transition_event : lastOfStep5.Inv ∧ lastOfStep5.noConstruction ∧ lastOfStep5.grain = .event
    ∧ step lastOfStep5 = .next (microStep lastOfStep5) ∧ (microStep lastOfStep5).drv = .ready :=
  ⟨lastOfStep5_inv, by simp [State.noConstruction, lastOfStep5, freshState, State.reset], rfl, rfl, by decide +kernel⟩

/-- DriverStateTransitions, second clause: a whole `initialize`. -/
theorem witness_transition_whole :
    let s := given freshState .whole [.word (.request 0x0000#15)]
    s.Inv ∧ s.noConstruction ∧ s.phase = .idle ∧ s.grain = .whole
      ∧ step s = .next (after .reqInitialize { s with inbox := [] }) := by
  refine ⟨?_, ?_, rfl, rfl, ?_⟩
  · refine ⟨?_, ?_, ?_, ?_, ?_, ?_⟩ <;> decide
  · simp [State.noConstruction, given]
  · exact after_eq (i := .reqInitialize)

/-- KnownLinesStayKnown. -/
theorem witness_known_lines : midClear.noConstruction ∧ midClear.lv.known = true
    ∧ step midClear = .next (microStep midClear) :=
  ⟨by simp [State.noConstruction, midClear, accept, planOf, planReqClear, bytePlan, readyState, settle, byteEvents,
    nibbleEvents], by decide, rfl⟩

/-- StepRunsDecodedInstruction, both clauses: `write_char 0xFF`. -/
theorem witness_step_runs :
    (given readyState .whole [.word (.request 0x0FFA#15)]).phase = .idle
    ∧ (given readyState .whole [.word (.request 0x0FFA#15)]).grain = .whole
    ∧ (given readyState .event [.word (.request 0x0FFA#15)]).grain = .event
    ∧ decode (.request 0x0FFA#15) = .ok (.reqWriteChar 0xFF#8) := by decide

/-- IdleEngineWaits. -/
theorem witness_idle : readyState.phase = .idle ∧ readyState.inbox = [] := by decide

/-- OtherAgentsAreRefused: both clauses, with a request in progress too. -/
theorem witness_other_agents :
    (given readyState .whole [.foreignDrive .en .high]).inbox = .foreignDrive .en .high :: []
    ∧ (given midClear .event [.secondRequester 0x0002#15]).inbox = .secondRequester 0x0002#15 :: []
    ∧ (given { midClear with lv := { midClear.lv with en := .high } } .event [.strayPulse]).inbox = .strayPulse :: []
    ∧ { midClear with lv := { midClear.lv with en := .high } }.lv.en = .high := by decide

/-- A ready engine whose receiver is desynchronized and in 8-bit mode. -/
def astrayState : State := { readyState with rx := { rxAtRest with mode := .m8 }, sync := .lost }

/-- A ready engine with a stray pulse presented and the receiver `r`. -/
def strayAt (r : Rx) (y : Sync) : State := given { readyState with rx := r, sync := y } .whole [.strayPulse]

/-- StrayPulseShiftsPhase, clause by clause: a receiver in each mode, one that is desynchronized, and two at the boundary of
the time the pulse ends at, free just then and busy one nanosecond longer. -/
theorem witness_stray_pulse_clauses :
    (∀ r y, (strayAt r y).inbox = .strayPulse :: [] ∧ (strayAt r y).lv.en ≠ .high
      ∧ step (strayAt r y) = .next (strayPulse { strayAt r y with inbox := [] })
      ∧ (strayPulse { strayAt r y with inbox := [] }).clock = Config.overshoot 0)
    ∧ (strayAt rxAtRest .held).rx.mode = .m4h ∧ (strayAt rxAtRest .held).sync ≠ .lost
    ∧ (strayAt { rxAtRest with mode := .m4l 15#4 } .held).rx.mode = .m4l 15#4
    ∧ (strayAt { rxAtRest with mode := .m8 } .leaving).rx.mode = .m8 ∧ (strayAt rxAtRest .leaving).sync ≠ .lost
    ∧ (strayAt { rxAtRest with mode := .m8 } .lost).sync = .lost
    ∧ (strayAt { rxAtRest with mode := .m8 } .lost).rx.mode ≠ .m4h
    ∧ (strayAt { rxAtRest with busyUntil := Config.overshoot 0 } .held).rx.busyUntil ≤ Config.overshoot 0
    ∧ Config.overshoot 0 < (strayAt { rxAtRest with busyUntil := Config.overshoot 0 + 1 } .held).rx.busyUntil :=
  ⟨fun r y => ⟨rfl, by simp [strayAt, given, readyState], rfl, by simp [strayPulse, strayAt, given, readyState]⟩,
    rfl, by decide, rfl, rfl, by decide, rfl, by decide, Nat.le_refl _, Nat.lt_succ_self _⟩

/-- StrayPulseShiftsPhase: both modes, between requests and in the middle of one, and a receiver that is desynchronized
already. -/
theorem witness_stray_pulse :
    (given readyState .whole [.strayPulse]).inbox = .strayPulse :: [] ∧ readyState.lv.en ≠ .high
    ∧ readyState.rx.busyUntil ≤ readyState.clock ∧ readyState.rx.mode = .m4h
    ∧ (given midClear .event [.strayPulse]).inbox = .strayPulse :: [] ∧ midClear.lv.en ≠ .high
    ∧ ({ readyState with rx := { rxAtRest with mode := .m4l 15#4 } } : State).rx.mode = .m4l 15#4
    ∧ readyState.sync ≠ .lost ∧ astrayState.sync = .lost ∧ astrayState.rx.mode ≠ .m4h := by decide

/-- The default record meets every condition of R210, whatever the latency of the adapter. -/
theorem default_covers : Tim.default.covers := ⟨by decide, fun n => by simp [Tim.default, Rx.addressSetUp]; omega⟩

/-- A record with `T_AS = 0` meets them when every event takes at least the set-up time. -/
theorem covers_of_latency (h : ∀ n, Rx.addressSetUp ≤ Config.overshoot n) :
    ({ Tim.default with tAs := 0 } : Tim).covers := ⟨by decide, fun n => by simpa using h n⟩

/-- LostTransactionShiftsPhase, both clauses. -/
theorem witness_lost_transaction :
    (given readyState .whole [.loseTransaction]).inbox = .loseTransaction :: []
    ∧ ({ readyState with losing := true } : State).losing = true ∧ readyState.rx.mode = .m4h
    ∧ readyState.rx.busyUntil ≤ readyState.clock ∧ readyState.tim.covers :=
  ⟨rfl, rfl, rfl, by decide, default_covers⟩

/-- DesynchronizationLasts, every clause: a step of a desynchronized machine, the `initialize` of a new engine, FUNCTION with
DL = 1 at both ends of its range, a stray pulse, a presented loss and a lost nibble. -/
theorem witness_desynchronization :
    astrayState.sync ≠ .held ∧ step (given astrayState .whole []) = .next (given astrayState .whole [])
    ∧ (given { freshState with sync := .lost } .whole [.word (encode .reqInitialize)]).sync = .lost
    ∧ (given { freshState with sync := .lost } .whole [.word (encode .reqInitialize)]).drv = .uninitialized
    ∧ decode (encode .reqInitialize) = .ok .reqInitialize
    ∧ readyState.drv = .ready ∧ (0x30#8 : Byte).extractLsb' 4 4 = 0x3#4 ∧ (0x3F#8 : Byte).extractLsb' 4 4 = 0x3#4
    ∧ freshState.losing = false
    ∧ (given readyState .whole [.strayPulse]).inbox = .strayPulse :: [] ∧ readyState.lv.en ≠ .high
    ∧ (given readyState .whole [.loseTransaction]).inbox = .loseTransaction :: []
    ∧ ({ readyState with losing := true } : State).losing = true :=
  ⟨by decide, rfl, rfl, rfl, rfl, rfl, by decide, by decide, rfl, rfl, by decide, rfl, rfl⟩

/-- DesynchronizedReceiverReadsAnyValue: a nibble in 8-bit mode, and a byte to a receiver that expects a high nibble. -/
theorem witness_any_value :
    astrayState.sync = .lost ∧ astrayState.rx.mode ≠ .m4h
    ∧ ({ readyState with sync := .leaving } : State).sync ≠ .held ∧ readyState.losing = false ∧ readyState.tim.covers
    ∧ readyState.rx.mode = .m4h ∧ readyState.rx.busyUntil ≤ readyState.clock
    ∧ astrayState.tim.covers ∧ astrayState.rx.busyUntil ≤ astrayState.clock :=
  ⟨rfl, by decide, by decide, rfl, default_covers, rfl, by decide, default_covers, by decide⟩

/-- DontCareBitsGiveAnyResponse: RETURN_HOME, and SHIFT and FUNCTION at both ends of their ranges. -/
theorem witness_dont_care :
    let hyp := fun b : Byte => b = 0x03#8
      ∨ (b.extractLsb' 4 4 = 0x1#4 ∨ b.extractLsb' 5 3 = 0b001#3) ∧ b.extractLsb' 0 2 ≠ 0#2
    hyp 0x03#8 ∧ hyp 0x11#8 ∧ hyp 0x1F#8 ∧ hyp 0x21#8 ∧ hyp 0x3F#8 := by decide

/-- MicroStepsRefineExec: `initialize` with a further request behind it. -/
theorem witness_micro_steps :
    let s := given freshState .event [.word (.request 0x0000#15), .word (.request 0x0002#15)]
    s.phase = .idle ∧ s.grain = .event ∧ s.inbox = .word (.request 0x0000#15) :: [.word (.request 0x0002#15)]
      ∧ oneAgent [.word (.request 0x0002#15)] ∧ decode (.request 0x0000#15) = .ok .reqInitialize
      ∧ exec .reqInitialize { s with inbox := [.word (.request 0x0002#15)], grain := .whole }
        = .next (after .reqInitialize { s with inbox := [.word (.request 0x0002#15)], grain := .whole }) :=
  ⟨rfl, rfl, rfl, by simp [oneAgent], by decide, after_eq⟩

/-- A run that answers a next state. -/
def runsOn (n : Nat) (s : State) : Bool :=
  match Host.Core.run core n s with
  | .next _ => true
  | .fault _ => false
  | .refused _ => false

/-- InitializeWalksItsStates at the last event of step 5, the first of step 7 and the last of all. -/
theorem witness_initialize_walks :
    let s := given freshState .event [.word (encode .reqInitialize)]
    s.phase = .idle ∧ s.grain = .event ∧ s.drv = .uninitialized ∧ s.inbox = [.word (encode .reqInitialize)]
      ∧ 143 < (initEvents s.tim s.cfg).length
      ∧ runsOn (1 + 51) s = true ∧ runsOn (1 + 52) s = true ∧ runsOn (1 + 143) s = true := by decide +kernel

/-- EventCounts: both clauses. -/
theorem witness_event_counts : Tim.default.tAs > 0 ∧ ({ Tim.default with tAs := 0 } : Tim).tAs = 0 := by decide

/-- The hypotheses on `drv` of SendByteResult, ClearAndReturnHomeResult, ModeDisplayShiftResult, SetFunctionResult,
AddressCommandsMask, WriteCharResult, InitializeResult, InitializeLeavesReadyBus and BusByteInstructionsTransfer. -/
theorem witness_drv : readyState.drv = .ready ∧ readyState.drv ≠ .uninitialized ∧ freshState.drv = .uninitialized
    ∧ freshState.drv ≠ .ready := by decide

/-- SetFunctionResult: a state for its first clause, one for the others, and for the last the operands 0, 1, 0. The second
is met by the operands 1, 1, 1 and the third by 0, 1, 1. -/
theorem witness_set_function : freshState.drv ≠ .ready ∧ readyState.drv = .ready
    ∧ ¬((true : Bool) = true ∧ (false : Bool) = true) := by decide

/-- BusByteInstructionsTransfer, second clause: an instruction that is a bus byte. -/
theorem witness_bus_byte : ∃ w, encode .busClear = .busByte w := ⟨0x001#9, rfl⟩

/-- ProtocolStateErrors, both clauses. -/
theorem witness_protocol_error :
    (Instr.reqWriteChar 0x41#8).isRequest = true ∧ encode (.reqWriteChar 0x41#8) = .request 0x041A#15
    ∧ Instr.reqWriteChar 0x41#8 ≠ .reqInitialize ∧ freshState.drv ≠ .ready
    ∧ Instr.isRequest .reqInitialize = true ∧ encode .reqInitialize = .request 0x0000#15
    ∧ readyState.drv ≠ .uninitialized := by decide

/-- ReservedOpsAreIllegal, second clause, at both ends of the range. -/
theorem witness_reserved : 11#4 ≤ (0x7FFB#15).extractLsb' 0 4 ∧ 11#4 ≤ (0x000F#15).extractLsb' 0 4 := by decide

/-- ErrorsChangeNothing. -/
theorem witness_errors : exec .reqClear freshState = .next (after .reqClear freshState)
    ∧ (after .reqClear freshState).responses = freshState.responses ++ [.protocolStateError 2#4]
    ∧ Response.protocolStateError 2#4 ≠ .ok :=
  ⟨after_eq, by decide, by decide⟩

/-- InstructionFrame, ElapsedTimeCoversDelays, RwIsNeverDrivenHigh, EnPulsesAreIntact: a next state and its events, of a
byte transfer and of `initialize`. -/
theorem witness_events :
    (exec .reqClear readyState = .next (after .reqClear readyState)
      ∧ (after .reqClear readyState).trace = readyState.trace ++ byteEvents Tim.default .command 0x01#8)
    ∧ exec .reqInitialize freshState = .next (after .reqInitialize freshState)
      ∧ (after .reqInitialize freshState).trace = freshState.trace ++ initEvents Tim.default Cfg.construction :=
  ⟨⟨after_eq, by decide +kernel⟩, after_eq, by decide +kernel⟩

/-- ReadyRequestsEmitPairs: in `Ready` an instruction that sends a byte and one that sends none, and outside `Ready` one that
is not `initialize`. -/
theorem witness_ready_pairs : readyState.drv = .ready
    ∧ exec .reqClear readyState = .next (after .reqClear readyState)
    ∧ (after .reqClear readyState).trace = readyState.trace ++ byteEvents Tim.default .command 0x01#8
    ∧ (after .reqInitialize readyState).trace = readyState.trace ++ []
    ∧ freshState.drv ≠ .initializing ∧ Instr.nibbleReset ≠ .reqInitialize
    ∧ exec .nibbleReset freshState = .next (after .nibbleReset freshState)
    ∧ (after .nibbleReset freshState).trace = freshState.trace ++ [] :=
  ⟨rfl, after_eq, by decide +kernel, by decide, by decide, by decide, after_eq, by decide⟩

/-- RecoveryNibblesTransact: both clauses. -/
theorem witness_recovery_nibbles : recoveringState.drv = .initializing ∧ readyState.drv ≠ .initializing := by decide

/-- InitializeRecords. -/
theorem witness_initialize_records : freshState.drv = .uninitialized ∧ freshState.lv.en ≠ .high
    ∧ exec .reqInitialize freshState = .next (after .reqInitialize freshState)
    ∧ (after .reqInitialize freshState).trace = freshState.trace ++ initEvents Tim.default Cfg.construction :=
  ⟨rfl, by decide, after_eq, by decide +kernel⟩

/-- BusBytesDecodeUniquely, second clause, at both ends. -/
theorem witness_bus_word : (0x001#9 : BusWord) ≠ 0#9 ∧ (0x1FF#9 : BusWord) ≠ 0#9 := by decide

/-- IgnoredOperandBits: every clause, bits that are ignored differing and bits that are used agreeing. -/
theorem witness_ignored_bits : (15#4 = 0#4 ∨ 15#4 = 2#4 ∨ 15#4 = 3#4 ∨ 11#4 ≤ 15#4)
    ∧ (7#3).getLsbD 0 = (1#3).getLsbD 0 ∧ (7#3).getLsbD 1 = (3#3).getLsbD 1 ∧ (7#3).getLsbD 0 = (3#3).getLsbD 0
    ∧ decodeRequest (7#3 ++ 0xFF#8 ++ 1#4) = decodeRequest (1#3 ++ 0xFF#8 ++ 1#4) := by decide

/-- EncoderSendsWellFormedBytes. -/
theorem witness_encoder : Instr.isRequest (.reqSetCgramAddress 255#8) = true
    ∧ (∀ b r, Instr.reqSetCgramAddress 255#8 ≠ .reqSendByte b r) ∧ readyState.drv = .ready
    ∧ exec (.reqSetCgramAddress 255#8) readyState = .next (after (.reqSetCgramAddress 255#8) readyState)
    ∧ (after (.reqSetCgramAddress 255#8) readyState).trace
      = readyState.trace ++ byteEvents Tim.default .command 0x7F#8
    ∧ txs readyState.lv (byteEvents Tim.default .command 0x7F#8)
      = [record .command ((0x7F#8).extractLsb' 4 4), record .command ((0x7F#8).extractLsb' 0 4)] :=
  ⟨rfl, by simp, rfl, after_eq, by decide +kernel, by decide⟩

/-- EngineIgnoresReceiverAndTime. -/
theorem witness_engine_ignores : step midClear = .next (microStep midClear) := rfl

/-- RecoveryConverges, both clauses: from `M4L(5)` at rest, nibbles 10 ms apart. -/
theorem witness_recovery :
    let r0 := { rxAtRest with mode := .m4l 5#4 }
    let r1 := r0.latch 10000000 .command 3#4 lowDraws
    let r2 := r1.latch 20000000 .command 3#4 lowDraws
    let r3 := r2.latch 30000000 .command 3#4 lowDraws
    r0.busyUntil ≤ 10000000 ∧ r1.busyUntil ≤ 20000000 ∧ r2.busyUntil ≤ 30000000 ∧ r3.busyUntil ≤ 40000000 := by
  decide +kernel

/-- InitializeBringsUpReceiver: the default timing record covers the receiver. -/
theorem witness_bring_up : freshState.drv = .uninitialized ∧ freshState.lv.en ≠ .high ∧ freshState.tim.covers
    ∧ freshState.losing = false ∧ freshState.rx.busyUntil ≤ freshState.clock + freshState.tim.tPowerOn :=
  ⟨rfl, by decide, default_covers, rfl, by decide⟩

/-- ByteIsReceivedOnce, CommandsReachReceiver, WriteCharStoresOneByte, ClearIsIdempotentAtReceiver. -/
theorem witness_rx_ready : readyState.drv = .ready ∧ readyState.rxReady = true ∧ readyState.tim.covers
    ∧ readyState.rx.memWf = true :=
  ⟨rfl, by decide, default_covers, by decide⟩

/-- ByteIsReceivedOnce: FUNCTION with DL = 1 falls under its second clause, data 0x30 and 0x00 and FUNCTION
with DL = 0 under its third, the command byte 0x00 under its fourth alone. -/
theorem witness_byte_clauses : (RegSel.command = .command ∧ (0x3F#8).extractLsb' 4 4 = 0x3#4)
    ∧ ¬(RegSel.data = .command ∧ (0x30#8).extractLsb' 4 4 = 0x3#4)
    ∧ ¬(RegSel.command = .command ∧ (0x2F#8).extractLsb' 4 4 = 0x3#4)
    ∧ ¬(RegSel.data = .command ∧ 0x00#8 = 0x00#8) ∧ ¬(RegSel.command = .command ∧ 0x2F#8 = 0x00#8)
    ∧ (RegSel.command = .command ∧ 0x00#8 = 0x00#8) ∧ ¬(RegSel.command = .command ∧ (0x00#8).extractLsb' 4 4 = 0x3#4) := by
  decide

/-- A ready state whose receiver is about to decrement a CGRAM address to 0. -/
def cgramState : State := { readyState with rx := { rxAtRest with ac := 1#7, space := .cgram, increment := false } }

/-- A ready state whose receiver is about to increment to the last DDRAM address. -/
def ddramEndState : State := { readyState with rx := { rxAtRest with ac := 126#7 } }

/-- CommandsReachReceiver and WriteCharStoresOneByte: states at the last places where AC ± 1 stays inside the space. -/
theorem witness_ac : (cgramState.drv = .ready ∧ cgramState.rxReady = true ∧ cgramState.tim.covers
      ∧ cgramState.rx.memWf = true ∧ cgramState.rx.space = .cgram ∧ cgramState.rx.increment = false
      ∧ 0#7 < cgramState.rx.ac)
    ∧ (ddramEndState.drv = .ready ∧ ddramEndState.rxReady = true ∧ ddramEndState.tim.covers
      ∧ ddramEndState.rx.memWf = true ∧ ddramEndState.rx.space = .ddram ∧ ddramEndState.rx.increment = true
      ∧ ddramEndState.rx.ac < ddramEndState.rx.space.last ∧ ddramEndState.rx.shiftOnWrite = false)
    ∧ ¬(true = true ∧ false = true) :=
  ⟨⟨rfl, by decide, default_covers, by decide⟩, ⟨rfl, by decide, default_covers, by decide⟩, by decide⟩

/-- A ready state whose receiver is at the last CGRAM address and shifts the display on a data write. -/
def cgramEndState : State :=
  { readyState with rx := { rxAtRest with ac := 63#7, space := .cgram, shiftOnWrite := true } }

/-- CommandsReachReceiver and WriteCharStoresOneByte: the clauses at both ends of a space, and S = 1. -/
theorem witness_ac_end : cgramEndState.drv = .ready ∧ cgramEndState.rxReady = true ∧ cgramEndState.tim.covers
    ∧ cgramEndState.rx.memWf = true ∧ cgramEndState.rx.shiftOnWrite = true
    ∧ (if cgramEndState.rx.increment then cgramEndState.rx.space.last ≤ cgramEndState.rx.ac
        else cgramEndState.rx.ac = 0#7)
    ∧ (if false then readyState.rx.space.last ≤ readyState.rx.ac else readyState.rx.ac = 0#7) :=
  ⟨rfl, by decide, default_covers, by decide⟩

end Sys2Proof.Tests
end

/-! PROOFS. The statements of 00_scope.md: what a step runs (R12, R26, R86), and the frame of every instruction (R7, R20-R28,
R200). -/

namespace Sys2Proof.Machine

/-! ## A step on a presented word -/

/-- In `Idle` a presented word that decodes is what the machine does next (R86). -/
theorem nextActivity_of_word {s : State} {p : PortWord} {i : Instr} {rest : List HostInput} (hidle : s.phase = .idle)
    (hinbox : s.inbox = .word p :: rest) (hdecode : decode p = .ok i) :
    nextActivity s = .run i { s with inbox := rest } := by
  simp [nextActivity, hinbox, hidle, hdecode]

/-- With one step to a request, running an instruction is its meaning (R12). -/
theorem step_of_run_whole {s s' : State} {i : Instr} (hrun : nextActivity s = .run i s') (hgrain : s'.grain = .whole) :
    step s = exec i s' := by
  simp [step, hrun, hgrain]

/-- With one step to an event, running an instruction accepts its plan (R26). -/
theorem step_of_run_event {s s' : State} {i : Instr} (hrun : nextActivity s = .run i s') (hgrain : s'.grain = .event) :
    step s = .next (accept (planOf i s') s') := by
  simp [step, hrun, hgrain]

/-- Settles O7: the word presented is taken from the inbox, and the grain says how the instruction runs. -/
theorem stepRunsDecodedInstruction : Obligations.StepRunsDecodedInstruction := by
  intro s p i rest hidle hinbox hdecode
  have hrun := nextActivity_of_word hidle hinbox hdecode
  exact ⟨step_of_run_whole hrun, step_of_run_event hrun⟩

/-! ## The frame of an instruction -/

/-- `initialize` is refused once the engine has left `Uninitialized` (R131). -/
theorem exec_initialize_refused {s : State} (hd : s.drv ≠ .uninitialized) :
    exec .reqInitialize s = .next (failed s (.protocolStateError 0#4)) := by
  have hplan : planOf .reqInitialize s = .error (.protocolStateError 0#4) := if_neg hd
  rw [exec_eq_perform, hplan, perform_error]
  rfl

/-- An error response is not the Ok of a byte transfer. -/
theorem failed_ne_transferred {r : Response} (hr : r ≠ .ok) (s : State) (rs : RegSel) (v : Byte) :
    failed s r ≠ transferred s rs v := by
  intro h
  have hresp : s.responses ++ [r] = s.responses ++ [.ok] := by
    simpa [failed, transferred] using congrArg State.responses h
  exact hr (by simpa using hresp)

/-- Only a request other than `initialize` is one byte transfer. -/
theorem ne_initialize_of_exec_transferred {i : Instr} {s : State} {rs : RegSel} {v : Byte} (hd : s.drv = .ready)
    (h : exec i s = .next (transferred s rs v)) : i ≠ .reqInitialize := by
  rintro rfl
  rw [exec_initialize_refused (by simp [hd])] at h
  exact failed_ne_transferred (by simp) s rs v (Host.Outcome.next.inj h)

/-- What an instruction leaves when it emits `es`: the request begun, its events emitted, then `drv` written and the
response returned. -/
def ran (i : Instr) (es : List BusEvent) (d : DrvState) (resp : Option Response) (s : State) : State :=
  respond (setDrv (emitAll (begun (decide (i = .reqInitialize)) es s) es) d) resp

/-- The two forms of an instruction's next state: an error, or its events emitted, with `drv` another only after
`initialize`. -/
theorem exec_failed_or_ran {i : Instr} {s t : State} (h : exec i s = .next t) :
    (∃ r, t = failed s r) ∨ ∃ es d resp, (i ≠ .reqInitialize → d = s.drv) ∧ t = ran i es d resp s := by
  rcases exec_cases h with ⟨r, -, ht⟩ | ⟨rs, v, hd, ht⟩ | ⟨n, hn, -, ht⟩ | ⟨hi, -, ht⟩
  · exact .inl ⟨r, ht⟩
  · have hi : i ≠ .reqInitialize := ne_initialize_of_exec_transferred hd (ht ▸ h)
    refine .inr ⟨byteEvents s.tim rs v, s.drv, some .ok, fun _ => rfl, ?_⟩
    rw [ht, ran, decide_eq_false hi, ← emitAll_setDrv]
    rfl
  · have hi : i ≠ .reqInitialize := by rintro rfl; cases hn
    refine .inr ⟨nibbleEvents s.tim .command n, s.drv, none, fun _ => rfl, ?_⟩
    rw [ht, ran, decide_eq_false hi, begun_nibbleEvents, ← emitAll_setDrv]
    rfl
  · exact .inr ⟨initEvents s.tim s.cfg, .ready, some .ok, fun hne => absurd hi hne, by rw [ht, ran, decide_eq_true hi]⟩

/-- Such an instruction returns at most one response. -/
theorem ran_responses_cases (i : Instr) (es : List BusEvent) (d : DrvState) (resp : Option Response) (s : State) :
    (ran i es d resp s).responses = s.responses ∨ ∃ r, (ran i es d resp s).responses = s.responses ++ [r] := by
  cases resp with
  | none => exact .inl (by simp [ran])
  | some r => exact .inr ⟨r, by simp [ran]⟩

/-- Settles O29: an error adds its response alone, and any other next state is `ran`, whose fields the rules of
Laws/State.lean give. -/
theorem instructionFrame : Obligations.InstructionFrame := by
  intro i s t h
  rcases exec_failed_or_ran h with ⟨r, rfl⟩ | ⟨es, d, resp, hdrv, rfl⟩
  · refine ⟨rfl, rfl, rfl, rfl, rfl, fun _ => rfl, [], s, ?_⟩
    simp [failed, Levels.afterAll]
  · have hdrv' : i ≠ .reqInitialize → (ran i es d resp s).drv = s.drv := fun hi => by simp [ran, hdrv hi]
    refine ⟨?_, ?_, ?_, ?_, ?_, hdrv', es, begun (decide (i = .reqInitialize)) es s, ?_, ?_, ?_, .inr rfl, ?_, ?_, ?_, ?_,
      ?_, ran_responses_cases i es d resp s⟩ <;> simp [ran]

end Sys2Proof.Machine

/-! PROOFS. The statements of 10_state.md: the register encodings (R21, R23), the line levels (R27, R28, R29), the micro-step
refinement (R26), the transitions of `drv` (R22) and the invariant that every step keeps, and what the engine does not read
(R33, R200). -/

namespace Sys2Proof.Machine

/-! ## The register encodings -/

/-- The bits of `cfg` from bit 0 up: line count, font, columns, rows. -/
theorem getLsbD_cfg_code (c : Cfg) (k : Nat) : c.code.getLsbD k =
    if k < 1 then (BitVec.ofBool c.lineCount.isTwo).getLsbD k
    else if k - 1 < 1 then (BitVec.ofBool c.font.is5x10).getLsbD (k - 1)
    else if k - 1 - 1 < 8 then c.displayColumns.getLsbD (k - 1 - 1)
    else c.displayRows.getLsbD (k - 1 - 1 - 8) := by
  refine BitVec.getLsbD_append.trans ?_
  rw [BitVec.getLsbD_append, BitVec.getLsbD_append]

/-- Settles O41: the codes are those of the definition, and each field of `cfg` is a part of the appended bits. -/
theorem registerEncodings : Obligations.RegisterEncodings := by
  refine ⟨rfl, rfl, rfl, ?_, ?_⟩
  · intro d
    cases d <;> decide
  · intro c
    refine ⟨?_, ?_, ?_, ?_⟩
    · rw [getLsbD_cfg_code]
      simp [LineCount.isTwo]
    · rw [getLsbD_cfg_code]
      simp [Font.is5x10]
    · ext k hk
      simp [getLsbD_cfg_code, hk]
    · ext k hk
      simp [getLsbD_cfg_code, hk]

/-! ## The line levels -/

/-- Driving one line leaves the others. -/
@[simp] theorem Levels.get_set (lv : Levels) (l l' : Line) (v : Level) :
    (lv.set l v).get l' = if l' = l then v else lv.get l' := by
  cases l <;> cases l' <;> rfl

/-- `known` line by line. -/
theorem Levels.known_iff {lv : Levels} : lv.known = true ↔ ∀ l, lv.get l ≠ .unknown := by
  simp only [Levels.known, Bool.and_eq_true, Bool.not_eq_true', beq_eq_false_iff_ne, and_assoc]
  constructor
  · rintro ⟨hrs, hrw, hen, h4, h5, h6, h7⟩ l
    cases l <;> assumption
  · intro h
    exact ⟨h .rs, h .rw, h .en, h .d4, h .d5, h .d6, h .d7⟩

theorem Drive.level_ne_unknown (v : Drive) : v.level ≠ .unknown := by
  cases v <;> simp [Drive.level]

/-- No event makes a known line `Unknown` (R28). -/
theorem Levels.known_after {lv : Levels} (h : lv.known = true) (e : BusEvent) : (lv.after e).known = true := by
  rw [Levels.known_iff] at h ⊢
  cases e with
  | delay d => exact h
  | setLine l v =>
    intro l'
    rw [Levels.after, Levels.get_set]
    split
    · exact v.level_ne_unknown
    · exact h l'

theorem Levels.known_afterAll {lv : Levels} (h : lv.known = true) (es : List BusEvent) :
    (lv.afterAll es).known = true := by
  induction es generalizing lv with
  | nil => exact h
  | cons e es ih => exact ih (lv.known_after h e)

/-- A nibble transaction drives every line. -/
theorem known_nibbleLevels (rs : RegSel) (n : Nibble) : (nibbleLevels rs n).known = true := by
  rw [Levels.known_iff]
  intro l
  cases l <;> simp [nibbleLevels, Levels.get, Drive.level_ne_unknown]

/-- Only an event that drives RW High makes it High. -/
theorem Levels.rw_after {lv : Levels} {e : BusEvent} (h : lv.rw ≠ .high) (he : BusEvent.setLine .rw .high ≠ e) :
    (lv.after e).rw ≠ .high := by
  cases e with
  | delay d => exact h
  | setLine l v =>
    have hget : (lv.set l v.level).rw = if Line.rw = l then v.level else lv.rw := lv.get_set l .rw v.level
    rw [Levels.after, hget]
    split
    · rename_i hl
      cases v with
      | high => exact absurd (by rw [hl]) he
      | low => simp [Drive.level]
    · exact h

theorem Levels.rw_afterAll {lv : Levels} {es : List BusEvent} (h : lv.rw ≠ .high)
    (hes : BusEvent.setLine .rw .high ∉ es) : (lv.afterAll es).rw ≠ .high := by
  induction es generalizing lv with
  | nil => exact h
  | cons e es ih =>
    rw [List.mem_cons, not_or] at hes
    exact ih (Levels.rw_after h hes.1) hes.2

/-! ## The events of an instruction -/

/-- The four lists of events that an instruction can add to the trace. -/
theorem exec_events_cases {i : Instr} {s t : State} {es : List BusEvent} (h : exec i s = .next t)
    (htrace : t.trace = s.trace ++ es) :
    es = [] ∨ (∃ rs v, es = byteEvents s.tim rs v) ∨ (∃ n, es = nibbleEvents s.tim .command n)
      ∨ es = initEvents s.tim s.cfg := by
  rcases exec_cases h with ⟨r, -, rfl⟩ | ⟨rs, v, -, rfl⟩ | ⟨n, -, -, rfl⟩ | ⟨-, -, rfl⟩
  · exact .inl (by simpa [failed] using htrace)
  · exact .inr (.inl ⟨rs, v, by simpa [transferred] using htrace.symm⟩)
  · exact .inr (.inr (.inl ⟨n, by simpa using htrace.symm⟩))
  · exact .inr (.inr (.inr (by simpa using htrace.symm)))

theorem rw_high_not_mem_byteEvents (t : Tim) (rs : RegSel) (v : Byte) :
    BusEvent.setLine .rw .high ∉ byteEvents t rs v := by
  simp [byteEvents, rw_high_not_mem_nibbleEvents]

theorem rw_high_not_mem_initEvents (t : Tim) (c : Cfg) : BusEvent.setLine .rw .high ∉ initEvents t c := by
  simp [initEvents, recoveryEvents, recoveryStates, configEvents, configStates, FsmState.events,
    rw_high_not_mem_nibbleEvents, rw_high_not_mem_byteEvents]

/-- Settles O30: RW is driven Low in every nibble transaction, and each list of events that an instruction emits is made of
nibble transactions, the pre-drive and delays. -/
theorem rwIsNeverDrivenHigh : Obligations.RwIsNeverDrivenHigh := by
  refine ⟨fun t rs n => by simp [nibbleEvents], ?_⟩
  intro i s t es h htrace
  rcases exec_events_cases h htrace with rfl | ⟨rs, v, rfl⟩ | ⟨n, rfl⟩ | rfl
  · simp
  · exact rw_high_not_mem_byteEvents s.tim rs v
  · exact rw_high_not_mem_nibbleEvents s.tim .command n
  · exact rw_high_not_mem_initEvents s.tim s.cfg

/-! ## What `initialize` leaves -/

/-- The levels after `initialize` are those of the last nibble of ENTRY_MODE, 0x6 (R140, R144). -/
theorem afterAll_initEvents (lv : Levels) (t : Tim) (c : Cfg) :
    lv.afterAll (initEvents t c) = nibbleLevels .command 0x6#4 := by
  have hlast : initEvents t c = recoveryEvents t c ++ [FsmState.cfgFunc, .cfgDoff, .cfgClr].flatMap (FsmState.events t c)
      ++ byteEvents t .command (entryModeByte true false) := by
    simp [initEvents, configEvents, configStates, FsmState.events]
  have hnibble : lowNibble (entryModeByte true false) = 0x6#4 := by decide
  rw [hlast, Levels.afterAll_append, afterAll_byteEvents, hnibble]

/-- Settles O24: the state that an admitted `initialize` answers, field by field. -/
theorem initializeLeavesReadyBus : Obligations.InitializeLeavesReadyBus := by
  intro s hd
  refine ⟨_, exec_initialize s hd, ?_, ?_, ?_, ?_, ?_, ?_, ?_, ?_, ?_⟩
  case refine_9 =>
    simp only [respond_lv, setDrv_lv, emitAll_lv, afterAll_initEvents]
    rfl
  all_goals simp

/-! ## What accepting, a micro-step and finishing leave in each field -/

section
variable (k pos : Nat) (s : State) (es : List BusEvent) (ws : List DrvWrite) (resp : Option Response) (p : Plan)

@[simp] theorem applyWrites_cfg : (applyWrites k s ws).cfg = s.cfg :=
  (congrArg State.cfg (applyWrites_eq_setDrv k s ws)).trans rfl
@[simp] theorem phase_applyWrites : (applyWrites k s ws).phase = s.phase :=
  (congrArg State.phase (applyWrites_eq_setDrv k s ws)).trans rfl
@[simp] theorem applyWrites_lv : (applyWrites k s ws).lv = s.lv :=
  (congrArg State.lv (applyWrites_eq_setDrv k s ws)).trans rfl
@[simp] theorem applyWrites_rx : (applyWrites k s ws).rx = s.rx :=
  (congrArg State.rx (applyWrites_eq_setDrv k s ws)).trans rfl
@[simp] theorem applyWrites_inbox : (applyWrites k s ws).inbox = s.inbox :=
  (congrArg State.inbox (applyWrites_eq_setDrv k s ws)).trans rfl
@[simp] theorem applyWrites_trace : (applyWrites k s ws).trace = s.trace :=
  (congrArg State.trace (applyWrites_eq_setDrv k s ws)).trans rfl

@[simp] theorem settle_drv : (settle pos es ws resp s).drv = s.drv := by cases es <;> simp [settle]
@[simp] theorem settle_cfg : (settle pos es ws resp s).cfg = s.cfg := by cases es <;> simp [settle]
@[simp] theorem settle_lv : (settle pos es ws resp s).lv = s.lv := by cases es <;> simp [settle]
@[simp] theorem settle_rx : (settle pos es ws resp s).rx = s.rx := by cases es <;> simp [settle]
@[simp] theorem settle_inbox : (settle pos es ws resp s).inbox = s.inbox := by cases es <;> simp [settle]
@[simp] theorem settle_trace : (settle pos es ws resp s).trace = s.trace := by cases es <;> simp [settle]

@[simp] theorem accept_cfg : (accept p s).cfg = s.cfg := by cases p <;> simp [accept, raise]
@[simp] theorem accept_lv : (accept p s).lv = s.lv := by cases p <;> simp [accept, raise]
@[simp] theorem accept_rx : (accept p s).rx = s.rx := by cases p <;> simp [accept, raise]
@[simp] theorem accept_inbox : (accept p s).inbox = s.inbox := by cases p <;> simp [accept, raise]
@[simp] theorem accept_trace : (accept p s).trace = s.trace := by cases p <;> simp [accept, raise]

@[simp] theorem runEvents_cfg : (runEvents ws k s es).cfg = s.cfg :=
  (congrArg State.cfg (runEvents_eq_setDrv ws k s es)).trans (by simp)
@[simp] theorem runEvents_lv : (runEvents ws k s es).lv = s.lv.afterAll es :=
  (congrArg State.lv (runEvents_eq_setDrv ws k s es)).trans (by simp)
@[simp] theorem runEvents_trace : (runEvents ws k s es).trace = s.trace ++ es :=
  (congrArg State.trace (runEvents_eq_setDrv ws k s es)).trans (by simp)
@[simp] theorem runEvents_rx : (runEvents ws k s es).rx = (emitAll s es).rx :=
  (congrArg State.rx (runEvents_eq_setDrv ws k s es)).trans rfl
@[simp] theorem phase_runEvents : (runEvents ws k s es).phase = s.phase :=
  (congrArg State.phase (runEvents_eq_setDrv ws k s es)).trans (by simp)

end

theorem State.pending_of_idle {s : State} (h : s.phase = .idle) : s.pending = [] := by
  simp [State.pending, h]

theorem State.finished_of_idle {s : State} (h : s.phase = .idle) : s.finished = s := by
  simp [State.finished, h]

theorem State.pending_of_busy {s : State} {pos : Nat} {rest : List BusEvent} {ws : List DrvWrite}
    {resp : Option Response} (h : s.phase = .busy pos rest ws resp) : s.pending = rest := by
  simp [State.pending, h]

theorem State.finished_of_busy {s : State} {pos : Nat} {rest : List BusEvent} {ws : List DrvWrite}
    {resp : Option Response} (h : s.phase = .busy pos rest ws resp) :
    s.finished = respond { runEvents ws pos s rest with phase := .idle } resp := by
  simp [State.finished, h]

section
variable (s : State)

@[simp] theorem finished_cfg : s.finished.cfg = s.cfg := by
  cases hp : s.phase with
  | idle => rw [s.finished_of_idle hp]
  | busy pos rest ws resp => simp [s.finished_of_busy hp]

@[simp] theorem finished_phase : s.finished.phase = .idle := by
  cases hp : s.phase with
  | idle => rw [s.finished_of_idle hp, hp]
  | busy pos rest ws resp => simp [s.finished_of_busy hp]

/-- Finishing a request emits the events still pending. -/
theorem finished_lv : s.finished.lv = s.lv.afterAll s.pending := by
  cases hp : s.phase with
  | idle => rw [s.finished_of_idle hp, s.pending_of_idle hp]; rfl
  | busy pos rest ws resp => simp [s.finished_of_busy hp, s.pending_of_busy hp]

theorem finished_trace : s.finished.trace = s.trace ++ s.pending := by
  cases hp : s.phase with
  | idle => simp [s.finished_of_idle hp, s.pending_of_idle hp]
  | busy pos rest ws resp => simp [s.finished_of_busy hp, s.pending_of_busy hp]

theorem finished_rx : s.finished.rx = (emitAll s s.pending).rx := by
  cases hp : s.phase with
  | idle => rw [s.finished_of_idle hp, s.pending_of_idle hp]; rfl
  | busy pos rest ws resp => simp [s.finished_of_busy hp, s.pending_of_busy hp]

end

/-- A request that is accepted or goes on has an event left to emit, or the engine is `Idle` (R26). -/
def State.progressing (s : State) : Prop := s.pending = [] → s.phase = .idle

section
variable (pos : Nat) (s : State) (es : List BusEvent) (ws : List DrvWrite) (resp : Option Response)

@[simp] theorem pending_settle : (settle pos es ws resp s).pending = es := by
  cases es with
  | nil => exact State.pending_of_idle (by simp [settle])
  | cons e es => rfl

theorem progressing_settle : (settle pos es ws resp s).progressing := by
  intro h
  rw [pending_settle] at h
  subst h
  simp [settle]

theorem drvPlanOk_settle : (settle pos es ws resp s).drvPlanOk = drvPathOk ws pos s.drv es := by
  cases es with
  | nil => cases resp <;> rfl
  | cons e es => rfl

end

/-- A micro-step with an event left (R26). -/
theorem microStep_of_event {s : State} {pos : Nat} {e : BusEvent} {es : List BusEvent} {ws : List DrvWrite}
    {resp : Option Response} (h : s.phase = .busy pos (e :: es) ws resp) :
    microStep s = settle (pos + 1) es ws resp (applyWrites (pos + 1) (emit s e) ws) := by
  simp [microStep, h]

/-- A micro-step with no event left returns to `Idle`. -/
theorem microStep_of_no_event {s : State} {pos : Nat} {ws : List DrvWrite} {resp : Option Response}
    (h : s.phase = .busy pos [] ws resp) : microStep s = settle pos [] ws resp s := by
  simp [microStep, h]

/-! ## The micro-step reading (R26) -/

/-- Executing an instruction is finishing what accepting it begins. -/
theorem exec_eq_finished_accept (i : Instr) {s : State} (hidle : s.phase = .idle) :
    exec i s = .next (accept (planOf i s) s).finished := by
  rw [exec_eq_perform]
  cases planOf i s with
  | error r => rw [perform_error, accept, State.finished_of_idle (by simpa [raise] using hidle)]
  | run es ws resp =>
    generalize hend : runEvents ws 0 (applyWrites 0 (begun (initializes ws) es s) ws) es = u
    have hphase : u.phase = .idle := by simp [← hend, hidle]
    rw [accept, finished_settle, perform, hend, ← hphase]

theorem progressing_accept (p : Plan) {s : State} (hidle : s.phase = .idle) : (accept p s).progressing := by
  cases p with
  | error r => exact fun _ => by simpa [accept, raise] using hidle
  | run es ws resp => exact progressing_settle 0 _ es ws resp

/-- A request in progress goes on while no other agent acts. -/
theorem step_of_busy {s : State} {pos : Nat} {rest : List BusEvent} {ws : List DrvWrite} {resp : Option Response}
    (h : s.phase = .busy pos rest ws resp) (hagent : oneAgent s.inbox) : step s = .next (microStep s) := by
  obtain ⟨hforeign, hsecond, hstray, hlose⟩ := hagent
  have hmicro : nextActivity s = .micro := by
    unfold nextActivity
    cases hi : s.inbox with
    | nil => simp [h]
    | cons x inbox =>
      cases x with
      | word p => simp [h]
      | construct c t => simp [h]
      | foreignDrive l v => exact absurd (by simp [hi]) (hforeign l v)
      | strayPulse => exact absurd (by simp [hi]) hstray
      | loseTransaction => exact absurd (by simp [hi]) hlose
      | secondRequester w => exact absurd (by simp [hi]) (hsecond w)
  simp [step, hmicro]

theorem run_succ_of_step {s t : State} (h : step s = .next t) (n : Nat) :
    Host.Core.run core (n + 1) s = Host.Core.run core n t := by
  have hcore : core.step s = .next t := h
  simp only [Host.Core.run, hcore]

/-- One step for each pending event finishes the request in progress. -/
theorem run_pending {s : State} (hagent : oneAgent s.inbox) (hprog : s.progressing) :
    Host.Core.run core s.pending.length s = .next s.finished := by
  generalize hes : s.pending = es
  induction es generalizing s with
  | nil => rw [State.finished_of_idle (hprog hes)]; rfl
  | cons e es ih =>
    cases hp : s.phase with
    | idle => simp [State.pending_of_idle hp] at hes
    | busy pos rest ws resp =>
      obtain rfl : rest = e :: es := (State.pending_of_busy hp).symm.trans hes
      have hmicro := microStep_of_event hp
      rw [List.length_cons, run_succ_of_step (step_of_busy hp hagent), ← finished_microStep s]
      refine ih ?_ ?_ ?_ <;> rw [hmicro]
      · simpa using hagent
      · exact progressing_settle (pos + 1) _ es ws resp
      · exact pending_settle ..

/-- The due writes do not read the grain. -/
theorem applyWrites_grain (k : Nat) (s : State) (g : Grain) (ws : List DrvWrite) :
    applyWrites k { s with grain := g } ws = { applyWrites k s ws with grain := g } := by
  rw [applyWrites_eq_setDrv k s, applyWrites_eq_setDrv k { s with grain := g }, drv_applyWrites, drv_applyWrites]
  rfl

/-- Running events does not read the grain. -/
theorem runEvents_grain (ws : List DrvWrite) (k : Nat) (s : State) (g : Grain) (es : List BusEvent) :
    runEvents ws k { s with grain := g } es = { runEvents ws k s es with grain := g } := by
  induction es generalizing k s with
  | nil => rfl
  | cons e es ih =>
    have he : emit { s with grain := g } e = { emit s e with grain := g } := rfl
    simp only [runEvents, he, applyWrites_grain, ih]

/-- The plan of an instruction does not depend on the grain. -/
theorem planOf_grain (i : Instr) (s : State) (g : Grain) : planOf i { s with grain := g } = planOf i s := by
  cases i <;> rfl

/-- Executing an instruction does not read the grain. -/
theorem exec_grain {i : Instr} {s t : State} (g : Grain) (h : exec i s = .next t) :
    exec i { s with grain := g } = .next { t with grain := g } := by
  rw [exec_eq_perform] at h ⊢
  rw [planOf_grain]
  cases hp : planOf i s with
  | error r =>
    rw [hp] at h
    cases h
    rfl
  | run es ws resp =>
    rw [hp] at h
    cases h
    have hbegun : begun (initializes ws) es { s with grain := g } = { begun (initializes ws) es s with grain := g } := rfl
    rw [perform, hbegun, applyWrites_grain, runEvents_grain]
    cases resp <;> rfl

/-- Settles O10: accepting the instruction takes one step, each of its events one more, and the end is `finished`, which is
what `exec` answers. -/
theorem microStepsRefineExec : Obligations.MicroStepsRefineExec := by
  intro s t p i rest hidle hgrain hinbox hagent hdecode hexec
  generalize hs' : ({ s with inbox := rest } : State) = s'
  have hidle' : s'.phase = .idle := by rw [← hs']; exact hidle
  have hstep : step s = .next (accept (planOf i s') s') :=
    hs' ▸ (stepRunsDecodedInstruction s p i rest hidle hinbox hdecode).2 hgrain
  generalize ha : accept (planOf i s') s' = a at hstep
  have hfin : a.finished = { t with grain := .event } := by
    have h := exec_grain .event hexec
    have hsame : ({ s with inbox := rest, grain := .event } : State) = s' := by rw [← hs', ← hgrain]
    rw [hsame, exec_eq_finished_accept i hidle', ha] at h
    exact Host.Outcome.next.inj h
  have htrace : t.trace = s.trace ++ a.pending := by
    have ha_trace : a.trace = s.trace := by rw [← ha, accept_trace, ← hs']
    rw [← ha_trace, ← finished_trace, hfin]
  have hlength : t.trace.length - s.trace.length = a.pending.length := by simp [htrace]
  rw [hlength, ← hfin, Nat.add_comm, run_succ_of_step hstep]
  refine run_pending ?_ (ha ▸ progressing_accept _ hidle')
  rw [← ha, accept_inbox, ← hs']
  exact hagent

/-! ## Writes of `drv` -/

theorem DrvState.stepOk_iff {d d' : DrvState} : d.stepOk d' = true ↔
    d' = d ∨ (d = .uninitialized ∧ d' = .initializing) ∨ (d = .initializing ∧ d' = .ready) := by
  cases d <;> cases d' <;> decide

theorem drvPathOk_cons {ws : List DrvWrite} {k : Nat} {d : DrvState} {e : BusEvent} {es : List BusEvent} :
    drvPathOk ws k d (e :: es) = true ↔
      d.stepOk (dueDrv (k + 1) d ws) = true ∧ drvPathOk ws (k + 1) (dueDrv (k + 1) d ws) es = true := by
  rw [drvPathOk, Bool.and_eq_true]

/-- With no writes `drv` stays. -/
theorem drvPathOk_nil_writes (k : Nat) (d : DrvState) (es : List BusEvent) : drvPathOk [] k d es = true := by
  induction es generalizing k with
  | nil => rfl
  | cons e es ih => exact drvPathOk_cons.mpr ⟨DrvState.stepOk_iff.mpr (.inl rfl), ih (k + 1)⟩

/-- The writes of `initialize`, the second due after `n` events, from any position on (R132, R139). -/
theorem drvPathOk_initialize (n k : Nat) (es : List BusEvent) :
    drvPathOk [(0, .initializing), (n, .ready)] k (if k < n then .initializing else .ready) es = true := by
  induction es generalizing k with
  | nil => rfl
  | cons e es ih =>
    have hdue : dueDrv (k + 1) (if k < n then .initializing else .ready) [(0, .initializing), (n, .ready)]
        = if k + 1 < n then .initializing else .ready := by
      rcases Nat.lt_trichotomy (k + 1) n with h | h | h
      · have hk : k < n := by omega
        simp [dueDrv, h, h.ne', hk]
      · simp [dueDrv, h]
      · have hk : ¬k < n := by omega
        simp [dueDrv, h.ne, hk, h.not_gt]
    rw [drvPathOk_cons, hdue]
    refine ⟨DrvState.stepOk_iff.mpr ?_, ih (k + 1)⟩
    by_cases hk : k < n
    · by_cases hk' : k + 1 < n <;> simp [hk, hk']
    · have hk' : ¬k + 1 < n := by omega
      simp [hk, hk']

theorem recoveryEvents_length_pos (t : Tim) (c : Cfg) : 0 < (recoveryEvents t c).length := by
  simp [recoveryEvents, recoveryStates, FsmState.events]

/-- `drv` right after `initialize` is accepted (R132). -/
theorem dueDrv_initialize (t : Tim) (c : Cfg) (d : DrvState) :
    dueDrv 0 d [(0, .initializing), ((recoveryEvents t c).length, .ready)] = .initializing := by
  simp [dueDrv, (recoveryEvents_length_pos t c).ne']

/-- Accepting an instruction leaves `drv`, or begins `initialize`. -/
theorem accept_drv_cases (i : Instr) (s : State) :
    (accept (planOf i s) s).drv = s.drv
    ∨ (s.drv = .uninitialized ∧ (accept (planOf i s) s).drv = .initializing) := by
  rcases planOf_cases i s with ⟨r, -, hp⟩ | ⟨rs, v, -, hp⟩ | ⟨n, -, -, hp⟩ | ⟨-, hd, hp⟩ <;> rw [hp]
  · exact .inl (respond_drv s (some r))
  · exact .inl (by simp [accept])
  · exact .inl (by simp [accept])
  · exact .inr ⟨hd, by rw [accept, settle_drv, drv_applyWrites, dueDrv_initialize]⟩

/-- The pending writes of an accepted instruction are transitions of R22. -/
theorem drvPlanOk_accept (i : Instr) {s : State} (hidle : s.phase = .idle) :
    (accept (planOf i s) s).drvPlanOk = true := by
  rcases planOf_cases i s with ⟨r, -, hp⟩ | ⟨rs, v, -, hp⟩ | ⟨n, -, -, hp⟩ | ⟨-, hd, hp⟩ <;> rw [hp, accept]
  · simp [State.drvPlanOk, raise, hidle]
  · rw [drvPlanOk_settle, drvPathOk_nil_writes]
  · rw [drvPlanOk_settle, drvPathOk_nil_writes]
  · have hpath := drvPathOk_initialize (recoveryEvents s.tim s.cfg).length 0 (initEvents s.tim s.cfg)
    rw [if_pos (recoveryEvents_length_pos s.tim s.cfg)] at hpath
    rw [drvPlanOk_settle, drv_applyWrites, dueDrv_initialize, hpath]

/-- An instruction executed whole leaves `drv`, or takes it from `Uninitialized` to `Ready`. -/
theorem exec_drv_cases {i : Instr} {s t : State} (h : exec i s = .next t) :
    t.drv = s.drv ∨ (s.drv = .uninitialized ∧ t.drv = .ready) := by
  rcases exec_cases h with ⟨r, -, rfl⟩ | ⟨rs, v, -, rfl⟩ | ⟨n, -, -, rfl⟩ | ⟨-, hd, rfl⟩
  · exact .inl rfl
  · exact .inl (by simp [transferred])
  · exact .inl (by simp)
  · exact .inr ⟨hd, by simp⟩

/-- A micro-step whose pending writes follow R22 makes one of its transitions, or none. -/
theorem stepOk_microStep {s : State} (h : s.drvPlanOk = true) : s.drv.stepOk (microStep s).drv = true := by
  cases hp : s.phase with
  | idle => simp [microStep, hp, DrvState.stepOk_iff]
  | busy pos rest ws resp =>
    have hpath : drvPathOk ws pos s.drv rest = true := by simpa [State.drvPlanOk, hp] using h
    cases rest with
    | nil => simp [microStep_of_no_event hp, DrvState.stepOk_iff]
    | cons e es =>
      rw [microStep_of_event hp, settle_drv, drv_applyWrites]
      exact (drvPathOk_cons.mp hpath).1

/-- Settles O5: by the forms of a step, `drv` changes only in a micro-step, where the invariant says how, and in an
instruction. -/
theorem driverStateTransitions : Obligations.DriverStateTransitions := by
  intro s t hinv hnoc hstep
  obtain ⟨-, -, -, hplan, -, -⟩ := hinv
  rcases step_cases hstep with ⟨-, -, rfl⟩ | ⟨⟨pos, rest, ws, resp, hp⟩, rfl⟩ | ⟨c, tm, rest, -, hi, -⟩
    | ⟨p, rest, i, hidle, -, -, hrun⟩ | ⟨rest, -, -, rfl⟩ | ⟨rest, -, rfl⟩
  · exact ⟨fun _ => .inl rfl, fun _ _ => .inl rfl⟩
  · exact ⟨fun _ => DrvState.stepOk_iff.mp (stepOk_microStep hplan), fun hidle => by simp [hp] at hidle⟩
  · exact absurd (by simp [hi]) (hnoc c tm)
  · rcases hrun with ⟨hg, hexec⟩ | ⟨hg, rfl⟩
    · exact ⟨fun he => by simp [hg] at he, fun _ _ => exec_drv_cases (s := { s with inbox := rest }) hexec⟩
    · refine ⟨fun _ => ?_, fun _ hw => by simp [hg] at hw⟩
      rcases accept_drv_cases i { s with inbox := rest } with h | h
      · exact .inl h
      · exact .inr (.inl h)
  · exact ⟨fun _ => .inl rfl, fun _ _ => .inl rfl⟩
  · exact ⟨fun _ => .inl rfl, fun _ _ => .inl rfl⟩

/-! ## Known lines -/

theorem known_microStep {s : State} (h : s.lv.known = true) : (microStep s).lv.known = true := by
  cases hp : s.phase with
  | idle => simpa [microStep, hp] using h
  | busy pos rest ws resp =>
    cases rest with
    | nil => simpa [microStep_of_no_event hp] using h
    | cons e es => simpa [microStep_of_event hp] using Levels.known_after h e

/-- Settles O6: the levels change only by events, and every line a nibble transaction leaves is driven. -/
theorem knownLinesStayKnown : Obligations.KnownLinesStayKnown := by
  refine ⟨?_, fun lv t rs n => by rw [afterAll_nibbleEvents]; exact known_nibbleLevels rs n⟩
  intro s t hnoc hknown hstep
  rcases step_cases hstep with ⟨-, -, rfl⟩ | ⟨-, rfl⟩ | ⟨c, tm, rest, -, hi, -⟩ | ⟨p, rest, i, -, -, -, hrun⟩
    | ⟨rest, -, -, rfl⟩ | ⟨rest, -, rfl⟩
  · exact hknown
  · exact known_microStep hknown
  · exact absurd (by simp [hi]) (hnoc c tm)
  · rcases hrun with ⟨-, hexec⟩ | ⟨-, rfl⟩
    · obtain ⟨-, -, -, -, -, -, es, u, -, hlv, -⟩ := instructionFrame i _ t hexec
      rw [hlv]
      exact Levels.known_afterAll hknown es
    · rw [accept_lv]
      exact hknown
  · exact hknown
  · exact hknown

/-! ## The invariant -/

/-- `betweenOk` reads only `drv` and the levels. -/
theorem betweenOk_congr {s t : State} (hdrv : t.drv = s.drv) (hlv : t.lv = s.lv) : t.betweenOk = s.betweenOk := by
  simp [State.betweenOk, hdrv, hlv]

/-- After a nibble transaction in `Ready` the engine is properly between requests (R28, R103). -/
theorem betweenOk_of_nibbleLevels {s : State} {rs : RegSel} {n : Nibble} (hd : s.drv = .ready)
    (hlv : s.lv = nibbleLevels rs n) : s.betweenOk = true := by
  have hen : (nibbleLevels rs n).en = .low := rfl
  simp [State.betweenOk, hd, hlv, hen, known_nibbleLevels]

/-- From a proper state between requests an instruction leads to one. -/
theorem betweenOk_exec {i : Instr} {s t : State} (h : s.betweenOk = true) (hexec : exec i s = .next t) :
    t.betweenOk = true := by
  rcases exec_cases hexec with ⟨r, -, rfl⟩ | ⟨rs, v, hd, rfl⟩ | ⟨n, -, hd, -⟩ | ⟨-, -, rfl⟩
  · exact h
  · refine betweenOk_of_nibbleLevels (rs := rs) (n := lowNibble v) ?_ ?_
    · simpa [transferred] using hd
    · simp [transferred, afterAll_byteEvents]
  · simp [State.betweenOk, hd] at h
  · exact betweenOk_of_nibbleLevels (rs := .command) (n := 0x6#4) (respond_drv _ _) (by simp [afterAll_initEvents])

/-- Where `drv` ends depends only on where it starts. -/
theorem runEvents_drv_congr {s t : State} (h : t.drv = s.drv) (ws : List DrvWrite) (k : Nat) (es : List BusEvent) :
    (runEvents ws k t es).drv = (runEvents ws k s es).drv := by
  induction es generalizing k s t with
  | nil => exact h
  | cons e es ih =>
    refine ih ?_ (k + 1)
    rw [drv_applyWrites, drv_applyWrites, emit_drv, emit_drv, h]

/-- So does whether a request ends properly, with the levels. -/
theorem finished_betweenOk_congr {s t : State} (hphase : t.phase = s.phase) (hdrv : t.drv = s.drv) (hlv : t.lv = s.lv) :
    t.finished.betweenOk = s.finished.betweenOk := by
  have hpend : t.pending = s.pending := by simp [State.pending, hphase]
  refine betweenOk_congr ?_ (by rw [finished_lv, finished_lv, hlv, hpend])
  cases hp : s.phase with
  | idle => rw [State.finished_of_idle hp, State.finished_of_idle (hphase.trans hp), hdrv]
  | busy pos rest ws resp =>
    rw [State.finished_of_busy hp, State.finished_of_busy (hphase.trans hp), respond_drv, respond_drv]
    exact runEvents_drv_congr hdrv ws pos rest

/-- The invariant reads the configuration, the phase, `drv`, the levels and the receiver's memories only. -/
theorem State.Inv.congr {s t : State} (h : s.Inv) (hcfg : t.cfg = s.cfg) (hphase : t.phase = s.phase)
    (hdrv : t.drv = s.drv) (hlv : t.lv = s.lv) (hrx : t.rx.memWf = true) : t.Inv := by
  obtain ⟨hlegal, hrw, hpend, hplan, hend, -⟩ := h
  refine ⟨hcfg ▸ hlegal, hlv ▸ hrw, ?_, ?_, ?_, hrx⟩
  · simpa [State.pending, hphase] using hpend
  · simpa [State.drvPlanOk, hphase, hdrv] using hplan
  · rw [finished_betweenOk_congr hphase hdrv hlv, hend]

theorem State.Inv.microStep {s : State} (h : s.Inv) : (microStep s).Inv := by
  obtain ⟨hlegal, hrw, hpend, hplan, hend, hrx⟩ := id h
  cases hp : s.phase with
  | idle => simpa [Machine.microStep, hp] using h
  | busy pos rest ws resp =>
    rw [← finished_microStep] at hend
    cases rest with
    | nil =>
      rw [microStep_of_no_event hp] at hend ⊢
      exact ⟨by simpa using hlegal, by simpa using hrw, by simp, by rw [drvPlanOk_settle]; rfl, hend, by simpa using hrx⟩
    | cons e es =>
      rw [State.pending_of_busy hp, List.mem_cons, not_or] at hpend
      have hpath : drvPathOk ws pos s.drv (e :: es) = true := by simpa [State.drvPlanOk, hp] using hplan
      rw [microStep_of_event hp] at hend ⊢
      refine ⟨by simpa using hlegal, by simpa using Levels.rw_after hrw hpend.1, by simpa using hpend.2, ?_, hend,
        by simpa using memWf_emit s e hrx⟩
      rw [drvPlanOk_settle, drv_applyWrites]
      exact (drvPathOk_cons.mp hpath).2

/-- Finishing the request in progress keeps the invariant. -/
theorem State.Inv.finished {s : State} (h : s.Inv) : s.finished.Inv := by
  obtain ⟨hlegal, hrw, hpend, -, hend, hrx⟩ := h
  refine ⟨by simpa using hlegal, ?_, ?_, by simp [State.drvPlanOk], ?_, ?_⟩
  · rw [finished_lv]
    exact Levels.rw_afterAll hrw hpend
  · simp [State.pending_of_idle]
  · rwa [State.finished_of_idle (finished_phase s)]
  · rw [finished_rx]
    exact memWf_emitAll s s.pending hrx

/-- Accepting an instruction keeps the invariant: what it will emit and where it ends are those of `exec`. -/
theorem State.Inv.accept {s : State} (h : s.Inv) (i : Instr) (hidle : s.phase = .idle) :
    (accept (planOf i s) s).Inv := by
  obtain ⟨hlegal, hrw, -, -, hend, hrx⟩ := h
  have hexec := exec_eq_finished_accept i hidle
  rw [State.finished_of_idle hidle] at hend
  refine ⟨by simpa using hlegal, by simpa using hrw, ?_, drvPlanOk_accept i hidle, betweenOk_exec hend hexec,
    by simpa using hrx⟩
  exact rwIsNeverDrivenHigh.2 i s _ _ hexec (by rw [finished_trace, accept_trace])

theorem State.Inv.exec {i : Instr} {s t : State} (h : s.Inv) (hidle : s.phase = .idle) (hexec : exec i s = .next t) :
    t.Inv := by
  rw [exec_eq_finished_accept i hidle] at hexec
  cases hexec
  exact (h.accept i hidle).finished

/-- A construction, accepted or refused, keeps the invariant (R250, R251). -/
theorem State.Inv.construct {s : State} (c : Cfg) (tm : Tim) (h : s.Inv) : (construct c tm s).Inv := by
  obtain ⟨-, -, -, -, -, hrx⟩ := id h
  unfold Machine.construct
  split
  · rename_i hlegal
    exact ⟨hlegal, by simp [Levels.unknown], by simp [State.pending], rfl, rfl, hrx⟩
  · exact h.congr rfl rfl rfl rfl hrx

/-- Settles O4: each form of a step keeps the invariant; the bus disturbances touch only the receiver's side. -/
theorem stepKeepsInvariant : Obligations.StepKeepsInvariant := by
  intro s t hinv hstep
  obtain ⟨-, -, -, -, -, hrx⟩ := id hinv
  have htaken : ∀ rest, ({ s with inbox := rest } : State).Inv := fun rest => hinv.congr rfl rfl rfl rfl hrx
  rcases step_cases hstep with ⟨-, -, rfl⟩ | ⟨-, rfl⟩ | ⟨c, tm, rest, -, -, rfl⟩ | ⟨p, rest, i, hidle, -, -, hrun⟩
    | ⟨rest, -, -, rfl⟩ | ⟨rest, -, rfl⟩
  · exact hinv
  · exact hinv.microStep
  · exact (htaken rest).construct c tm
  · rcases hrun with ⟨-, hexec⟩ | ⟨-, rfl⟩
    · exact (htaken rest).exec hidle hexec
    · exact (htaken rest).accept i hidle
  · exact (htaken rest).congr rfl rfl rfl rfl (memWf_strayPulse _ hrx)
  · exact (htaken rest).congr rfl rfl rfl rfl hrx

/-! ## What the engine does not read (R33, R200, R267) -/

/-- The receiver, the time and the hazards of R267, as the state holds them. -/
structure Surroundings where
  rx : Rx
  clock : Nat
  draws : Nat
  pins : PinTimes
  losing : Bool
  sync : Sync

/-- The same engine in other surroundings. -/
def State.within (s : State) (o : Surroundings) : State :=
  { s with rx := o.rx, clock := o.clock, draws := o.draws, pins := o.pins, losing := o.losing, sync := o.sync }

/-- A state's own surroundings. -/
def State.surroundings (s : State) : Surroundings :=
  { rx := s.rx, clock := s.clock, draws := s.draws, pins := s.pins, losing := s.losing, sync := s.sync }

/-- Two states that differ at most in their surroundings. -/
def SameEngine (s t : State) : Prop := ∃ o, t = s.within o

section
variable {s t : State}

theorem SameEngine.of_eq_within (h : t = s.within t.surroundings) : SameEngine s t := ⟨_, h⟩

theorem SameEngine.emit (h : SameEngine s t) (e : BusEvent) : SameEngine (emit s e) (emit t e) := by
  obtain ⟨o, rfl⟩ := h
  exact .of_eq_within rfl

theorem SameEngine.setDrv (h : SameEngine s t) (d : DrvState) : SameEngine (setDrv s d) (setDrv t d) := by
  obtain ⟨o, rfl⟩ := h
  exact .of_eq_within rfl

theorem SameEngine.applyWrites (h : SameEngine s t) (k : Nat) (ws : List DrvWrite) :
    SameEngine (applyWrites k s ws) (applyWrites k t ws) := by
  induction ws generalizing s t with
  | nil => exact h
  | cons w ws ih =>
    rw [applyWrites_cons, applyWrites_cons]
    split
    · exact ih (h.setDrv w.2)
    · exact ih h

theorem SameEngine.runEvents (h : SameEngine s t) (ws : List DrvWrite) (k : Nat) (es : List BusEvent) :
    SameEngine (runEvents ws k s es) (runEvents ws k t es) := by
  induction es generalizing k s t with
  | nil => exact h
  | cons e es ih => exact ih ((h.emit e).applyWrites (k + 1) ws) (k + 1)

theorem SameEngine.begun (h : SameEngine s t) (init : Bool) (es : List BusEvent) :
    SameEngine (begun init es s) (begun init es t) := by
  obtain ⟨o, rfl⟩ := h
  exact .of_eq_within rfl

theorem SameEngine.respond (h : SameEngine s t) (r : Option Response) : SameEngine (respond s r) (respond t r) := by
  obtain ⟨o, rfl⟩ := h
  cases r <;> exact .of_eq_within rfl

theorem SameEngine.settle (h : SameEngine s t) (pos : Nat) (es : List BusEvent) (ws : List DrvWrite)
    (resp : Option Response) : SameEngine (settle pos es ws resp s) (settle pos es ws resp t) := by
  obtain ⟨o, rfl⟩ := h
  cases es with
  | nil => exact SameEngine.respond (s := { s with phase := .idle }) ⟨o, rfl⟩ resp
  | cons e es => exact .of_eq_within rfl

theorem SameEngine.accept (h : SameEngine s t) (p : Plan) : SameEngine (accept p s) (accept p t) := by
  cases p with
  | error r => exact h.respond (some r)
  | run es ws resp => exact ((h.begun (initializes ws) es).applyWrites 0 ws).settle 0 es ws resp

theorem SameEngine.microStep (h : SameEngine s t) : SameEngine (microStep s) (microStep t) := by
  have hphase : t.phase = s.phase := by obtain ⟨o, rfl⟩ := h; rfl
  cases hp : s.phase with
  | idle => simpa [Machine.microStep, hphase, hp] using h
  | busy pos rest ws resp =>
    cases rest with
    | nil =>
      rw [microStep_of_no_event hp, microStep_of_no_event (hphase.trans hp)]
      exact h.settle pos [] ws resp
    | cons e es =>
      rw [microStep_of_event hp, microStep_of_event (hphase.trans hp)]
      exact ((h.emit e).applyWrites (pos + 1) ws).settle (pos + 1) es ws resp

theorem SameEngine.construct (h : SameEngine s t) (c : Cfg) (tm : Tim) :
    SameEngine (construct c tm s) (construct c tm t) := by
  unfold Machine.construct
  split
  · obtain ⟨o, rfl⟩ := h
    exact .of_eq_within rfl
  · exact h.respond _

theorem SameEngine.strayPulse (h : SameEngine s t) : SameEngine (strayPulse s) (strayPulse t) := by
  obtain ⟨o, rfl⟩ := h
  exact .of_eq_within rfl

theorem SameEngine.loseNext (h : SameEngine s t) : SameEngine (loseNext s) (loseNext t) := by
  obtain ⟨o, rfl⟩ := h
  exact .of_eq_within rfl

/-- The engine's plan does not depend on its surroundings. -/
theorem SameEngine.planOf (h : SameEngine s t) (i : Instr) : planOf i t = planOf i s := by
  obtain ⟨o, rfl⟩ := h
  cases i <;> rfl

theorem SameEngine.perform {u : State} (h : SameEngine s t) {p : Plan} (hs : perform p s = .next u) :
    ∃ v, perform p t = .next v ∧ SameEngine u v := by
  cases p with
  | error r =>
    cases hs
    exact ⟨_, rfl, h.respond (some r)⟩
  | run es ws resp =>
    cases hs
    exact ⟨_, rfl, (((h.begun (initializes ws) es).applyWrites 0 ws).runEvents ws 0 es).respond resp⟩

theorem SameEngine.exec {i : Instr} {u : State} (h : SameEngine s t) (hs : exec i s = .next u) :
    ∃ v, exec i t = .next v ∧ SameEngine u v := by
  rw [exec_eq_perform] at hs ⊢
  rw [h.planOf]
  exact h.perform hs

end

/-- The same activity in other surroundings. -/
def Activity.within (o : Surroundings) : Activity → Activity
  | .run i s => .run i (s.within o)
  | .build c t s => .build c t (s.within o)
  | .stray s => .stray (s.within o)
  | .lose s => .lose (s.within o)
  | .wait => .wait
  | .micro => .micro
  | .undecodable e => .undecodable e
  | .foreign => .foreign
  | .second => .second

/-- What the machine does next is chosen by the inbox, the phase and the level of EN alone. -/
theorem nextActivity_within (s : State) (o : Surroundings) :
    nextActivity (s.within o) = (nextActivity s).within o := by
  obtain ⟨drv, cfg, tim, phase, lv, trace, responses, rx, inbox, grain, clock, draws, pins, losing, sync⟩ := s
  cases inbox with
  | nil => cases phase <;> rfl
  | cons x rest =>
    cases x with
    | word p =>
      cases phase with
      | idle =>
        simp only [nextActivity, State.within]
        cases decode p <;> rfl
      | busy pos es ws resp => rfl
    | construct c t => cases phase <;> rfl
    | strayPulse =>
      by_cases hen : lv.en = .high <;> simp [nextActivity, State.within, Activity.within, hen]
    | foreignDrive l v => rfl
    | loseTransaction => rfl
    | secondRequester w => rfl

/-- Steps from the same engine lead to the same engine. -/
theorem step_within {s t : State} (o : Surroundings) (h : step s = .next t) :
    ∃ u, step (s.within o) = .next u ∧ SameEngine t u := by
  have hwithin : ∀ v : State, SameEngine v (v.within o) := fun v => ⟨o, rfl⟩
  unfold step at h ⊢
  rw [nextActivity_within]
  generalize nextActivity s = activity at h
  cases activity with
  | wait => cases h; exact ⟨_, rfl, hwithin s⟩
  | micro => cases h; exact ⟨_, rfl, (hwithin s).microStep⟩
  | build c tm v => cases h; exact ⟨_, rfl, (hwithin v).construct c tm⟩
  | stray v => cases h; exact ⟨_, rfl, (hwithin v).strayPulse⟩
  | lose v => cases h; exact ⟨_, rfl, (hwithin v).loseNext⟩
  | undecodable e => cases h
  | foreign => cases h
  | second => cases h
  | run i v =>
    have hgrain : (v.within o).grain = v.grain := rfl
    simp only [Activity.within, hgrain] at h ⊢
    cases hg : v.grain with
    | whole => rw [hg] at h; exact (hwithin v).exec h
    | event =>
      rw [hg] at h
      cases h
      rw [(hwithin v).planOf]
      exact ⟨_, rfl, (hwithin v).accept _⟩

/-- Settles O44: no operation of a step takes anything from the surroundings into the engine. -/
theorem engineIgnoresReceiverAndTime : Obligations.EngineIgnoresReceiverAndTime := by
  intro s t r c d p l y h
  obtain ⟨_, hstep, o, rfl⟩ := step_within ⟨r, c, d, p, l, y⟩ h
  exact ⟨o.rx, o.clock, o.draws, o.pins, o.losing, o.sync, hstep⟩

end Sys2Proof.Machine

/-! PROOFS. The statements of 20_memory.md: the time an instruction takes (R61), the pairing of nibble transactions into
bytes (R54, R55) and the recovery nibbles (R78). -/

namespace Sys2Proof.Machine

/-! ## Time -/

/-- Settles O16: an error emits nothing, and otherwise time passes with the events alone, each at least its minimum. -/
theorem elapsedTimeCoversDelays : Obligations.ElapsedTimeCoversDelays := by
  intro i s t es h htrace
  rcases exec_failed_or_ran h with ⟨r, rfl⟩ | ⟨fs, d, resp, -, rfl⟩
  · have hes : es = [] := by simpa [failed] using htrace
    simp [hes, failed, delaySum]
  · have hes : fs = es := by simpa [ran] using htrace
    have hclock : (ran i fs d resp s).clock = (emitAll (begun (decide (i = .reqInitialize)) fs s) fs).clock := by
      simp [ran]
    rw [hclock, hes]
    exact clock_add_delaySum_le (begun _ es s) es

/-! ## The pairing of nibble transactions -/

/-- An instruction that is neither a nibble while `Initializing` nor an admitted `initialize` emits nothing or one byte
transfer (R54, R55). -/
theorem exec_events_paired {i : Instr} {s t : State} {es : List BusEvent}
    (hd : s.drv = .ready ∨ (s.drv ≠ .initializing ∧ i ≠ .reqInitialize)) (h : exec i s = .next t)
    (htrace : t.trace = s.trace ++ es) : es = [] ∨ ∃ rs v, es = byteEvents s.tim rs v := by
  rcases exec_cases h with ⟨r, -, rfl⟩ | ⟨rs, v, -, rfl⟩ | ⟨n, -, hinit, -⟩ | ⟨hi, huninit, -⟩
  · exact .inl (by simpa [failed] using htrace)
  · exact .inr ⟨rs, v, by simpa [transferred] using htrace.symm⟩
  · simp [hinit] at hd
  · simp [hi, huninit] at hd

/-- Settles O32: nothing emitted has no record, and a byte transfer has the records of its two nibbles. -/
theorem readyRequestsEmitPairs : Obligations.ReadyRequestsEmitPairs := by
  intro i s t es hd h htrace
  rcases exec_events_paired hd h htrace with rfl | ⟨rs, v, rfl⟩
  · exact .inl rfl
  · exact .inr ⟨rs, v, txs_byteEvents s.lv s.tim rs v, byteView_byteEvents s.lv s.tim rs v⟩

/-! ## The recovery nibbles -/

/-- While `Initializing` a nibble's plan is one nibble transaction without a response (R54, R101). -/
theorem perform_nibblePlan_initializing (n : Nibble) {s : State} (hd : s.drv = .initializing) :
    perform (nibblePlan n s) s = .next (emitAll s (nibbleEvents s.tim .command n)) := by
  rw [nibblePlan, if_pos hd, perform_run_nil, begun_nibbleEvents]
  rfl

/-- Otherwise a nibble's plan is refused as `initialize` is (R55; log entry 7). -/
theorem perform_nibblePlan_refused (n : Nibble) {s : State} (hd : s.drv ≠ .initializing) :
    perform (nibblePlan n s) s = .next (failed s (.protocolStateError 0#4)) := by
  rw [nibblePlan, if_neg hd, perform_error]
  rfl

/-- Settles O35: each recovery nibble performs the plan of its nibble. -/
theorem recoveryNibblesTransact : Obligations.RecoveryNibblesTransact := by
  intro s
  have hreset : exec .nibbleReset s = perform (nibblePlan 0x3#4 s) s := exec_eq_perform .nibbleReset s
  have hfour : exec .nibbleFourBit s = perform (nibblePlan 0x2#4 s) s := exec_eq_perform .nibbleFourBit s
  rw [hreset, hfour]
  exact ⟨fun hd => ⟨perform_nibblePlan_initializing _ hd, perform_nibblePlan_initializing _ hd⟩,
    fun hd => ⟨perform_nibblePlan_refused _ hd, perform_nibblePlan_refused _ hd⟩⟩

end Sys2Proof.Machine

/-! PROOFS. The statements of 30_encoding.md: decoding and encoding of the three kinds of word (R70-R74, R78, R85-R88), the
byte that each request and bus byte sends (R76, R79, R80, R87), and what the receiver makes of a don't-care bit (R80). -/

namespace Sys2Proof.Machine

/-! ## Request words (R86) -/

/-- The bits of a request word from bit 0 up: `op`, `a`, `b`. -/
theorem getLsbD_requestWord (b : BitVec 3) (a : Byte) (op : OpCode) (k : Nat) :
    (requestWord b a op).getLsbD k
      = if k < 4 then op.getLsbD k else if k - 4 < 8 then a.getLsbD (k - 4) else b.getLsbD (k - 4 - 8) := by
  rw [requestWord, BitVec.getLsbD_append, BitVec.getLsbD_append]

section
variable (b : BitVec 3) (a : Byte) (op : OpCode)

@[simp] theorem requestWord_op : (requestWord b a op).extractLsb' 0 4 = op := by
  ext k hk
  simp [getLsbD_requestWord, hk]

@[simp] theorem requestWord_a : (requestWord b a op).extractLsb' 4 8 = a := by
  ext k hk
  simp [getLsbD_requestWord, hk]

@[simp] theorem requestWord_b : (requestWord b a op).extractLsb' 12 3 = b := by
  ext k hk
  have hpos : ¬12 + k < 4 ∧ ¬12 + k - 4 < 8 ∧ 12 + k - 4 - 8 = k := by omega
  simp [getLsbD_requestWord, hpos, hk]

end

/-- The request of three fields (R85, R86). -/
def requestOfFields (b : BitVec 3) (a : Byte) (op : OpCode) : Instr :=
  match op.toNat with
  | 0 => .reqInitialize
  | 1 => .reqSendByte a (RegSel.ofBit (b.getLsbD 0))
  | 2 => .reqClear
  | 3 => .reqReturnHome
  | 4 => .reqSetEntryMode (b.getLsbD 1) (b.getLsbD 0)
  | 5 => .reqSetDisplay (b.getLsbD 2) (b.getLsbD 1) (b.getLsbD 0)
  | 6 => .reqShift (b.getLsbD 1) (b.getLsbD 0)
  | 7 => .reqSetFunction (b.getLsbD 2) (b.getLsbD 1) (b.getLsbD 0)
  | 8 => .reqSetCgramAddress a
  | 9 => .reqSetDdramAddress a
  | 10 => .reqWriteChar a
  | 11 => .reserved11
  | 12 => .reserved12
  | 13 => .reserved13
  | 14 => .reserved14
  | _ => .reserved15

/-- A request word is decoded by its three fields alone. -/
theorem decodeRequest_eq_ofFields (w : RequestWord) :
    decodeRequest w = requestOfFields (w.extractLsb' 12 3) (w.extractLsb' 4 8) (w.extractLsb' 0 4) := by
  have hbit : ∀ k < 3, (w.extractLsb' 12 3).getLsbD k = w.getLsbD (12 + k) := fun k hk => by simp [hk]
  rw [requestOfFields, hbit 0 (by omega), hbit 1 (by omega), hbit 2 (by omega)]
  rfl

@[simp] theorem decodeRequest_requestWord (b : BitVec 3) (a : Byte) (op : OpCode) :
    decodeRequest (requestWord b a op) = requestOfFields b a op := by
  rw [decodeRequest_eq_ofFields, requestWord_b, requestWord_a, requestWord_op]

section
variable (b2 b1 b0 : Bool)

theorem getLsbD_flags3 (k : Nat) : (flags3 b2 b1 b0).getLsbD k =
    if k < 1 then (BitVec.ofBool b0).getLsbD k
    else if k - 1 < 1 then (BitVec.ofBool b1).getLsbD (k - 1)
    else (BitVec.ofBool b2).getLsbD (k - 1 - 1) := by
  rw [flags3, BitVec.getLsbD_append, BitVec.getLsbD_append]

@[simp] theorem flags3_zero : (flags3 b2 b1 b0)[0] = b0 := by simp [← BitVec.getLsbD_eq_getElem, getLsbD_flags3]
@[simp] theorem flags3_one : (flags3 b2 b1 b0)[1] = b1 := by simp [← BitVec.getLsbD_eq_getElem, getLsbD_flags3]
@[simp] theorem flags3_two : (flags3 b2 b1 b0)[2] = b2 := by simp [← BitVec.getLsbD_eq_getElem, getLsbD_flags3]

end

@[simp] theorem ofBit_bit (rs : RegSel) : RegSel.ofBit rs.bit = rs := by
  cases rs <;> rfl

theorem decodeRequest_of_encode {i : Instr} {w : RequestWord} (h : encode i = .request w) : decodeRequest w = i := by
  cases i with
  | reqSendByte value rs => cases h; simp [requestOfFields]
  | reqSetEntryMode direction shiftDisplay => cases h; simp [requestOfFields]
  | reqSetDisplay on cursor blink => cases h; simp [requestOfFields]
  | reqShift target direction => cases h; simp [requestOfFields]
  | reqSetFunction busWidth lines font => cases h; simp [requestOfFields]
  | _ => cases h <;> exact decodeRequest_requestWord _ _ _

theorem decodeNibble_of_encode {i : Instr} {w : NibbleWord} (h : encode i = .nibble w) : decodeNibble w = some i := by
  cases i with
  | nibbleReset => cases h; rfl
  | nibbleFourBit => cases h; rfl
  | _ => cases h

/-! ## Bus bytes (R73, R74) -/

section
variable (rs : RegSel) (v : Byte)

/-- Bit 8 of a bus word is its register select, the bits below it are its byte. -/
theorem getLsbD_busWord (k : Nat) :
    (busWord rs v).getLsbD k = if k < 8 then v.getLsbD k else (BitVec.ofBool rs.bit).getLsbD (k - 8) := by
  rw [busWord, BitVec.getLsbD_append]

@[simp] theorem busWord_rs : (busWord rs v)[8] = rs.bit := by
  simp [← BitVec.getLsbD_eq_getElem, getLsbD_busWord]

/-- The low bits of a bus word are those of its byte. -/
theorem busWord_low {n : Nat} (hn : n ≤ 8) : (busWord rs v).extractLsb' 0 n = v.extractLsb' 0 n := by
  ext k hk
  have hk8 : k < 8 := by omega
  simp [getLsbD_busWord, hk8]

@[simp] theorem busWord_byte : (busWord rs v).extractLsb' 0 8 = v := by
  simp [busWord_low]

end

theorem decodeBusByte_of_encode {i : Instr} {w : BusWord} (h : encode i = .busByte w) : decodeBusByte w = some i := by
  cases i with
  | busClear => cases h; decide
  | busReturnHome dc => cases h; revert dc; decide
  | busEntryMode increment shiftDisplay => cases h; revert increment shiftDisplay; decide
  | busDisplay on cursor blink => cases h; revert on cursor blink; decide
  | busShift display right dc => cases h; revert display right dc; decide
  | busFunction eightBit twoLines font5x10 dc => cases h; revert eightBit twoLines font5x10 dc; decide
  | busCgramAddr addr => cases h; revert addr; decide +kernel
  | busDdramAddr addr => cases h; revert addr; decide +kernel
  | busData byte => cases h; revert byte; decide +kernel
  | _ => cases h

/-- Settles O36: each kind of word is decoded back by the decoder of its port. -/
theorem decodeOfEncode : Obligations.DecodeOfEncode := by
  intro i
  cases h : encode i with
  | request w => rw [decode, decodeRequest_of_encode h]
  | busByte w => rw [decode, decodeBusByte_of_encode h]
  | nibble w => rw [decode, decodeNibble_of_encode h]

/-- Encoding the decoded instruction gives the bus byte back; 0x00 with RS = 0 is the one that selects nothing (R74). -/
theorem decodeBusByte_map_encode (w : BusWord) :
    (decodeBusByte w).map encode = if w = 0#9 then none else some (.busByte w) := by
  revert w
  decide +kernel

theorem exists_decodeBusByte {w : BusWord} (hw : w ≠ 0#9) :
    ∃ i, decodeBusByte w = some i ∧ encode i = .busByte w := by
  have h := decodeBusByte_map_encode w
  rwa [if_neg hw, Option.map_eq_some_iff] at h

/-- A bus byte instruction's word has the fixed bits of its row (R73). -/
theorem row_of_encode_busByte {i : Instr} {w : BusWord} (h : encode i = .busByte w) :
    w.toNat &&& i.row.maskBits = i.row.matchBits := by
  have hrow : Laws.RowMatch.Statement i := by
    cases i with
    | busClear => exact Laws.RowMatch.busClear
    | busReturnHome dc => exact Laws.RowMatch.busReturnHome dc
    | busEntryMode increment shiftDisplay => exact Laws.RowMatch.busEntryMode increment shiftDisplay
    | busDisplay on cursor blink => exact Laws.RowMatch.busDisplay on cursor blink
    | busShift display right dc => exact Laws.RowMatch.busShift display right dc
    | busFunction eightBit twoLines font5x10 dc => exact Laws.RowMatch.busFunction eightBit twoLines font5x10 dc
    | busCgramAddr addr => exact Laws.RowMatch.busCgramAddr addr
    | busDdramAddr addr => exact Laws.RowMatch.busDdramAddr addr
    | busData byte => exact Laws.RowMatch.busData byte
    | _ => cases h
  obtain ⟨-, hbits⟩ := hrow
  rwa [h] at hbits

/-- Settles O37: a command word has the bits of its byte, so the decoder's choice is by the byte's bits; and the decoder
inverts the encoder on both sides. -/
theorem busBytesDecodeUniquely : Obligations.BusBytesDecodeUniquely := by
  constructor
  · intro v
    have hbit : ∀ k < 8, (busWord .command v).getLsbD k = v.getLsbD k := fun k hk => by
      rw [getLsbD_busWord, if_pos hk]
    have hrs : (busWord .command v).getLsbD 8 = false := busWord_rs .command v
    show decodeBusByte (busWord .command v) = _
    simp (disch := omega) only [decodeBusByte, hrs, hbit, busWord_low, Bool.false_eq_true, if_false]
  · intro w hw
    obtain ⟨i, hdecode, hencode⟩ := exists_decodeBusByte hw
    refine ⟨i, hdecode, hencode, row_of_encode_busByte hencode, fun j hj => ?_⟩
    have hj' := decodeBusByte_of_encode hj
    rw [hdecode] at hj'
    exact (Option.some.inj hj').symm

/-! ## What a bus byte runs (R70, R106; log entry 6) -/

/-- A bus byte's plan is the byte transfer of its register select and byte. -/
theorem planOf_of_encode {i : Instr} {rs : RegSel} {v : Byte} (h : encode i = .busByte (busWord rs v)) (s : State) :
    planOf i s = bytePlan 1#4 rs v s := by
  have hplan : ∀ w, encode i = .busByte w → planOf i s = busPlan w s := by
    intro w hw
    cases i <;> cases hw <;> rfl
  rw [hplan _ h, busPlan, BitVec.getLsbD_eq_getElem (by omega), busWord_rs, ofBit_bit, busWord_byte]

/-- Every bus word has a register select and a byte (R70). -/
theorem exists_eq_busWord (w : BusWord) : ∃ rs v, w = busWord rs v := by
  refine ⟨RegSel.ofBit (w.getLsbD 8), w.extractLsb' 0 8, ?_⟩
  revert w
  decide +kernel

theorem perform_bytePlan_ready (op : OpCode) (rs : RegSel) (v : Byte) {s : State} (hd : s.drv = .ready) :
    perform (bytePlan op rs v s) s = .next (transferred s rs v) := by
  rw [bytePlan, if_pos hd, perform_run_nil, transferred]

theorem perform_bytePlan_refused (op : OpCode) (rs : RegSel) (v : Byte) {s : State} (hd : s.drv ≠ .ready) :
    perform (bytePlan op rs v s) s = .next (failed s (.protocolStateError op)) := by
  rw [bytePlan, if_neg hd, perform_error]
  rfl

/-- In `Ready` a bus byte transfers its register select and byte. -/
theorem exec_of_encode {i : Instr} {rs : RegSel} {v : Byte} {s : State} (hd : s.drv = .ready)
    (h : encode i = .busByte (busWord rs v)) : exec i s = .next (transferred s rs v) := by
  rw [exec_eq_perform, planOf_of_encode h, perform_bytePlan_ready _ _ _ hd]

/-- Settles O34: the byte of each row is the one its word carries, and the guard is that of every byte transfer. -/
theorem busByteInstructionsTransfer : Obligations.BusByteInstructionsTransfer := by
  intro s x y z dc1 dc2 a6 a7 b
  constructor
  · intro hd
    have run : ∀ {i rs v}, encode i = .busByte (busWord rs v) → exec i s = .next (transferred s rs v) :=
      exec_of_encode hd
    refine ⟨run ?_, run ?_, run ?_, run ?_, run ?_, run ?_, run ?_, run ?_, run ?_⟩
    · rfl
    · revert dc1; decide
    · revert x y; decide
    · revert x y z; decide
    · revert x y dc2; decide
    · revert x y z dc2; decide
    · revert a6; decide +kernel
    · revert a7; decide +kernel
    · rfl
  · rintro hd i ⟨w, hw⟩
    obtain ⟨rs, v, rfl⟩ := exists_eq_busWord w
    rw [exec_eq_perform, planOf_of_encode hw, perform_bytePlan_refused _ _ _ hd]

/-! ## The reserved op codes (R87) -/

/-- The op codes from 11 to 15. -/
theorem op_cases_of_ge {op : OpCode} (h : 11#4 ≤ op) :
    op = 11#4 ∨ op = 12#4 ∨ op = 13#4 ∨ op = 14#4 ∨ op = 15#4 := by
  revert op
  decide

/-- Settles O26: the reserved instructions are refused in every state, and the op codes from 11 on are theirs. -/
theorem reservedOpsAreIllegal : Obligations.ReservedOpsAreIllegal := by
  refine ⟨fun s => ⟨rfl, rfl, rfl, rfl, rfl⟩, fun w s h => ?_⟩
  rw [decodeRequest_eq_ofFields]
  generalize w.extractLsb' 0 4 = op at h
  rcases op_cases_of_ge h with rfl | rfl | rfl | rfl | rfl <;> rfl

/-- Settles O38: a request is that of its fields, and each op code reads only some bits of them. -/
theorem ignoredOperandBits : Obligations.IgnoredOperandBits := by
  intro a a' b b' op
  have hfields : ∀ (b : BitVec 3) (a : Byte), decodeRequest (b ++ a ++ op) = requestOfFields b a op :=
    fun b a => decodeRequest_requestWord b a op
  simp only [hfields]
  refine ⟨?_, ?_, ?_, ?_, ?_⟩
  · rintro (rfl | rfl | rfl | h)
    · rfl
    · rfl
    · rfl
    · rcases op_cases_of_ge h with rfl | rfl | rfl | rfl | rfl <;> rfl
  · rintro rfl h0
    show Instr.reqSendByte a (RegSel.ofBit (b.getLsbD 0)) = .reqSendByte a (RegSel.ofBit (b'.getLsbD 0))
    rw [h0]
  · rintro (rfl | rfl) h0 h1
    · show Instr.reqSetEntryMode (b.getLsbD 1) (b.getLsbD 0) = .reqSetEntryMode (b'.getLsbD 1) (b'.getLsbD 0)
      rw [h0, h1]
    · show Instr.reqShift (b.getLsbD 1) (b.getLsbD 0) = .reqShift (b'.getLsbD 1) (b'.getLsbD 0)
      rw [h0, h1]
  · rintro (rfl | rfl) <;> rfl
  · rintro (rfl | rfl | rfl) <;> rfl

/-! ## Fixed words (R73, R78, R86, R88) -/

/-- Settles O39: each word is decoded as its port says. -/
theorem vectorWordsDecode : Obligations.VectorWordsDecode := by
  unfold Obligations.VectorWordsDecode
  decide

/-- Settles O40: the kind, the reason and the op code appended in the order of R88, for each of the 16 op codes. -/
theorem responseWords : Obligations.ResponseWords := by
  refine ⟨rfl, rfl, rfl, ?_, ?_⟩
  · decide
  · decide

/-! ## The mask invariant (R76, R169) -/

/-- Clearing the mask leaves an opcode that shares no bit with it. -/
theorem masked_or_and_not {n : Nat} {o m : BitVec n} (h : o &&& m = 0#n) (p : BitVec n) :
    (o ||| (p &&& m)) &&& ~~~m = o := by
  ext k hk
  have hbit : (o &&& m)[k] = (0#n)[k] := by rw [h]
  rw [BitVec.getElem_and, BitVec.getElem_zero] at hbit
  simp only [BitVec.getElem_and, BitVec.getElem_or, BitVec.getElem_not]
  cases hm : m[k] with
  | false => simp
  | true => simpa [hm] using hbit.symm

/-- The columns OPC and PMASK of R73 share no bit. -/
theorem Command.opc_and_pmask (c : Command) : c.opc &&& c.pmask = 0#8 := by
  cases c <;> rfl

theorem Command.byte_and_not_pmask (c : Command) (p : Byte) : c.byte p &&& ~~~c.pmask = c.opc :=
  masked_or_and_not c.opc_and_pmask p

/-- Settles O42: the bytes that the requests form are command bytes of some parameter. -/
theorem maskInvariant : Obligations.MaskInvariant := by
  have hmask := Command.byte_and_not_pmask
  exact ⟨fun c p => ⟨hmask c p, c.opc_and_pmask⟩, fun _ _ => ⟨hmask .entryMode _, hmask .shift _⟩,
    fun _ _ _ => ⟨hmask .display _, hmask .function _⟩, fun a => ⟨hmask .cgramAddr a, hmask .ddramAddr a⟩⟩

/-! ## The bytes that the requests send (R79, R80, R166) -/

/-- The byte is that of an instruction that the engine's own rules form. -/
def ByteWellFormed (rs : RegSel) (v : Byte) : Prop :=
  ∃ j, decodeBusByte (busWord rs v) = some j ∧ j.wellFormed = true

theorem ByteWellFormed.of_encode {j : Instr} {rs : RegSel} {v : Byte} (h : encode j = .busByte (busWord rs v))
    (hj : j.wellFormed = true) : ByteWellFormed rs v :=
  ⟨j, decodeBusByte_of_encode h, hj⟩

/-! The word of a command is the one that the request's byte carries, don't-care bits and DL 0. -/

theorem encode_busEntryMode (x y : Bool) :
    encode (.busEntryMode x y) = .busByte (busWord .command (entryModeByte x y)) := by
  revert x y
  decide

theorem encode_busDisplay (x y z : Bool) :
    encode (.busDisplay x y z) = .busByte (busWord .command (displayByte x y z)) := by
  revert x y z
  decide

theorem encode_busShift (x y : Bool) :
    encode (.busShift x y 0#2) = .busByte (busWord .command (shiftByte x y)) := by
  revert x y
  decide

theorem encode_busFunction (x y z : Bool) :
    encode (.busFunction x y z 0#2) = .busByte (busWord .command (functionByte x y z)) := by
  revert x y z
  decide

theorem encode_busCgramAddr (a : Byte) :
    encode (.busCgramAddr (a.setWidth 6)) = .busByte (busWord .command (cgramByte a)) := by
  revert a
  decide +kernel

theorem encode_busDdramAddr (a : Byte) :
    encode (.busDdramAddr (a.setWidth 7)) = .busByte (busWord .command (ddramByte a)) := by
  revert a
  decide +kernel

/-- What a request other than `send_byte` plans in `Ready`: an error, or the transfer of a well-formed byte. -/
theorem planOf_request_cases {i : Instr} {s : State} (hi : i.isRequest = true) (hraw : ∀ b r, i ≠ .reqSendByte b r)
    (hd : s.drv = .ready) :
    (∃ r, planOf i s = .error r)
    ∨ ∃ rs v, ByteWellFormed rs v ∧ planOf i s = .run (byteEvents s.tim rs v) [] (some .ok) := by
  have byte : ∀ {op rs v j}, planOf i s = bytePlan op rs v s → encode j = .busByte (busWord rs v) →
      j.wellFormed = true → (∃ r, planOf i s = .error r)
      ∨ ∃ rs v, ByteWellFormed rs v ∧ planOf i s = .run (byteEvents s.tim rs v) [] (some .ok) := by
    intro op rs v j hplan hencode hj
    exact .inr ⟨rs, v, .of_encode hencode hj, by rw [hplan, bytePlan, if_pos hd]⟩
  cases i with
  | reqInitialize => exact .inl ⟨_, if_neg (by simp [hd])⟩
  | reqSendByte value rs => exact absurd rfl (hraw value rs)
  | reqClear => exact byte (j := .busClear) rfl rfl rfl
  | reqReturnHome => exact byte (j := .busReturnHome 0#1) rfl rfl rfl
  | reqSetEntryMode direction shiftDisplay => exact byte rfl (encode_busEntryMode direction shiftDisplay) rfl
  | reqSetDisplay on cursor blink => exact byte rfl (encode_busDisplay on cursor blink) rfl
  | reqShift target direction => exact byte rfl (encode_busShift target direction) rfl
  | reqSetFunction busWidth lines font =>
    have hplan : planOf (.reqSetFunction busWidth lines font) s = planReqSetFunction busWidth lines font s := rfl
    rw [hplan, planReqSetFunction, if_pos hd]
    cases busWidth with
    | true => exact .inl ⟨_, rfl⟩
    | false =>
      cases hlf : lines && font with
      | true => exact .inl ⟨_, rfl⟩
      | false =>
        have hwf : (Instr.busFunction false lines font 0#2).wellFormed = true := by simp [Instr.wellFormed, hlf]
        exact .inr ⟨_, _, .of_encode (encode_busFunction false lines font) hwf, rfl⟩
  | reqSetCgramAddress addr => exact byte rfl (encode_busCgramAddr addr) rfl
  | reqSetDdramAddress addr => exact byte rfl (encode_busDdramAddr addr) rfl
  | reqWriteChar b => exact byte (j := .busData b) rfl rfl rfl
  | _ => cases hi

/-- The records of a byte transfer say which byte it is. -/
theorem eq_of_txs_byteEvents {lv : Levels} {t : Tim} {rs rs' : RegSel} {v v' : Byte}
    (h : txs lv (byteEvents t rs' v') = [record rs (highNibble v), record rs (lowNibble v)]) : rs' = rs ∧ v' = v := by
  rw [← txs_byteEvents lv t rs v] at h
  have hview := congrArg byteView h
  rw [byteView_byteEvents, byteView_byteEvents] at hview
  simpa using hview

/-- Settles O43: the events are those of the transfer of a well-formed byte, and their records say which. -/
theorem encoderSendsWellFormedBytes : Obligations.EncoderSendsWellFormedBytes := by
  intro i s t es rs v hi hraw hd hexec htrace hrecords
  rw [exec_eq_perform] at hexec
  rcases planOf_request_cases hi hraw hd with ⟨r, hplan⟩ | ⟨rs', v', hwf, hplan⟩
  · rw [hplan, perform_error] at hexec
    cases hexec
    have hes : es = [] := by simpa [raise] using htrace
    simp [hes, txs] at hrecords
  · rw [hplan, perform_run_nil] at hexec
    cases hexec
    have hes : es = byteEvents s.tim rs' v' := by simpa using htrace.symm
    rw [hes] at hrecords
    obtain ⟨rfl, rfl⟩ := eq_of_txs_byteEvents hrecords
    exact hwf

/-! ## Don't-care bits at the receiver (R80, U11; log entries 12, 18) -/

/-- The instruction has a don't-care bit that is not 0. -/
def dontCareSet : Instr → Bool
  | .busReturnHome dc => dc != 0#1
  | .busShift _ _ dc => dc != 0#2
  | .busFunction _ _ _ dc => dc != 0#2
  | _ => false

/-- Then the receiver's state before counts for nothing but the mode and the busy time. -/
theorem effect_of_dontCareSet {i : Instr} (h : dontCareSet i = true) (d : RxDraws) (r r' : Rx) :
    r.effect i d = { r'.effect i d with mode := (r.effect i d).mode, busyUntil := r.busyUntil } := by
  have hdraw : r.anyResponse d = { r'.anyResponse d with mode := r.mode, busyUntil := r.busyUntil } := rfl
  cases i with
  | busReturnHome dc =>
    have hdc : dc ≠ 0#1 := by simpa [dontCareSet] using h
    simp only [Rx.effect, if_neg hdc]
    exact hdraw
  | busShift display right dc =>
    have hdc : dc ≠ 0#2 := by simpa [dontCareSet] using h
    simp only [Rx.effect, if_neg hdc]
    exact hdraw
  | busFunction eightBit twoLines font5x10 dc =>
    have hdc : dc ≠ 0#2 := by simpa [dontCareSet] using h
    simp only [Rx.effect, if_neg hdc]
    rfl
  | _ => cases h

theorem execute_of_dontCareSet {i : Instr} {b : Byte} (hb : decodeBusByte (busWord .command b) = some i)
    (h : dontCareSet i = true) (now : Nat) (d : RxDraws) (r r' : Rx) :
    r.execute now .command b d
      = { r'.execute now .command b d with mode := (r.execute now .command b d).mode } := by
  simp only [Rx.execute, hb]
  rw [effect_of_dontCareSet h d r r']

/-- The bytes of RETURN_HOME, SHIFT and FUNCTION with a don't-care bit that is not 0 (R73). -/
abbrev DontCareByte (b : Byte) : Prop :=
  b = 0x03#8 ∨ (b.extractLsb' 4 4 = 0x1#4 ∨ b.extractLsb' 5 3 = 0b001#3) ∧ b.extractLsb' 0 2 ≠ 0#2

section
variable {b : Byte}

theorem DontCareByte.exists_decode (h : DontCareByte b) :
    ∃ i, decodeBusByte (busWord .command b) = some i ∧ dontCareSet i = true := by
  have hall : ∀ b : Byte, DontCareByte b → (decodeBusByte (busWord .command b)).any dontCareSet = true := by
    decide +kernel
  simpa [Option.any_eq_true] using hall b h

/-- None of them is 0x00, CLEAR or RETURN_HOME with its don't-care bit 0. -/
theorem DontCareByte.ne (h : DontCareByte b) : b ≠ 0x00#8 ∧ b ≠ 0x01#8 ∧ b ≠ 0x02#8 := by
  refine ⟨?_, ?_, ?_⟩
  · rintro rfl; exact absurd h (by decide)
  · rintro rfl; exact absurd h (by decide)
  · rintro rfl; exact absurd h (by decide)

end

/-- FUNCTION sets N and F from its bits (R206). -/
theorem execute_function {b : Byte} (hf : b.extractLsb' 5 3 = 0b001#3) (now : Nat) (d : RxDraws) (r : Rx) :
    (r.execute now .command b d).twoLines = b.getLsbD 3 ∧ (r.execute now .command b d).font5x10 = b.getLsbD 2 := by
  have hdecode := decodeBusByte_command b
  rw [if_pos hf, decide_eq_true_eq] at hdecode
  simp only [Rx.execute, hdecode]
  exact ⟨rfl, rfl⟩

/-- Settles O55: with a don't-care bit set the effect is the drawn one but for the mode, which R206 gives, and the busy time,
which R212 gives. -/
theorem dontCareBitsGiveAnyResponse : Obligations.DontCareBitsGiveAnyResponse := by
  refine ⟨fun r r' now d b hb => ?_, fun _ _ _ _ _ => rfl⟩
  have hb : DontCareByte b := hb
  obtain ⟨i, hdecode, hi⟩ := hb.exists_decode
  obtain ⟨h0, h1, h2⟩ := hb.ne
  refine ⟨?_, fun hf => execute_function hf now d r, ?_⟩
  · have hmode := Rx.mode_execute_command now h0 d r
    rw [RxMode.afterCommand] at hmode
    rw [← hmode]
    exact execute_of_dontCareSet hdecode hi now d r r'
  · rw [Rx.busyUntil_execute now (fun h => h0 h.2)]
    simp [Rx.execTime, h1, h2]

end Sys2Proof.Machine

/-! PROOFS. The statements of 40_bus_transfer.md: the events of a nibble transaction and of a byte transfer (R101, R106,
R107), their counts (R108, R113, R147), `send_byte` (R109), the shape of an EN pulse (R102, R105) and the records of
`initialize` (R112, R149). -/

namespace Sys2Proof.Machine

/-! ## EN pulses (R102, R105) -/

theorem pulsesIntact_cons_of_ne {hold : Nat} {e : BusEvent} (he : e ≠ .setLine .en .high) (es : List BusEvent) :
    pulsesIntact hold (e :: es) = pulsesIntact hold es := by
  simp [pulsesIntact, he]

theorem pulsesIntact_rise (hold : Nat) (d f : BusEvent) (es : List BusEvent) :
    pulsesIntact hold (.setLine .en .high :: d :: f :: es)
      = ((d == .delay hold && f == .setLine .en .low) && pulsesIntact hold (d :: f :: es)) := rfl

/-- After events whose pulses are intact, the pulses to check are those of the events that follow. -/
theorem pulsesIntact_append {hold : Nat} {es : List BusEvent} (hes : pulsesIntact hold es = true)
    (fs : List BusEvent) : pulsesIntact hold (es ++ fs) = pulsesIntact hold fs := by
  induction es with
  | nil => rfl
  | cons e es ih =>
    by_cases he : e = .setLine .en .high
    · subst he
      match es, hes with
      | d :: f :: es, hes =>
        rw [pulsesIntact_rise, Bool.and_eq_true] at hes
        obtain ⟨hpulse, hrest⟩ := hes
        rw [List.cons_append, List.cons_append, List.cons_append, pulsesIntact_rise, hpulse, Bool.true_and]
        exact ih hrest
    · rw [pulsesIntact_cons_of_ne he] at hes
      rw [List.cons_append, pulsesIntact_cons_of_ne he, ih hes]

theorem pulsesIntact_flatMap {α : Type} {hold : Nat} {f : α → List BusEvent}
    (hf : ∀ x, pulsesIntact hold (f x) = true) (xs : List α) : pulsesIntact hold (xs.flatMap f) = true := by
  induction xs with
  | nil => rfl
  | cons x xs ih => rw [List.flatMap_cons, pulsesIntact_append (hf x), ih]

theorem pulsesIntact_delay (hold d : Nat) : pulsesIntact hold [.delay d] = true := rfl

theorem pulsesIntact_nibbleEvents (t : Tim) (rs : RegSel) (n : Nibble) :
    pulsesIntact t.tEnPulse (nibbleEvents t rs n) = true := by
  unfold nibbleEvents
  split <;> simp [pulsesIntact]

theorem pulsesIntact_byteEvents (t : Tim) (rs : RegSel) (v : Byte) :
    pulsesIntact t.tEnPulse (byteEvents t rs v) = true := by
  rw [byteEvents, List.append_assoc, pulsesIntact_append (pulsesIntact_nibbleEvents t rs _),
    pulsesIntact_append (pulsesIntact_nibbleEvents t rs _), pulsesIntact_delay]

/-- A state of `initialize` emits the pre-drive, a delay, a nibble transaction with its delay, or a byte transfer (R146). -/
theorem pulsesIntact_fsmEvents (t : Tim) (c : Cfg) (f : FsmState) :
    pulsesIntact t.tEnPulse (f.events t c) = true := by
  have recovery : ∀ n d, pulsesIntact t.tEnPulse (nibbleEvents t .command n ++ [.delay d]) = true := fun n d => by
    rw [pulsesIntact_append (pulsesIntact_nibbleEvents t .command n), pulsesIntact_delay]
  cases f with
  | uninit | pre | pwr | ready => rfl
  | rst1 | rst2 | rst3 | set4 => exact recovery _ _
  | cfgFunc | cfgDoff | cfgClr | cfgEntry => exact pulsesIntact_byteEvents t .command _

theorem pulsesIntact_initEvents (t : Tim) (c : Cfg) : pulsesIntact t.tEnPulse (initEvents t c) = true := by
  have hstates := pulsesIntact_flatMap (pulsesIntact_fsmEvents t c)
  rw [initEvents, recoveryEvents, pulsesIntact_append (hstates _), configEvents, hstates]

/-- Settles O31: every list of events that an instruction emits is a chain of nibble transactions and of events that do not
raise EN. -/
theorem enPulsesAreIntact : Obligations.EnPulsesAreIntact := by
  intro i s t es h htrace
  rcases exec_events_cases h htrace with rfl | ⟨rs, v, rfl⟩ | ⟨n, rfl⟩ | rfl
  · rfl
  · exact pulsesIntact_byteEvents s.tim rs v
  · exact pulsesIntact_nibbleEvents s.tim .command n
  · exact pulsesIntact_initEvents s.tim s.cfg

/-! ## The records of `initialize` (R112, R149) -/

/-- The pre-drive has no falling edge of EN when EN is not High before it (R133). -/
theorem txs_pre {lv : Levels} (hen : lv.en ≠ .high) (t : Tim) (c : Cfg) : txs lv (FsmState.pre.events t c) = [] := by
  simp [FsmState.events, txs, Levels.fallsAt, Levels.after, Levels.set, hen]

/-- The records of the recovery nibbles (R135-R138). -/
def recoveryRecords : List Record :=
  [record .command 0x3#4, record .command 0x3#4, record .command 0x3#4, record .command 0x2#4]

/-- The records of a byte transfer. -/
def byteRecords (rs : RegSel) (v : Byte) : List Record := [record rs (highNibble v), record rs (lowNibble v)]

/-- The bytes of step 7 (R140). -/
def configBytes (c : Cfg) : List Byte := [initFunctionByte c, 0x08#8, 0x01#8, 0x06#8]

theorem txs_recoveryEvents {lv : Levels} (hen : lv.en ≠ .high) (t : Tim) (c : Cfg) :
    txs lv (recoveryEvents t c) = recoveryRecords := by
  have hsplit : recoveryEvents t c = FsmState.pre.events t c
      ++ [FsmState.pwr, .rst1, .rst2, .rst3, .set4].flatMap (FsmState.events t c) := rfl
  rw [hsplit, txs_append, txs_pre hen]
  simp only [List.flatMap_cons, List.flatMap_nil, FsmState.events, txs_append, txs_nibbleEvents]
  rfl

/-- Step 7 begins and ends its pulses itself, so its records are the same from any levels. -/
theorem txs_configEvents (lv : Levels) (t : Tim) (c : Cfg) :
    txs lv (configEvents t c) = (configBytes c).flatMap (byteRecords .command) := by
  simp only [configEvents, configStates, List.flatMap_cons, List.flatMap_nil, FsmState.events, txs_append,
    txs_byteEvents]
  rfl

theorem highNibble_append_lowNibble (v : Byte) : (highNibble v ++ lowNibble v : BitVec 8) = v := by
  revert v
  decide +kernel

/-- The byte view takes the records of a byte as that byte (R112). -/
theorem byteView_byteRecords_append (rs : RegSel) (v : Byte) (rest : List Record) :
    byteView (byteRecords rs v ++ rest) = (byteView rest).map ((rs, v) :: ·) := by
  simp only [byteRecords, List.cons_append, List.nil_append, byteView, record, highNibble_append_lowNibble, if_true]
  cases byteView rest <;> rfl

theorem byteView_flatMap_byteRecords (rs : RegSel) (vs : List Byte) :
    byteView (vs.flatMap (byteRecords rs)) = some (vs.map (rs, ·)) := by
  induction vs with
  | nil => rfl
  | cons v vs ih => rw [List.flatMap_cons, byteView_byteRecords_append, ih]; rfl

/-- The FUNCTION byte of step 7.1 bit by bit (R140). -/
theorem initFunctionByte_eq (c : Cfg) :
    initFunctionByte c = 0x20#8 ||| (if c.lineCount = .two then 0x08#8 else 0#8)
      ||| (if c.font = .f5x10 then 0x04#8 else 0#8) := by
  unfold initFunctionByte
  cases c.lineCount <;> cases c.font <;> rfl

/-- Settles O33: four recovery nibbles, then the four bytes of step 7. -/
theorem initializeRecords : Obligations.InitializeRecords := by
  intro s t es hd hen hexec htrace
  rw [exec_initialize s hd] at hexec
  cases hexec
  have hes : es = initEvents s.tim s.cfg := by simpa using htrace.symm
  have hrecords : txs s.lv es = recoveryRecords ++ (configBytes s.cfg).flatMap (byteRecords .command) := by
    rw [hes, initEvents, txs_append, txs_recoveryEvents hen, txs_configEvents]
  intro func
  have hfunc : initFunctionByte s.cfg = func := initFunctionByte_eq s.cfg
  rw [hrecords]
  constructor
  · rw [← hfunc]
    rfl
  · rw [List.drop_left' (show recoveryRecords.length = 4 from rfl), byteView_flatMap_byteRecords, configBytes, hfunc]
    rfl

/-! ## The events of a nibble transaction and of a byte transfer (R101, R106, R107) -/

theorem lvl_bit (rs : RegSel) : lvl rs.bit = if rs = .data then .high else .low := by
  cases rs <;> rfl

theorem level_lvl (b : Bool) : (lvl b).level = if b then .high else .low := by
  cases b <;> rfl

theorem level_lvl_bit (rs : RegSel) : (lvl rs.bit).level = if rs = .data then .high else .low := by
  cases rs <;> rfl

/-- Settles O12: the trace gains the events, the levels are those the last drives leave, and events write no register. -/
theorem nibbleTransactionEvents : Obligations.NibbleTransactionEvents := by
  intro s rs n
  refine ⟨?_, ?_, emitAll_drv s _, emitAll_cfg s _, emitAll_tim s _, emitAll_phase s _⟩
  · rw [emitAll_trace, nibbleEvents, lvl_bit, ← List.append_assoc, ← List.append_assoc]
    rfl
  · rw [emitAll_lv, afterAll_nibbleEvents, nibbleLevels, level_lvl_bit]
    simp only [level_lvl]

/-- The execution delay is the long one for the command bytes 0x01 to 0x03 (R107). -/
theorem execDelay_eq (t : Tim) (rs : RegSel) (v : Byte) :
    execDelay t rs v
      = if rs = .command ∧ (v = 0x01#8 ∨ v = 0x02#8 ∨ v = 0x03#8) then t.tExecLong else t.tExecShort := by
  cases rs with
  | command => simp only [execDelay, true_and]
  | data => exact (if_neg (by simp)).symm

/-- Settles O13: the two nibbles of the byte and the execution delay. -/
theorem byteTransferEvents : Obligations.ByteTransferEvents := by
  intro t rs v
  rw [byteEvents, execDelay_eq, highNibble, lowNibble]

/-! ## Event counts (R108, R113, R147) -/

theorem length_nibbleEvents (t : Tim) (rs : RegSel) (n : Nibble) :
    (nibbleEvents t rs n).length = if 0 < t.tAs then 11 else 10 := by
  unfold nibbleEvents
  split <;> rfl

theorem length_byteEvents (t : Tim) (rs : RegSel) (v : Byte) :
    (byteEvents t rs v).length = if 0 < t.tAs then 23 else 21 := by
  simp only [byteEvents, List.length_append, length_nibbleEvents]
  split <;> rfl

/-- Steps 1 to 5: the pre-drive, the power-on wait, and four nibble transactions with a delay each. -/
theorem length_recoveryEvents (t : Tim) (c : Cfg) : (recoveryEvents t c).length = if 0 < t.tAs then 52 else 48 := by
  simp only [recoveryEvents, recoveryStates, List.flatMap_cons, List.flatMap_nil, FsmState.events, List.length_append,
    length_nibbleEvents]
  split <;> rfl

/-- Step 7: four byte transfers. -/
theorem length_configEvents (t : Tim) (c : Cfg) : (configEvents t c).length = if 0 < t.tAs then 92 else 84 := by
  simp only [configEvents, configStates, List.flatMap_cons, List.flatMap_nil, FsmState.events, List.length_append,
    length_byteEvents]
  split <;> rfl

theorem length_initEvents (t : Tim) (c : Cfg) : (initEvents t c).length = if 0 < t.tAs then 144 else 132 := by
  rw [initEvents, List.length_append, length_recoveryEvents, length_configEvents]
  split <;> rfl

/-- Settles O14: the set-up delay is one event in each of the twelve nibble transactions. -/
theorem eventCounts : Obligations.EventCounts := by
  intro t c rs n v
  rw [length_nibbleEvents, length_byteEvents, length_recoveryEvents, length_initEvents]
  constructor
  · intro h
    simp only [if_pos h, and_self]
  · intro h
    have hnot : ¬ 0 < t.tAs := by omega
    simp only [if_neg hnot, and_self]

/-! ## `send_byte` (R109) -/

/-- Settles O17: the plan is the byte transfer of the operand, unchecked, behind the guard `Ready`. -/
theorem sendByteResult : Obligations.SendByteResult := by
  intro s value rs
  have hplan : exec (.reqSendByte value rs) s = perform (bytePlan 1#4 rs value s) s := exec_eq_perform _ s
  rw [hplan]
  exact ⟨perform_bytePlan_ready _ rs value, perform_bytePlan_refused _ rs value⟩

end Sys2Proof.Machine

/-! PROOFS. The statements of 41_initialization.md: what `initialize` does (R131, R141), the position of its events and of
its driver states (R25, R146), and the delay sums (R148, R269). -/

namespace Sys2Proof.Machine

/-! ## `initialize` step by step (R141) -/

/-- Steps 1 to 5: the pre-drive, the power-on wait, and four recovery nibbles with their waits (R133-R138). -/
theorem emitAll_recoveryEvents (s : State) (t : Tim) (c : Cfg) :
    let nt := fun (n : Nibble) (d : Nat) (u : State) => emitAll u (nibbleEvents t .command n ++ [.delay d])
    emitAll s (recoveryEvents t c) = nt 0x2#4 t.t4Bit (nt 0x3#4 t.tReset3 (nt 0x3#4 t.tReset2 (nt 0x3#4 t.tReset1
      (emitAll s [.setLine .en .low, .setLine .rs .low, .setLine .rw .low, .delay t.tPowerOn])))) := by
  simp only [recoveryEvents, recoveryStates, List.flatMap_cons, List.flatMap_nil, FsmState.events, emitAll_append,
    emitAll_cons, emitAll_nil]

/-- Step 7: the byte transfers of FUNCTION from the configuration, 0x08, 0x01 and 0x06 (R140). -/
theorem emitAll_configEvents (s : State) (t : Tim) (c : Cfg) :
    let bt := fun (v : Byte) (u : State) => emitAll u (byteEvents t .command v)
    emitAll s (configEvents t c) = bt 0x06#8 (bt 0x01#8 (bt 0x08#8 (bt (initFunctionByte c) s))) := by
  have hoff : displayByte false false false = 0x08#8 := by decide
  have hclear : Command.clear.byte 0#8 = 0x01#8 := by decide
  have hentry : entryModeByte true false = 0x06#8 := by decide
  simp only [configEvents, configStates, List.flatMap_cons, List.flatMap_nil, FsmState.events, emitAll_append,
    emitAll_nil, hoff, hclear, hentry]

/-- Settles O23: an admitted `initialize` emits steps 1 to 5, writes `Ready` and emits step 7; any other is refused. -/
theorem initializeResult : Obligations.InitializeResult := by
  intro s
  refine ⟨fun hd => ?_, exec_initialize_refused⟩
  intro nt bt func s0 s1 s5 s6 s7
  have hbegun : setDrv (begun true (initEvents s.tim s.cfg) s) .initializing = s0 := rfl
  have hrecovery : emitAll s0 (recoveryEvents s.tim s.cfg) = s5 := emitAll_recoveryEvents s0 s.tim s.cfg
  have hconfig : emitAll s6 (configEvents s.tim s.cfg) = s7 := by
    rw [emitAll_configEvents, initFunctionByte_eq]
  have hrun : setDrv (emitAll (begun true (initEvents s.tim s.cfg) s) (initEvents s.tim s.cfg)) .ready = s7 :=
    calc setDrv (emitAll (begun true (initEvents s.tim s.cfg) s) (initEvents s.tim s.cfg)) .ready
        = setDrv (emitAll s0 (initEvents s.tim s.cfg)) .ready := by
          rw [← hbegun, emitAll_setDrv, setDrv_setDrv]
      _ = setDrv (emitAll s5 (configEvents s.tim s.cfg)) .ready := by
          rw [initEvents, emitAll_append, hrecovery]
      _ = emitAll s6 (configEvents s.tim s.cfg) := (emitAll_setDrv s5 .ready _).symm
      _ = s7 := hconfig
  rw [exec_initialize s hd, hrun]
  rfl

/-! ## The event position during `initialize` (R25, R26, R146) -/

@[simp] theorem runEvents_tim (ws : List DrvWrite) (k : Nat) (s : State) (es : List BusEvent) :
    (runEvents ws k s es).tim = s.tim :=
  (congrArg State.tim (runEvents_eq_setDrv ws k s es)).trans (by simp)

/-- With an event left to emit, a request stays in `Busy` (R26). -/
theorem settle_of_ne_nil {es : List BusEvent} (hes : es ≠ []) (pos : Nat) (ws : List DrvWrite) (resp : Option Response)
    (s : State) : settle pos es ws resp s = { s with phase := .busy pos es ws resp } := by
  cases es with
  | nil => exact absurd rfl hes
  | cons e es => rfl

/-- `n` micro-steps into a request, with an event left: the first `n` events are emitted, with the writes due (R26). -/
theorem run_of_busy {s : State} {pos n : Nat} {rest : List BusEvent} {ws : List DrvWrite} {resp : Option Response}
    (hp : s.phase = .busy pos rest ws resp) (hagent : oneAgent s.inbox) (hn : n < rest.length) :
    Host.Core.run core n s
      = .next { runEvents ws pos s (rest.take n) with phase := .busy (pos + n) (rest.drop n) ws resp } := by
  induction n generalizing s pos rest with
  | zero => exact congrArg (fun p => Host.Outcome.next { s with phase := p }) hp
  | succ n ih =>
    cases rest with
    | nil => exact absurd hn (by simp)
    | cons e es =>
      have hlen : n < es.length := by simpa using hn
      have hes : es ≠ [] := by rintro rfl; simp at hlen
      rw [run_succ_of_step (step_of_busy hp hagent), microStep_of_event hp, settle_of_ne_nil hes,
        ih rfl (by simpa using hagent) hlen, runEvents_phase, Nat.add_right_comm, Nat.add_assoc]
      rfl

/-- The writes of `initialize` at the next event: `drv` is `Ready` from the end of step 5 on (R139). -/
theorem dueDrv_initialize_succ (r k : Nat) :
    dueDrv (k + 1) (if k < r then .initializing else .ready) [(0, .initializing), (r, .ready)]
      = if k + 1 < r then .initializing else .ready := by
  rcases Nat.lt_trichotomy (k + 1) r with h | h | h
  · simp [dueDrv, h, h.ne', Nat.lt_of_succ_lt h]
  · simp [dueDrv, h]
  · simp [dueDrv, h.ne, h.not_gt, Nat.not_lt.mpr (Nat.le_of_lt_succ h)]

/-- `drv` while the events of `initialize` are emitted from position `k` on (R132, R139). -/
theorem drv_runEvents_initialize {r k : Nat} {s : State} (hs : s.drv = if k < r then .initializing else .ready)
    (es : List BusEvent) :
    (runEvents [(0, .initializing), (r, .ready)] k s es).drv
      = if k + es.length < r then .initializing else .ready := by
  induction es generalizing k s with
  | nil => exact hs
  | cons e es ih =>
    rw [runEvents, ih, List.length_cons, Nat.add_right_comm, Nat.add_assoc]
    rw [drv_applyWrites, emit_drv, hs, dueDrv_initialize_succ]

/-- While the `initialize` list runs, the state machine is at the event position (R25, R146). -/
theorem fsm_of_busy {s : State} {pos : Nat} {rest : List BusEvent} {ws : List DrvWrite} {resp : Option Response}
    (hp : s.phase = .busy pos rest ws resp) (hpos : pos + rest.length = (initEvents s.tim s.cfg).length) :
    s.fsm = fsmAt s.tim s.cfg (recoveryStates ++ configStates) pos := by
  simp [State.fsm, hp, hpos]

/-- `initialize` is one of its own canonical words (R85, R86). -/
theorem decode_encode_initialize : decode (encode .reqInitialize) = .ok .reqInitialize := by decide

/-- The state that `initialize` is accepted into: `Busy` with its whole list, and `drv` is `Initializing` (R26, R132). -/
def initializeAccepted (s : State) : State :=
  { setDrv (begun true (initEvents s.tim s.cfg) s) .initializing with
    phase := .busy 0 (initEvents s.tim s.cfg)
      [(0, .initializing), ((recoveryEvents s.tim s.cfg).length, .ready)] (some .ok) }

/-- Accepting an admitted `initialize` (R26, R131). -/
theorem accept_initialize {s : State} (hd : s.drv = .uninitialized) :
    accept (planOf .reqInitialize s) s = initializeAccepted s := by
  have hplan : planOf .reqInitialize s = .run (initEvents s.tim s.cfg)
      [(0, .initializing), ((recoveryEvents s.tim s.cfg).length, .ready)] (some .ok) := if_pos hd
  have hne : initEvents s.tim s.cfg ≠ [] := by simp [initEvents, recoveryEvents, recoveryStates, FsmState.events]
  have hinit : initializes [(0, .initializing), ((recoveryEvents s.tim s.cfg).length, .ready)] = true := by
    simp [initializes]
  rw [hplan, accept, settle_of_ne_nil hne, hinit, applyWrites_eq_setDrv, drv_applyWrites, dueDrv_initialize]
  rfl

/-- `n` micro-steps after `initialize` is accepted, with an event left: the state machine is at position `n`, `drv` is that
of the position, and the first `n` events are emitted (R25, R132, R139, R146). -/
theorem run_initializeAccepted (s : State) {n : Nat} (hagent : oneAgent s.inbox)
    (hn : n < (initEvents s.tim s.cfg).length) :
    ∃ t, Host.Core.run core n (initializeAccepted s) = .next t
      ∧ t.fsm = fsmAt s.tim s.cfg (recoveryStates ++ configStates) n
      ∧ t.drv = (if n < (recoveryEvents s.tim s.cfg).length then .initializing else .ready)
      ∧ t.trace = s.trace ++ (initEvents s.tim s.cfg).take n := by
  have hdrv : (initializeAccepted s).drv
      = if 0 < (recoveryEvents s.tim s.cfg).length then .initializing else .ready :=
    (if_pos (recoveryEvents_length_pos s.tim s.cfg)).symm
  have htake : ((initEvents s.tim s.cfg).take n).length = n := List.length_take_of_le (Nat.le_of_lt hn)
  refine ⟨_, run_of_busy (s := initializeAccepted s) rfl hagent hn, ?_, ?_, ?_⟩
  · rw [fsm_of_busy rfl, runEvents_tim, runEvents_cfg, Nat.zero_add]
    · rfl
    · rw [runEvents_tim, runEvents_cfg, List.length_drop, Nat.zero_add]
      exact Nat.add_sub_of_le (Nat.le_of_lt hn)
  · exact (drv_runEvents_initialize hdrv _).trans (by rw [htake, Nat.zero_add])
  · exact runEvents_trace ..

/-- Settles O11: accepting `initialize` takes one step, and each of its events one more, which the state machine and `drv`
follow. -/
theorem initializeWalksItsStates : Obligations.InitializeWalksItsStates := by
  intro s t n hidle hgrain hd hinbox hn hrun
  have hstep : step s = .next (initializeAccepted { s with inbox := [] }) :=
    ((stepRunsDecodedInstruction s _ _ [] hidle hinbox decode_encode_initialize).2 hgrain).trans
      (congrArg Host.Outcome.next (accept_initialize hd))
  obtain ⟨u, hu, hwalk⟩ := run_initializeAccepted { s with inbox := [] } (by simp [oneAgent]) hn
  rw [Nat.add_comm, run_succ_of_step hstep, hu] at hrun
  obtain rfl := Host.Outcome.next.inj hrun
  exact hwalk

/-! ## The delay sums (R148, R269) -/

theorem delaySum_nibbleEvents (t : Tim) (rs : RegSel) (n : Nibble) :
    delaySum (nibbleEvents t rs n) = t.tAs + t.tEnPulse + t.tNibbleSettle := by
  have hsetup : delaySum (if 0 < t.tAs then [.delay t.tAs] else []) = t.tAs := by
    split
    · rfl
    · simp only [delaySum]; omega
  simp only [nibbleEvents, delaySum_append, hsetup, delaySum, BusEvent.minDuration]
  omega

theorem delaySum_byteEvents (t : Tim) (rs : RegSel) (v : Byte) :
    delaySum (byteEvents t rs v) = 2 * (t.tAs + t.tEnPulse + t.tNibbleSettle) + execDelay t rs v := by
  simp only [byteEvents, delaySum_append, delaySum_nibbleEvents, delaySum, BusEvent.minDuration]
  omega

/-- The FUNCTION byte of step 7.1 takes the short delay (R107, R140). -/
theorem execDelay_initFunctionByte (t : Tim) (c : Cfg) : execDelay t .command (initFunctionByte c) = t.tExecShort := by
  rw [initFunctionByte_eq]
  cases c.lineCount <;> cases c.font <;> rfl

theorem delaySum_recoveryEvents (t : Tim) (c : Cfg) :
    delaySum (recoveryEvents t c) = t.tPowerOn + t.tReset1 + t.tReset2 + t.tReset3 + t.t4Bit
      + 4 * (t.tAs + t.tEnPulse + t.tNibbleSettle) := by
  simp only [recoveryEvents, recoveryStates, List.flatMap_cons, List.flatMap_nil, FsmState.events, delaySum_append,
    delaySum_nibbleEvents, delaySum, BusEvent.minDuration]
  omega

theorem delaySum_configEvents (t : Tim) (c : Cfg) :
    delaySum (configEvents t c) = 8 * (t.tAs + t.tEnPulse + t.tNibbleSettle) + 3 * t.tExecShort + t.tExecLong := by
  have hoff : execDelay t .command (displayByte false false false) = t.tExecShort := rfl
  have hclear : execDelay t .command (Command.clear.byte 0#8) = t.tExecLong := rfl
  have hentry : execDelay t .command (entryModeByte true false) = t.tExecShort := rfl
  simp only [configEvents, configStates, List.flatMap_cons, List.flatMap_nil, FsmState.events, delaySum_append,
    delaySum_byteEvents, execDelay_initFunctionByte, hoff, hclear, hentry, delaySum]
  omega

/-- Settles O15: the sums of the nibble transactions and byte transfers that the list is made of. -/
theorem delaySums : Obligations.DelaySums := by
  intro t c rs n v
  rw [delaySum_nibbleEvents, delaySum_byteEvents, execDelay_eq, initEvents, delaySum_append, delaySum_recoveryEvents,
    delaySum_configEvents]
  refine ⟨rfl, rfl, ?_⟩
  omega

end Sys2Proof.Machine

/-! PROOFS. The statements of 42_commands.md: what each command request sends, and what it answers outside `Ready`
(R161-R172), and that `clear` is idempotent at the receiver (R174). -/

namespace Sys2Proof.Machine

/-! ## Requests that are one byte transfer (R160) -/

/-- A request whose plan is a byte transfer sends its byte in `Ready`, and is refused by its op code outside it. -/
theorem exec_of_bytePlan {i : Instr} {op : OpCode} {rs : RegSel} {v : Byte} {s : State}
    (hplan : planOf i s = bytePlan op rs v s) :
    (s.drv = .ready → exec i s = .next (transferred s rs v))
    ∧ (s.drv ≠ .ready → exec i s = .next (failed s (.protocolStateError op))) := by
  rw [exec_eq_perform, hplan]
  exact ⟨perform_bytePlan_ready op rs v, perform_bytePlan_refused op rs v⟩

theorem exec_reqClear (s : State) :
    (s.drv = .ready → exec .reqClear s = .next (transferred s .command 0x01#8))
    ∧ (s.drv ≠ .ready → exec .reqClear s = .next (failed s (.protocolStateError 2#4))) :=
  exec_of_bytePlan rfl

theorem exec_reqReturnHome (s : State) :
    (s.drv = .ready → exec .reqReturnHome s = .next (transferred s .command 0x02#8))
    ∧ (s.drv ≠ .ready → exec .reqReturnHome s = .next (failed s (.protocolStateError 3#4))) :=
  exec_of_bytePlan rfl

/-- Settles O18: both are one byte transfer, of two of the three bytes with the long delay. -/
theorem clearAndReturnHomeResult : Obligations.ClearAndReturnHomeResult := by
  intro s
  obtain ⟨clearReady, clearRefused⟩ := exec_reqClear s
  obtain ⟨homeReady, homeRefused⟩ := exec_reqReturnHome s
  exact ⟨fun hd => ⟨clearReady hd, homeReady hd, rfl, rfl⟩, fun hd => ⟨clearRefused hd, homeRefused hd⟩⟩

/-! ## The operand bits and the short execution delay (R76, R107) -/

/-- A mask only adds bits to the opcode. -/
theorem Command.opc_le_byte (c : Command) (p : Byte) : c.opc ≤ c.byte p := by
  rw [BitVec.le_def, Command.byte, BitVec.toNat_or]
  exact Nat.left_le_or

/-- Only CLEAR and RETURN_HOME take the long execution delay: the opcode of every other command is above 0x03. -/
theorem execDelay_commandByte {c : Command} (hc : 0x03#8 < c.opc) (t : Tim) (p : Byte) :
    execDelay t .command (c.byte p) = t.tExecShort := by
  have hlt : 0x03#8 < c.byte p := Nat.lt_of_lt_of_le hc (c.opc_le_byte p)
  have hshort : ¬(c.byte p = 0x01#8 ∨ c.byte p = 0x02#8 ∨ c.byte p = 0x03#8) := by
    rintro (h | h | h) <;> simp [h] at hlt
  exact if_neg hshort

theorem entryModeByte_eq (x y : Bool) :
    entryModeByte x y = 0x04#8 ||| (if x then 0x02#8 else 0#8) ||| (if y then 0x01#8 else 0#8) := by
  revert x y
  decide

theorem displayByte_eq (x y z : Bool) :
    displayByte x y z
      = 0x08#8 ||| (if x then 0x04#8 else 0#8) ||| (if y then 0x02#8 else 0#8) ||| (if z then 0x01#8 else 0#8) := by
  revert x y z
  decide

theorem shiftByte_eq (x y : Bool) :
    shiftByte x y = 0x10#8 ||| (if x then 0x08#8 else 0#8) ||| (if y then 0x04#8 else 0#8) := by
  revert x y
  decide

/-- FUNCTION as the engine sends it, with DL = 0 (R166). -/
theorem functionByte_eq (lines font : Bool) :
    functionByte false lines font = 0x20#8 ||| (if lines then 0x08#8 else 0#8) ||| (if font then 0x04#8 else 0#8) := by
  revert lines font
  decide

/-- Settles O19: each is one byte transfer of an opcode above 0x03 with its operand bits. -/
theorem modeDisplayShiftResult : Obligations.ModeDisplayShiftResult := by
  intro s x y z
  simp only [← entryModeByte_eq, ← displayByte_eq, ← shiftByte_eq]
  obtain ⟨entryReady, entryRefused⟩ := exec_of_bytePlan (i := .reqSetEntryMode x y) (s := s) rfl
  obtain ⟨displayReady, displayRefused⟩ := exec_of_bytePlan (i := .reqSetDisplay x y z) (s := s) rfl
  obtain ⟨shiftReady, shiftRefused⟩ := exec_of_bytePlan (i := .reqShift x y) (s := s) rfl
  constructor
  · intro hd
    exact ⟨entryReady hd, displayReady hd, shiftReady hd, execDelay_commandByte (by decide) _ _,
      execDelay_commandByte (by decide) _ _, execDelay_commandByte (by decide) _ _⟩
  · intro hd
    exact ⟨entryRefused hd, displayRefused hd, shiftRefused hd⟩

/-- Settles O21: each is one byte transfer of its opcode and the masked address. -/
theorem addressCommandsMask : Obligations.AddressCommandsMask := by
  intro s addr
  obtain ⟨cgramReady, cgramRefused⟩ := exec_of_bytePlan (i := .reqSetCgramAddress addr) (s := s) rfl
  obtain ⟨ddramReady, ddramRefused⟩ := exec_of_bytePlan (i := .reqSetDdramAddress addr) (s := s) rfl
  constructor
  · intro hd
    exact ⟨cgramReady hd, ddramReady hd, execDelay_commandByte (c := .cgramAddr) (by decide) s.tim addr,
      execDelay_commandByte (c := .ddramAddr) (by decide) s.tim addr⟩
  · intro hd
    exact ⟨cgramRefused hd, ddramRefused hd⟩

/-- Settles O22: it is one data byte transfer, and no data byte has the long delay. -/
theorem writeCharResult : Obligations.WriteCharResult := by
  intro s byte
  obtain ⟨ready, refused⟩ := exec_of_bytePlan (i := .reqWriteChar byte) (s := s) rfl
  exact ⟨fun hd => ⟨ready hd, rfl⟩, refused⟩

/-! ## `set_function` and its checks (R166, R167) -/

theorem exec_reqSetFunction (busWidth lines font : Bool) (s : State) :
    exec (.reqSetFunction busWidth lines font) s = perform (planReqSetFunction busWidth lines font s) s :=
  exec_eq_perform _ s

/-- Settles O20: the first check that fails answers, and a request that passes them all is one byte transfer. -/
theorem setFunctionResult : Obligations.SetFunctionResult := by
  intro s busWidth lines font
  rw [exec_reqSetFunction, planReqSetFunction]
  refine ⟨fun hd => ?_, fun hd hbus => ?_, fun hd hbus hlines hfont => ?_, fun hd hbus hlegal => ?_⟩
  · rw [if_neg hd]; rfl
  · rw [if_pos hd, if_pos hbus]; rfl
  · subst hbus hlines hfont
    rw [if_pos hd]; rfl
  · subst hbus
    have hpair : ¬(lines && font) = true := by rwa [Bool.and_eq_true]
    rw [if_pos hd, if_neg Bool.false_ne_true, if_neg hpair, perform_run_nil, functionByte_eq]
    exact ⟨rfl, by rw [transferred, respond_cfg, emitAll_cfg, begun_cfg]⟩

/-! ## A byte transfer at a ready receiver (R204-R206, R210, R212) -/

theorem rxReady_iff {s : State} :
    s.rxReady = true ↔
      s.rx.mode = .m4h ∧ s.rx.busyUntil ≤ s.clock ∧ s.losing = false ∧ s.sync = .held := by
  simp [State.rxReady, and_assoc]

/-- The settle and execution delays give the receiver the time that the byte takes it (R210 (c), R212). -/
theorem execTime_le_of_waits {t : Tim} (ht : t.waits = true) (rs : RegSel) (v : Byte) :
    Rx.execTime rs v ≤ t.tNibbleSettle + execDelay t rs v := by
  simp only [Tim.waits, Bool.and_eq_true, decide_eq_true_eq] at ht
  obtain ⟨⟨-, hshort⟩, hlong⟩ := ht
  cases rs with
  | data => exact hshort
  | command =>
    simp only [Rx.execTime, execDelay]
    split
    · exact hlong
    · omega

/-- A byte transfer to a ready receiver is one execution of its byte, followed by the settle and execution delays; it is
hazard (b) of R267 when it carries FUNCTION with DL = 1. -/
theorem transferred_rx {s : State} (hready : s.rxReady = true) (hc : s.tim.covers) (rs : RegSel) (v : Byte) :
    ∃ (now : Nat) (d : RxDraws), s.clock ≤ now ∧ (transferred s rs v).rx = s.rx.execute now rs v d
      ∧ now + s.tim.tNibbleSettle + execDelay s.tim rs v ≤ (transferred s rs v).clock
      ∧ (transferred s rs v).losing = false
      ∧ (transferred s rs v).sync = if rs = .command ∧ highNibble v = 0x3#4 then .leaving else .held := by
  obtain ⟨hmode, hbusy, hlosing, hsync⟩ := rxReady_iff.mp hready
  have hbegun : (begun false (byteEvents s.tim rs v) s).sync
      = if rs = .command ∧ highNibble v = 0x3#4 then .leaving else .held := by
    rw [begun_sync, sync_begin_byteEvents, if_pos hsync]
  have hlost : (begun false (byteEvents s.tim rs v) s).sync ≠ .lost := by
    rw [hbegun]
    split <;> simp
  obtain ⟨now, d, hnow, hrx, hclock, hlosing', hsync'⟩ :=
    emitAll_byteEvents_rx (begun false (byteEvents s.tim rs v) s) rs v hc hlosing hlost hmode hbusy
  simp only [transferred, respond_rx, respond_clock, respond_losing, respond_sync]
  exact ⟨now, d, hnow, hrx, hclock, hlosing', hsync'.trans hbegun⟩

/-- A receiver in `M4H` stays in it unless the byte is FUNCTION with DL = 1 or the command byte 0x00 (R206). -/
theorem mode_execute_of_m4h {rs : RegSel} {v : Byte} (hfun : ¬(rs = .command ∧ highNibble v = 0x3#4))
    (hzero : ¬(rs = .command ∧ v = 0x00#8)) {r : Rx} (hmode : r.mode = .m4h) (now : Nat) (d : RxDraws) :
    (r.execute now rs v d).mode = .m4h := by
  cases rs with
  | data => rw [Rx.mode_execute_data, hmode]
  | command =>
    have hkeeps : ∀ v : Byte, highNibble v ≠ 0x3#4 → RxMode.m4h.afterCommand v = .m4h := by decide +kernel
    rw [Rx.mode_execute_command now fun h => hzero ⟨rfl, h⟩, hmode]
    exact hkeeps v fun h => hfun ⟨rfl, h⟩

/-- After such a byte the receiver is ready again. -/
theorem rxReady_transferred {s : State} (hready : s.rxReady = true) (hc : s.tim.covers) {rs : RegSel} {v : Byte}
    (hfun : ¬(rs = .command ∧ highNibble v = 0x3#4)) (hzero : ¬(rs = .command ∧ v = 0x00#8)) :
    (transferred s rs v).rxReady = true := by
  obtain ⟨hmode, -⟩ := rxReady_iff.mp hready
  obtain ⟨now, d, -, hrx, hclock, hlosing, hsync⟩ := transferred_rx hready hc rs v
  have htime := execTime_le_of_waits hc.1 rs v
  refine rxReady_iff.mpr ⟨?_, ?_, hlosing, hsync.trans (if_neg hfun)⟩
  · rw [hrx, mode_execute_of_m4h hfun hzero hmode]
  · rw [hrx, Rx.busyUntil_execute now hzero]
    omega

/-! ## `clear` at the receiver (R174, R211) -/

/-- The receiver after CLEAR, but for its busy time (R211). -/
theorem execute_clear (now : Nat) (d : RxDraws) (r : Rx) :
    r.execute now .command 0x01#8 d
      = { r with ddram := [], ac := 0#7, space := .ddram, increment := true, busyUntil := now + 1520000 } := rfl

/-- CLEAR at a ready receiver (R211). -/
theorem transferred_clear_rx {s : State} (hready : s.rxReady = true) (hc : s.tim.covers) :
    ∃ b, (transferred s .command 0x01#8).rx
      = { s.rx with ddram := [], ac := 0#7, space := .ddram, increment := true, busyUntil := b } := by
  obtain ⟨now, d, -, hrx, -⟩ := transferred_rx hready hc .command 0x01#8
  exact ⟨_, hrx.trans (execute_clear now d s.rx)⟩

/-- Settles O50: the first `clear` leaves the receiver ready for the second, and CLEAR sets every part it writes to a
constant, the busy time apart. -/
theorem clearIsIdempotentAtReceiver : Obligations.ClearIsIdempotentAtReceiver := by
  intro s hd hready hc
  generalize ht : transferred s .command 0x01#8 = t
  have hdt : t.drv = .ready := by rw [← ht, transferred, respond_drv, emitAll_drv, begun_drv, hd]
  have hct : t.tim.covers := by rwa [← ht, transferred, respond_tim, emitAll_tim, begun_tim]
  have hreadyt : t.rxReady = true := ht ▸ rxReady_transferred hready hc (by decide) (by decide)
  obtain ⟨b, hrx⟩ := transferred_clear_rx hready hc
  obtain ⟨b', hrx'⟩ := transferred_clear_rx hreadyt hct
  rw [ht] at hrx
  refine ⟨t, _, ht ▸ (exec_reqClear s).1 hd, (exec_reqClear t).1 hdt, ?_, ?_, ?_⟩
  · intro a
    rw [hrx]; rfl
  · rw [hrx]
  · rw [hrx', hrx]

end Sys2Proof.Machine

/-! PROOFS. The statements of 45_controller_reference.md: the recovery sequence at the receiver (R203-R206, R209), what
`initialize` leaves there (R210), and what a byte transfer and the requests that are one do there (R210, R211). -/

namespace Sys2Proof.Machine

/-! ## The recovery nibbles at the receiver (R203-R206, R209) -/

section
variable {now : Nat} {r : Rx} {n : Nibble} {d : RxDraws}

/-- The latch of the nibble `n` completes the byte `b`, which the receiver executes in the mode `m`: in `M8` with the levels of
D3..D0, in `M4L` with the nibble held (R203, R205). -/
inductive Completes (r : Rx) (n : Nibble) (d : RxDraws) : (m : RxMode) → (b : Byte) → Prop where
  | m8 : r.mode = .m8 → Completes r n d .m8 (n ++ d.low)
  | m4l {h : Nibble} : r.mode = .m4l h → Completes r n d .m4h (h ++ n)

/-- A latch that completes a command byte other than 0x00 executes it (R206, R212). -/
theorem latch_of_completes {m : RxMode} {b : Byte} (hbusy : r.busyUntil ≤ now) (hcompletes : Completes r n d m b)
    (hb : b ≠ 0#8) :
    (r.latch now .command n d).mode = m.afterCommand b
    ∧ (r.latch now .command n d).busyUntil = now + Rx.execTime .command b := by
  rw [Rx.latch_of_not_busy .command n d hbusy]
  have hzero : ¬(RegSel.command = .command ∧ b = 0#8) := fun h => hb h.2
  cases hcompletes with
  | m8 hmode =>
    have hexec := Rx.mode_execute_command now hb d r
    rw [hmode] at hexec ⊢
    exact ⟨hexec, Rx.busyUntil_execute now hzero d r⟩
  | m4l hmode =>
    rw [hmode]
    exact ⟨Rx.mode_execute_command now hb d _, Rx.busyUntil_execute now hzero d _⟩

/-- A latch in `M4H` holds the nibble and executes nothing (R204). -/
theorem latch_of_m4h (hbusy : r.busyUntil ≤ now) (hmode : r.mode = .m4h) :
    (r.latch now .command n d).mode = .m4l n ∧ (r.latch now .command n d).busyUntil = r.busyUntil := by
  rw [Rx.latch_of_not_busy .command n d hbusy, hmode]
  exact ⟨rfl, rfl⟩

/-- No execution takes longer than CLEAR and RETURN_HOME (R212). -/
theorem execTime_le_longest (rs : RegSel) (b : Byte) : Rx.execTime rs b ≤ 1520000 := by
  cases rs with
  | data => exact Nat.le_of_ble_eq_true rfl
  | command => simp only [Rx.execTime]; split <;> omega

/-- A latch that completes a FUNCTION byte sets the mode by DL and takes 37 us, whatever the mode before (R206, R212). -/
theorem latch_function {m : RxMode} {b : Byte} (hbusy : r.busyUntil ≤ now) (hcompletes : Completes r n d m b)
    (hfunction : b.extractLsb' 5 3 = 1#3) :
    (r.latch now .command n d).mode = (if b.getLsbD 4 then .m8 else .m4h)
    ∧ (r.latch now .command n d).busyUntil = now + 37000 := by
  have hshort : ∀ b : Byte, b.extractLsb' 5 3 = 1#3 → b ≠ 0#8 ∧ Rx.execTime .command b = 37000 := by decide +kernel
  obtain ⟨hb, htime⟩ := hshort b hfunction
  obtain ⟨hmode, hbusy'⟩ := latch_of_completes hbusy hcompletes hb
  exact ⟨by rw [hmode]; exact if_pos hfunction, by rw [hbusy', htime]⟩

/-- A receiver in `M8`, or in `M4L` with the high nibble 0x3 held, reads 0x3 as FUNCTION with DL = 1 (R209). -/
theorem latch_three_function (hbusy : r.busyUntil ≤ now) (hmode : r.mode = .m8 ∨ r.mode = .m4l 0x3#4) :
    (r.latch now .command 0x3#4 d).mode = .m8 ∧ (r.latch now .command 0x3#4 d).busyUntil = now + 37000 := by
  have hfunction : ∀ x : Nibble, (0x3#4 ++ x : Byte).extractLsb' 5 3 = 1#3 ∧ (0x3#4 ++ x : Byte).getLsbD 4 = true := by
    decide
  obtain ⟨m, x, hcompletes⟩ : ∃ m x, Completes r 0x3#4 d m (0x3#4 ++ x) := by
    rcases hmode with h | h
    · exact ⟨_, d.low, .m8 h⟩
    · exact ⟨_, 0x3#4, .m4l h⟩
  obtain ⟨hf, hdl⟩ := hfunction x
  simpa only [hdl, if_true] using latch_function hbusy hcompletes hf

end

/-- One column of the table of R209: the latch of a nibble that finds the receiver not busy and its mode in `P` leaves the mode
in `Q`, and keeps the receiver busy for `time` at most. -/
def NibbleLeads (P : RxMode → Prop) (n : Nibble) (time : Nat) (Q : RxMode → Prop) : Prop :=
  ∀ (now : Nat) (r : Rx) (d : RxDraws), r.busyUntil ≤ now → P r.mode →
    Q (r.latch now .command n d).mode ∧ (r.latch now .command n d).busyUntil ≤ now + time

/-- The modes after one 0x3 (R209). -/
def AfterFirstThree (m : RxMode) : Prop := m = .m8 ∨ m = .m4h ∨ m = .m4l 0x3#4

/-- The modes after two 0x3 (R209). -/
def AfterSecondThree (m : RxMode) : Prop := m = .m8 ∨ m = .m4l 0x3#4

/-- The first 0x3, from any mode; what it executes can be RETURN_HOME (R209). -/
theorem firstThree_leads : NibbleLeads (fun _ => True) 0x3#4 1520000 AfterFirstThree := by
  intro now r d hbusy _
  cases hmode : r.mode with
  | m8 =>
    obtain ⟨hmode', hbusy'⟩ := latch_three_function (d := d) hbusy (.inl hmode)
    exact ⟨.inl hmode', by omega⟩
  | m4h =>
    obtain ⟨hmode', hbusy'⟩ := latch_of_m4h (n := 0x3#4) (d := d) hbusy hmode
    exact ⟨.inr (.inr hmode'), by omega⟩
  | m4l h =>
    have hbyte : ∀ h : Nibble, (h ++ 0x3#4 : Byte) ≠ 0#8 := by decide
    obtain ⟨hmode', hbusy'⟩ := latch_of_completes (n := 0x3#4) (d := d) hbusy (.m4l hmode) (hbyte h)
    have htime := execTime_le_longest .command (h ++ 0x3#4)
    refine ⟨?_, by omega⟩
    rw [hmode', RxMode.afterCommand]
    split
    · split
      · exact .inl rfl
      · exact .inr (.inl rfl)
    · exact .inr (.inl rfl)

/-- The second 0x3: a receiver in `M4H` holds it, any other executes FUNCTION (R209). -/
theorem secondThree_leads : NibbleLeads AfterFirstThree 0x3#4 37000 AfterSecondThree := by
  intro now r d hbusy hmode
  by_cases h : r.mode = .m4h
  · obtain ⟨hmode', hbusy'⟩ := latch_of_m4h (n := 0x3#4) (d := d) hbusy h
    exact ⟨.inr hmode', by omega⟩
  · obtain ⟨hmode', hbusy'⟩ := latch_three_function (d := d) hbusy (hmode.imp_right fun hm => hm.resolve_left h)
    exact ⟨.inl hmode', by omega⟩

/-- The third 0x3 is FUNCTION with DL = 1 (R209). -/
theorem thirdThree_leads : NibbleLeads AfterSecondThree 0x3#4 37000 (· = .m8) := by
  intro now r d hbusy hmode
  obtain ⟨hmode', hbusy'⟩ := latch_three_function (d := d) hbusy hmode
  exact ⟨hmode', by omega⟩

/-- 0x2 in `M8` is FUNCTION with DL = 0 (R209). -/
theorem two_leads : NibbleLeads (· = .m8) 0x2#4 37000 (· = .m4h) := by
  intro now r d hbusy hmode
  have hfunction : ∀ x : Nibble, (0x2#4 ++ x : Byte).extractLsb' 5 3 = 1#3 ∧ (0x2#4 ++ x : Byte).getLsbD 4 = false := by
    decide
  obtain ⟨hf, hdl⟩ := hfunction d.low
  obtain ⟨hmode', hbusy'⟩ := latch_function (n := 0x2#4) hbusy (.m8 hmode) hf
  rw [hdl] at hmode'
  exact ⟨hmode', by omega⟩

/-- Settles O45: each 0x3 narrows the modes as the table of R209 says, until all are `M8`; after 0x5 and 0x3, CGRAM_ADDR, the
second 0x3 is a high nibble, and 0x32 is FUNCTION with DL = 1. -/
theorem recoveryConverges : Obligations.RecoveryConverges := by
  constructor
  · intro r t1 t2 t3 t4 d1 d2 d3 d4 r1 r2 r3 r4 h1 h2 h3 h4
    obtain ⟨hmode1, -⟩ := firstThree_leads t1 r d1 h1 trivial
    obtain ⟨hmode2, -⟩ := secondThree_leads t2 r1 d2 h2 hmode1
    obtain ⟨hmode3, -⟩ := thirdThree_leads t3 r2 d3 h3 hmode2
    obtain ⟨hmode4, -⟩ := two_leads t4 r3 d4 h4 hmode3
    exact hmode4
  · intro r t1 t2 t3 d1 d2 d3 r1 r2 r3 hmode h1 h2 h3
    have hcgram : (0x5#4 ++ 0x3#4 : Byte) ≠ 0#8 := by decide
    obtain ⟨hmode1, -⟩ := latch_of_completes (d := d1) h1 (.m4l hmode) hcgram
    obtain ⟨hmode2, -⟩ := latch_of_m4h (n := 0x3#4) (d := d2) h2 hmode1
    exact (latch_function (d := d3) h3 (.m4l hmode2) (by decide)).1

/-! ## The recovery sequence as `initialize` emits it (R133-R138, R209) -/

/-- With the timing record `t`, the receiver takes the next record by R203-R205 in a mode of `P`: it is not busy, the
transaction reaches it, and no hazard of R267 has desynchronized it. -/
def Listening (t : Tim) (P : RxMode → Prop) (s : State) : Prop :=
  s.tim = t ∧ P s.rx.mode ∧ s.rx.busyUntil ≤ s.clock ∧ s.losing = false ∧ s.sync = .held

/-- One recovery nibble with its wait is one column of the table of R209, if what it executes takes no longer than the settle
delay and the wait. -/
theorem Listening.recoveryNibble {t : Tim} {P Q : RxMode → Prop} {s : State} {n : Nibble} {time wait : Nat}
    (hs : Listening t P s) (hc : t.covers) (hleads : NibbleLeads P n time Q) (htime : time ≤ t.tNibbleSettle + wait) :
    Listening t Q (emitAll s (nibbleEvents t .command n ++ [.delay wait])) := by
  obtain ⟨rfl, hmode, hbusy, hlosing, hsync⟩ := hs
  obtain ⟨now, d, hnow, hrx, hclock, hlosing', hsync'⟩ := emitAll_nibbleEvents_rx s .command n hc hlosing
  have hheld : s.sync ≠ .lost := by simp [hsync]
  obtain ⟨hmode', hbusy'⟩ := hleads now s.rx d (by omega) hmode
  rw [← latched_of_sync hheld, ← hrx] at hmode' hbusy'
  rw [emitAll_append]
  have htim := emitAll_tim s (nibbleEvents s.tim .command n)
  generalize emitAll s (nibbleEvents s.tim .command n) = u at hrx hmode' hbusy' hclock hlosing' hsync' htim ⊢
  obtain ⟨hrxw, hlosingw, hsyncw⟩ := emitAll_of_quiet u [.delay wait] (by simp)
  have hclockw : u.clock + wait ≤ (emitAll u [.delay wait]).clock := clock_add_delaySum_le u [.delay wait]
  refine ⟨(emitAll_tim u _).trans htim, hrxw ▸ hmode', ?_, hlosingw.trans hlosing', hsyncw.trans (hsync'.trans hsync)⟩
  rw [hrxw]
  omega

/-- EN is not High before the pre-drive lowers it, so nothing is latched up to the end of the power-on wait, when the busy time
is over (R133, R134). -/
theorem listening_powerOn {s : State} (hen : s.lv.en ≠ .high) (hlosing : s.losing = false) (hsync : s.sync = .held)
    (hbusy : s.rx.busyUntil ≤ s.clock + s.tim.tPowerOn) :
    Listening s.tim (fun _ => True)
      (emitAll s [.setLine .en .low, .setLine .rs .low, .setLine .rw .low, .delay s.tim.tPowerOn]) := by
  obtain ⟨hrx, hlosing', hsync'⟩ := emit_of_not_latches (latchesAt_of_en (e := .setLine .en .low) hen)
  have hclock := clock_add_delaySum_le s
    [.setLine .en .low, .setLine .rs .low, .setLine .rw .low, .delay s.tim.tPowerOn]
  obtain ⟨hrxw, hlosingw, hsyncw⟩ := emitAll_of_quiet (emit s (.setLine .en .low))
    [.setLine .rs .low, .setLine .rw .low, .delay s.tim.tPowerOn] (by simp)
  rw [← emitAll_cons] at hrxw hlosingw hsyncw
  refine ⟨emitAll_tim s _, trivial, ?_, hlosingw.trans (hlosing'.trans hlosing), hsyncw.trans (hsync'.trans hsync)⟩
  rw [hrxw, hrx]
  simp only [delaySum, BusEvent.minDuration] at hclock
  omega

/-- Steps 1 to 5 bring the receiver to `M4H` from any mode (R209). -/
theorem listening_recoveryEvents {s : State} (hen : s.lv.en ≠ .high) (hc : s.tim.covers) (hlosing : s.losing = false)
    (hsync : s.sync = .held) (hbusy : s.rx.busyUntil ≤ s.clock + s.tim.tPowerOn) :
    Listening s.tim (· = .m4h) (emitAll s (recoveryEvents s.tim s.cfg)) := by
  have hwaits := hc.1
  simp only [Tim.waits, Bool.and_eq_true, decide_eq_true_eq] at hwaits
  obtain ⟨⟨⟨⟨⟨⟨-, hreset1⟩, hreset2⟩, hreset3⟩, hfour⟩, -⟩, -⟩ := hwaits
  rw [emitAll_recoveryEvents]
  have h0 := listening_powerOn hen hlosing hsync hbusy
  have h1 := h0.recoveryNibble hc firstThree_leads hreset1
  have h2 := h1.recoveryNibble hc secondThree_leads hreset2
  have h3 := h2.recoveryNibble hc thirdThree_leads hreset3
  exact h3.recoveryNibble hc two_leads hfour

/-! ## A byte at a ready receiver (R204-R206, R210, R211) -/

/-- Settles O47: the byte transfer is one execution, and the mode after it is that of R206. -/
theorem byteIsReceivedOnce : Obligations.ByteIsReceivedOnce := by
  intro s rs v hready hc t
  obtain ⟨now, d, hnow, hrx, -⟩ := transferred_rx hready hc rs v
  obtain ⟨hmode, -⟩ := rxReady_iff.mp hready
  refine ⟨⟨now, d, hnow, hrx⟩, ?_, rxReady_transferred hready hc, ?_⟩
  · rintro ⟨rfl, hhigh⟩
    have hfunction : ∀ v : Byte, highNibble v = 0x3#4 → v ≠ 0#8 ∧ RxMode.m4h.afterCommand v = .m8 := by decide +kernel
    obtain ⟨hzero, hafter⟩ := hfunction v hhigh
    rw [hrx, Rx.mode_execute_command now hzero, hmode, hafter]
  · rintro ⟨rfl, rfl⟩
    exact ⟨d, hrx.trans (Rx.execute_zero now d s.rx)⟩

/-- Executing the bus byte of an instruction has that instruction's effect (R74, R206). -/
theorem execute_of_encode {j : Instr} {rs : RegSel} {v : Byte} (hencode : encode j = .busByte (busWord rs v)) (now : Nat)
    (d : RxDraws) (r : Rx) :
    r.execute now rs v d = { r.effect j d with busyUntil := now + Rx.execTime rs v } := by
  simp only [Rx.execute, decodeBusByte_of_encode hencode]

/-- The transfer of an instruction's bus byte to a ready receiver has that instruction's effect there (R210, R211). -/
theorem transferred_effect {s : State} (hready : s.rxReady = true) (hc : s.tim.covers) {j : Instr} {rs : RegSel} {v : Byte}
    (hencode : encode j = .busByte (busWord rs v)) :
    ∃ d b, (transferred s rs v).rx = { s.rx.effect j d with busyUntil := b } := by
  obtain ⟨now, d, -, hrx, -⟩ := transferred_rx hready hc rs v
  exact ⟨d, _, hrx.trans (execute_of_encode hencode now d s.rx)⟩

/-! ## `initialize` at the receiver (R140, R209, R210) -/

/-- No instruction is encoded as the bus byte 0x00 with RS = 0 (R74). -/
theorem ne_zero_of_encode {j : Instr} {rs : RegSel} {v : Byte} (hencode : encode j = .busByte (busWord rs v)) :
    ¬(rs = .command ∧ v = 0x00#8) := by
  rintro ⟨rfl, rfl⟩
  have hnone : decodeBusByte (busWord .command 0x00#8) = none := by decide
  simp [decodeBusByte_of_encode hencode] at hnone

/-- Within `initialize` a byte transfer that is no hazard is received as one by itself is (R267). -/
theorem emitAll_byteEvents_of_held {s : State} (hsync : s.sync = .held) {rs : RegSel} {v : Byte}
    (hfun : ¬(rs = .command ∧ highNibble v = 0x3#4)) :
    respond (emitAll s (byteEvents s.tim rs v)) (some .ok) = transferred s rs v := by
  have hbegun : begun false (byteEvents s.tim rs v) s = s := by
    rw [begun, sync_begin_byteEvents, if_pos hsync, if_neg hfun, ← hsync]
  rw [transferred, hbegun]

/-- A command byte of step 7 has its instruction's effect at a receiver in `M4H` and leaves it listening in `M4H` (R140,
R210). -/
theorem Listening.configByte {t : Tim} {s : State} (hs : Listening t (· = .m4h) s) (hc : t.covers) {j : Instr} {v : Byte}
    (hencode : encode j = .busByte (busWord .command v)) (hfun : highNibble v ≠ 0x3#4) :
    (∃ d b, (emitAll s (byteEvents t .command v)).rx = { s.rx.effect j d with busyUntil := b })
    ∧ Listening t (· = .m4h) (emitAll s (byteEvents t .command v)) := by
  obtain ⟨rfl, hs⟩ := hs
  have hready : s.rxReady = true := rxReady_iff.mpr hs
  obtain ⟨-, -, -, hsync⟩ := hs
  have hfun' : ¬(RegSel.command = .command ∧ highNibble v = 0x3#4) := fun h => hfun h.2
  obtain ⟨d, b, hrx⟩ := transferred_effect hready hc hencode
  have hready' := rxReady_iff.mp (rxReady_transferred hready hc hfun' (ne_zero_of_encode hencode))
  rw [← emitAll_byteEvents_of_held hsync hfun'] at hrx hready'
  simp only [respond_rx, respond_clock, respond_losing, respond_sync] at hrx hready'
  exact ⟨⟨d, b, hrx⟩, emitAll_tim s _, hready'⟩

/-- The receiver as step 7 leaves it, but for its busy time: configured, its display off, cleared, and in the entry mode of
`0x06` (R140, R211). -/
def configuredRx (c : Cfg) (b : Nat) (r : Rx) : Rx :=
  { r with
    mode := .m4h, twoLines := c.lineCount.isTwo, font5x10 := c.font.is5x10, displayOn := false, cursorOn := false,
    blinkOn := false, ddram := [], ac := 0#7, space := .ddram, increment := true, shiftOnWrite := false, busyUntil := b }

theorem highNibble_initFunctionByte (c : Cfg) : highNibble (initFunctionByte c) = 0x2#4 := by
  unfold initFunctionByte
  cases c.lineCount <;> cases c.font <;> decide

/-- Step 7: FUNCTION, DISPLAY, CLEAR and ENTRY_MODE, each received once (R140). -/
theorem listening_configEvents {t : Tim} {s : State} (hs : Listening t (· = .m4h) s) (hc : t.covers) (c : Cfg) :
    (∃ b, (emitAll s (configEvents t c)).rx = configuredRx c b s.rx)
    ∧ Listening t (· = .m4h) (emitAll s (configEvents t c)) := by
  rw [emitAll_configEvents]
  have hfunc : highNibble (initFunctionByte c) ≠ 0x3#4 := by rw [highNibble_initFunctionByte]; decide
  obtain ⟨⟨d1, b1, hrx1⟩, h1⟩ := hs.configByte hc (encode_busFunction false c.lineCount.isTwo c.font.is5x10) hfunc
  obtain ⟨⟨d2, b2, hrx2⟩, h2⟩ := h1.configByte (j := .busDisplay false false false) (v := 0x08#8) hc rfl (by decide)
  obtain ⟨⟨d3, b3, hrx3⟩, h3⟩ := h2.configByte (j := .busClear) (v := 0x01#8) hc rfl (by decide)
  obtain ⟨⟨d4, b4, hrx4⟩, h4⟩ := h3.configByte (j := .busEntryMode true false) (v := 0x06#8) hc rfl (by decide)
  refine ⟨⟨b4, ?_⟩, h4⟩
  simp only [initFunctionByte]
  rw [hrx4, hrx3, hrx2, hrx1]
  rfl

/-- The events of `initialize` bring the receiver up from any state whose busy time ends within the power-on wait. -/
theorem listening_initEvents {s : State} (hen : s.lv.en ≠ .high) (hc : s.tim.covers) (hlosing : s.losing = false)
    (hsync : s.sync = .held) (hbusy : s.rx.busyUntil ≤ s.clock + s.tim.tPowerOn) :
    (∃ b r, (emitAll s (initEvents s.tim s.cfg)).rx = configuredRx s.cfg b r)
    ∧ Listening s.tim (· = .m4h) (emitAll s (initEvents s.tim s.cfg)) := by
  rw [initEvents, emitAll_append]
  have hrecovered := listening_recoveryEvents hen hc hlosing hsync hbusy
  obtain ⟨⟨b, hrx⟩, hlistening⟩ := listening_configEvents hrecovered hc s.cfg
  exact ⟨⟨b, _, hrx⟩, hlistening⟩

/-- Settles O46: the recovery nibbles bring the receiver to `M4H`, and each byte of step 7 is then received once. -/
theorem initializeBringsUpReceiver : Obligations.InitializeBringsUpReceiver := by
  intro s hd hen hc hlosing hbusy
  obtain ⟨⟨b, r, hrx⟩, -, hready⟩ :=
    listening_initEvents (s := begun true (initEvents s.tim s.cfg) s) hen hc hlosing rfl hbusy
  rw [begun_tim, begun_cfg] at hrx hready
  refine ⟨_, exec_initialize s hd, rxReady_iff.mpr ?_, ?_⟩
  · simpa only [respond_rx, respond_clock, respond_losing, respond_sync, setDrv_rx, setDrv_clock, setDrv_losing,
      setDrv_sync] using hready
  · rw [respond_rx, setDrv_rx, hrx]
    exact ⟨rfl, rfl, rfl, rfl, rfl, fun _ => rfl, rfl, rfl, rfl, rfl⟩

/-! ## The commands at the receiver (R211) -/

/-- A request that transfers an instruction's bus byte has that instruction's effect at a ready receiver. -/
theorem exec_effect {s : State} (hd : s.drv = .ready) (hready : s.rxReady = true) (hc : s.tim.covers) {i j : Instr}
    {op : OpCode} {rs : RegSel} {v : Byte} (hplan : planOf i s = bytePlan op rs v s)
    (hencode : encode j = .busByte (busWord rs v)) :
    ∃ t d, exec i s = .next t ∧ t.rx = { s.rx.effect j d with busyUntil := t.rx.busyUntil } := by
  obtain ⟨d, b, hrx⟩ := transferred_effect hready hc hencode
  exact ⟨_, d, (exec_of_bytePlan hplan).1 hd, by rw [hrx]⟩

/-- `AC ± 1` touches the counter alone (R211). -/
theorem stepAc_eq (up : Bool) (d : RxDraws) (r : Rx) : r.stepAc up d = { r with ac := (r.stepAc up d).ac } := by
  cases up <;> rfl

theorem clip_le_last (sp : Space) (a : BitVec 7) : sp.clip a ≤ sp.last := by
  rw [Space.clip, BitVec.le_def, BitVec.toNat_and]
  exact Nat.and_le_right

section
variable {r : Rx} (d : RxDraws)

theorem stepAc_up (h : r.ac < r.space.last) : (r.stepAc true d).ac = r.ac + 1#7 :=
  if_pos h

theorem stepAc_down (h : 0#7 < r.ac) : (r.stepAc false d).ac = r.ac - 1#7 :=
  if_pos h

/-- At an end of the space the counter stays in it (log entry 15). -/
theorem stepAc_end {up : Bool} (h : if up then r.space.last ≤ r.ac else r.ac = 0#7) :
    (r.stepAc up d).ac ≤ r.space.last := by
  cases up with
  | true =>
    have hend : ¬ r.ac < r.space.last := BitVec.not_lt.mpr h
    exact (if_neg hend).trans_le (clip_le_last _ _)
  | false =>
    have hzero : r.ac = 0#7 := h
    have hend : ¬ 0#7 < r.ac := by rw [hzero]; decide
    exact (if_neg hend).trans_le (clip_le_last _ _)

end

/-- `set_function` with a legal pair is one byte transfer (R166). -/
theorem planOf_reqSetFunction {lines font : Bool} (h : ¬(lines = true ∧ font = true)) (s : State) :
    planOf (.reqSetFunction false lines font) s = bytePlan 7#4 .command (functionByte false lines font) s := by
  have hpair : ¬(lines && font) = true := by rwa [Bool.and_eq_true]
  show planReqSetFunction false lines font s = _
  rw [planReqSetFunction, if_neg Bool.false_ne_true, if_neg hpair, bytePlan]

/-- FUNCTION with DL = 0 changes N and F alone of a receiver in `M4H` (R206). -/
theorem effect_function_of_m4h {r : Rx} (hmode : r.mode = .m4h) (lines font : Bool) (d : RxDraws) :
    r.effect (.busFunction false lines font 0#2) d = { r with twoLines := lines, font5x10 := font } := by
  have heffect : r.effect (.busFunction false lines font 0#2) d
      = { r with mode := .m4h, twoLines := lines, font5x10 := font } := rfl
  rw [heffect, ← hmode]

/-- Settles O48: each request transfers the byte of one instruction, whose effect is that of R211. -/
theorem commandsReachReceiver : Obligations.CommandsReachReceiver := by
  intro s x y z a hd hready hc
  obtain ⟨hmode, -⟩ := rxReady_iff.mp hready
  refine ⟨?_, ?_, ?_, ?_, ?_, ?_, fun hpair => ?_, ?_, ?_⟩
  · obtain ⟨t, d, ht, hrx⟩ := exec_effect (i := .reqClear) (j := .busClear) hd hready hc rfl rfl
    exact ⟨t, ht, hrx⟩
  · obtain ⟨t, d, ht, hrx⟩ := exec_effect (i := .reqReturnHome) (j := .busReturnHome 0#1) hd hready hc rfl rfl
    exact ⟨t, ht, hrx⟩
  · obtain ⟨t, d, ht, hrx⟩ := exec_effect (i := .reqSetEntryMode x y) hd hready hc rfl (encode_busEntryMode x y)
    exact ⟨t, ht, hrx⟩
  · obtain ⟨t, d, ht, hrx⟩ := exec_effect (i := .reqSetDisplay x y z) hd hready hc rfl (encode_busDisplay x y z)
    exact ⟨t, ht, hrx⟩
  · obtain ⟨t, d, ht, hrx⟩ := exec_effect (i := .reqShift true y) hd hready hc rfl (encode_busShift true y)
    refine ⟨t, ht, hrx.trans ?_⟩
    cases y <;> rfl
  · obtain ⟨t, d, ht, hrx⟩ := exec_effect (i := .reqShift false y) hd hready hc rfl (encode_busShift false y)
    have hac : t.rx.ac = (s.rx.stepAc y d).ac := by rw [congrArg Rx.ac hrx]; rfl
    refine ⟨t, ht, ?_, ?_⟩
    · rw [hac]
      exact hrx.trans (congrArg (fun r : Rx => { r with busyUntil := t.rx.busyUntil }) (stepAc_eq y d s.rx))
    · rw [hac]
      refine ⟨?_, ?_, stepAc_end d⟩
      · rintro rfl
        exact stepAc_up d
      · rintro rfl
        exact stepAc_down d
  · obtain ⟨t, d, ht, hrx⟩ := exec_effect hd hready hc (planOf_reqSetFunction hpair s) (encode_busFunction false x y)
    rw [effect_function_of_m4h hmode] at hrx
    exact ⟨t, ht, hrx⟩
  · obtain ⟨t, d, ht, hrx⟩ := exec_effect (i := .reqSetCgramAddress a) hd hready hc rfl (encode_busCgramAddr a)
    have hlow : ∀ a : Byte, (a.setWidth 6).setWidth 7 = (a &&& 0x3F#8).setWidth 7 := by decide +kernel
    exact ⟨t, ht, hlow a ▸ hrx⟩
  · obtain ⟨t, d, ht, hrx⟩ := exec_effect (i := .reqSetDdramAddress a) hd hready hc rfl (encode_busDdramAddr a)
    have hlow : ∀ a : Byte, a.setWidth 7 = (a &&& 0x7F#8).setWidth 7 := by decide +kernel
    exact ⟨t, ht, hlow a ▸ hrx⟩

/-! ## A data write at the receiver (R51, R211) -/

/-- A store writes the memories alone (R211). -/
theorem store_eq (b : Byte) (r : Rx) :
    r.store b = { r with ddram := (r.store b).ddram, cgram := (r.store b).cgram } := by
  unfold Rx.store
  cases r.space <;> rfl

/-- A data write part by part (R211). -/
theorem dataWrite_eq (b : Byte) (d : RxDraws) (r : Rx) :
    r.dataWrite b d = { r with
      ddram := (r.store b).ddram, cgram := (r.store b).cgram, ac := (r.stepAc r.increment d).ac,
      displayShift := if r.shiftOnWrite then (if d.shiftRight then r.displayShift + 1 else r.displayShift - 1)
        else r.displayShift } := by
  have hcounter : (r.store b).ac = r.ac := by rw [store_eq]
  have hspace : (r.store b).space = r.space := by rw [store_eq]
  have hac : ((r.store b).stepAc r.increment d).ac = (r.stepAc r.increment d).ac := by
    unfold Rx.stepAc
    rw [hcounter, hspace]
    split <;> rfl
  have hstep : (r.store b).stepAc r.increment d = { r with
      ddram := (r.store b).ddram, cgram := (r.store b).cgram, ac := (r.stepAc r.increment d).ac } := by
    rw [stepAc_eq, hac]
    exact congrArg (fun r' : Rx => { r' with ac := (r.stepAc r.increment d).ac }) (store_eq b r)
  rw [Rx.dataWrite, hstep]
  split <;> rfl

theorem store_of_ddram {r : Rx} (h : r.space = .ddram) (b : Byte) :
    (r.store b).cgram = r.cgram ∧ (r.store b).ddram = r.ddram.write r.ac.toNat b := by
  have hclip : ∀ a : BitVec 7, Space.ddram.clip a = a := by decide
  simp only [Rx.store, h, hclip, and_self]

theorem store_of_cgram {r : Rx} (h : r.space = .cgram) (b : Byte) :
    (r.store b).ddram = r.ddram ∧ (r.store b).cgram = r.cgram.write (r.ac &&& 63#7).toNat b := by
  simp only [Rx.store, h, Space.clip, Space.last, and_self]

/-- Settles O49: the data byte is received once, as the data write of R211. -/
theorem writeCharStoresOneByte : Obligations.WriteCharStoresOneByte := by
  intro s b hd hready hc hmem
  have hexec : exec (.reqWriteChar b) s = .next (transferred s .data b) := (exec_of_bytePlan rfl).1 hd
  have hready' : (transferred s .data b).rxReady = true := rxReady_transferred hready hc (by simp) (by simp)
  obtain ⟨d, busy, hrx⟩ := transferred_effect (j := .busData b) (rs := .data) (v := b) hready hc rfl
  rw [Rx.memWf, Bool.and_eq_true] at hmem
  obtain ⟨hddram, hcgram⟩ := hmem
  simp only [Rx.effect, dataWrite_eq] at hrx
  generalize transferred s .data b = t at hexec hready' hrx
  refine ⟨t, hexec, hready', ?_⟩
  rw [hrx]
  refine ⟨rfl, rfl, fun hspace => ?_, fun hspace => ?_, ?_, ?_, ?_, ?_, ?_⟩
  · obtain ⟨hother, hstore⟩ := store_of_ddram hspace b
    refine ⟨hother, fun a => ?_⟩
    rw [← Mem.read_write hddram, ← hstore]
  · obtain ⟨hother, hstore⟩ := store_of_cgram hspace b
    refine ⟨hother, fun a => ?_⟩
    rw [← Mem.read_write hcgram, ← hstore]
  · intro hup
    rw [hup]; exact stepAc_up d
  · intro hdown
    rw [hdown]; exact stepAc_down d
  · exact stepAc_end d
  · intro hshift
    rw [hshift]; rfl
  · intro hshift
    rw [hshift]
    cases d.shiftRight
    · exact .inr rfl
    · exact .inl rfl

end Sys2Proof.Machine

/-! PROOFS. The statements of 60_exceptions.md: waiting and the refused agents (R235, R237, R260, R261), the driver-state
error (R222), the order of the checks (R227), and that an error changes nothing (R226). -/

namespace Sys2Proof.Machine

/-! ## Waiting, and the agents that are refused (R235, R237, R253, R260, R261) -/

/-- In `Idle` with nothing presented there is only waiting (R237). -/
theorem nextActivity_of_empty {s : State} (hidle : s.phase = .idle) (hinbox : s.inbox = []) :
    nextActivity s = .wait := by
  simp [nextActivity, hinbox, hidle]

/-- Settles O8: waiting answers the same state. -/
theorem idleEngineWaits : Obligations.IdleEngineWaits := by
  intro s hidle hinbox
  rw [step, nextActivity_of_empty hidle hinbox]

section
variable {s : State} {rest : List HostInput}

/-- Another agent that drives a line is met in any phase (R260). -/
theorem nextActivity_of_foreignDrive {l : Line} {v : Drive} (hinbox : s.inbox = .foreignDrive l v :: rest) :
    nextActivity s = .foreign := by
  simp [nextActivity, hinbox]

/-- A second requester is met in any phase (R235). -/
theorem nextActivity_of_secondRequester {w : RequestWord} (hinbox : s.inbox = .secondRequester w :: rest) :
    nextActivity s = .second := by
  simp [nextActivity, hinbox]

/-- A pulse from outside while EN is High acts during a pulse (R260). -/
theorem nextActivity_of_strayPulse_high (hinbox : s.inbox = .strayPulse :: rest) (hen : s.lv.en = .high) :
    nextActivity s = .foreign := by
  simp [nextActivity, hinbox, hen]

end

/-- Settles O9: each of the three inputs is met before the phase is looked at, and the step refuses it by name. -/
theorem otherAgentsAreRefused : Obligations.OtherAgentsAreRefused := by
  intro s rest
  refine ⟨fun l v hinbox => ?_, fun w hinbox => ?_, fun hinbox hen => ?_⟩
  · rw [step, nextActivity_of_foreignDrive hinbox]
  · rw [step, nextActivity_of_secondRequester hinbox]
  · rw [step, nextActivity_of_strayPulse_high hinbox hen]

/-! ## An error changes nothing (R226) -/

/-- Settles O28: of the four forms of a next state only the error's response is not Ok, and an error is its response
alone. -/
theorem errorsChangeNothing : Obligations.ErrorsChangeNothing := by
  intro i s t r hexec hresponses hr
  rcases exec_cases hexec with ⟨r', -, rfl⟩ | ⟨rs, v, -, rfl⟩ | ⟨n, -, -, rfl⟩ | ⟨-, -, rfl⟩
  · have hsame : r' = r := by simpa [failed] using hresponses
    rw [hsame, failed]
  · have hok : Response.ok = r := by simpa [transferred] using hresponses
    exact absurd hok.symm hr
  · simp at hresponses
  · have hok : Response.ok = r := by simpa using hresponses
    exact absurd hok.symm hr

/-! ## The driver-state guard by op code (R222, R227) -/

/-- The op codes of the requests that are one byte transfer without a check of their own. -/
theorem op_cases_of_byteTransfer {op : OpCode} (hlegal : ¬11#4 ≤ op) (h0 : op ≠ 0#4) (h7 : op ≠ 7#4) :
    op = 1#4 ∨ op = 2#4 ∨ op = 3#4 ∨ op = 4#4 ∨ op = 5#4 ∨ op = 6#4 ∨ op = 8#4 ∨ op = 9#4 ∨ op = 10#4 := by
  revert op
  decide

/-- A host request has no reserved op code (R85, R87). -/
theorem not_reserved_of_isRequest {b : BitVec 3} {a : Byte} {op : OpCode} (h : (requestOfFields b a op).isRequest = true) :
    ¬11#4 ≤ op := by
  intro hop
  rcases op_cases_of_ge hop with rfl | rfl | rfl | rfl | rfl <;> cases h

section
variable (b : BitVec 3) (a : Byte) {op : OpCode}

@[simp] theorem requestOfFields_zero : requestOfFields b a 0#4 = .reqInitialize := rfl

@[simp] theorem requestOfFields_seven :
    requestOfFields b a 7#4 = .reqSetFunction (b.getLsbD 2) (b.getLsbD 1) (b.getLsbD 0) := rfl

/-- Every request but `initialize` and `set_function` plans one byte transfer under its own op code (R160). -/
theorem planOf_requestOfFields (hlegal : ¬11#4 ≤ op) (h0 : op ≠ 0#4) (h7 : op ≠ 7#4) (s : State) :
    ∃ rs v, planOf (requestOfFields b a op) s = bytePlan op rs v s := by
  rcases op_cases_of_byteTransfer hlegal h0 h7 with rfl | rfl | rfl | rfl | rfl | rfl | rfl | rfl | rfl <;>
    exact ⟨_, _, rfl⟩

/-- Outside `Ready` every request but `initialize` is refused with its op code, `set_function` before its own checks
(R222, R227). -/
theorem exec_requestOfFields_refused {s : State} (hlegal : ¬11#4 ≤ op) (h0 : op ≠ 0#4) (hd : s.drv ≠ .ready) :
    exec (requestOfFields b a op) s = .next (failed s (.protocolStateError op)) := by
  by_cases h7 : op = 7#4
  · subst h7
    exact (setFunctionResult s _ _ _).1 hd
  · obtain ⟨rs, v, hplan⟩ := planOf_requestOfFields b a hlegal h0 h7 s
    exact (exec_of_bytePlan hplan).2 hd

end

/-- Settles O25: a request is that of the fields of its word, so the op code refused is the one encoded; the response word
has the kind and the op code where R88 puts them. -/
theorem protocolStateErrors : Obligations.ProtocolStateErrors := by
  refine ⟨fun i s w hi hencode => ⟨fun hne hd => ?_, ?_⟩, fun s op => ⟨rfl, ?_⟩⟩
  · have hfields := (decodeRequest_eq_ofFields w).symm.trans (decodeRequest_of_encode hencode)
    generalize w.extractLsb' 0 4 = op at hfields
    subst hfields
    have h0 : op ≠ 0#4 := by rintro rfl; exact hne rfl
    exact exec_requestOfFields_refused _ _ (not_reserved_of_isRequest hi) h0 hd
  · rintro rfl
    exact exec_initialize_refused
  · revert op
    decide

/-! ## The first check that fails (R227) -/

/-- The instruction answers the response `r`, whatever else it does. -/
def Answers (i : Instr) (s : State) (r : Response) : Prop :=
  ∃ t, exec i s = .next t ∧ t.responses = s.responses ++ [r]

section
variable {i : Instr} {s : State}

theorem answers_of_failed {r : Response} (h : exec i s = .next (failed s r)) : Answers i s r :=
  ⟨_, h, rfl⟩

theorem answers_of_transferred {rs : RegSel} {v : Byte} (h : exec i s = .next (transferred s rs v)) : Answers i s .ok :=
  ⟨_, h, by simp [transferred]⟩

end

/-- The answer of `initialize`: the driver state is its only check (R131). -/
theorem answers_initialize (s : State) :
    Answers .reqInitialize s (if s.drv ≠ .uninitialized then .protocolStateError 0#4 else .ok) := by
  split
  next hd => exact answers_of_failed (exec_initialize_refused hd)
  next hd => exact ⟨_, exec_initialize s (not_not.mp hd), by simp⟩

/-- The answer of `set_function` in `Ready`: the bus width, then the line/font pair (R167). -/
theorem answers_setFunction {s : State} (hd : s.drv = .ready) (busWidth lines font : Bool) :
    Answers (.reqSetFunction busWidth lines font) s
      (if busWidth = true then .configurationError .invalidBusWidth
        else if lines = true ∧ font = true then .configurationError .invalidLineFont else .ok) := by
  obtain ⟨-, hbus, hpair, hsent⟩ := setFunctionResult s busWidth lines font
  split
  next hw => exact answers_of_failed (hbus hd hw)
  next hw =>
    have hw' : busWidth = false := by simpa using hw
    split
    next hlf => exact answers_of_failed (hpair hd hw' hlf.1 hlf.2)
    next hlf => exact answers_of_transferred (hsent hd hw' hlf).1

/-- Settles O27: a reserved op code is illegal, `initialize` and `set_function` make the checks said above, and every other
request has the driver-state guard alone. -/
theorem firstFailingCheckAnswers : Obligations.FirstFailingCheckAnswers := by
  intro w s
  have hbit : ∀ k < 3, w.getLsbD (12 + k) = (w.extractLsb' 12 3).getLsbD k := fun k hk => by simp [hk]
  show Answers (decodeRequest w) s _
  by_cases hop : 11#4 ≤ w.extractLsb' 0 4
  · simpa only [if_pos hop] using answers_of_failed (reservedOpsAreIllegal.2 w s hop)
  rw [decodeRequest_eq_ofFields, hbit 2 (by omega), hbit 1 (by omega), hbit 0 (by omega)]
  generalize w.extractLsb' 0 4 = op at hop ⊢
  generalize w.extractLsb' 4 8 = a
  generalize w.extractLsb' 12 3 = b
  simp only [if_neg hop]
  by_cases h0 : op = 0#4
  · subst h0
    simpa using answers_initialize s
  by_cases hd : s.drv = .ready
  · by_cases h7 : op = 7#4
    · subst h7
      simpa [hd] using answers_setFunction hd (b.getLsbD 2) (b.getLsbD 1) (b.getLsbD 0)
    · obtain ⟨rs, v, hplan⟩ := planOf_requestOfFields b a hop h0 h7 s
      simpa [h0, h7, hd] using answers_of_transferred ((exec_of_bytePlan hplan).1 hd)
  · rw [if_pos (.inr ⟨h0, hd⟩)]
    exact answers_of_failed (exec_requestOfFields_refused b a hop h0 hd)

end Sys2Proof.Machine

/-! PROOFS. The statements of 70_reset_and_hazards.md: the engine at reset and after a construction (R250, R251), and the
hazards of R267: a stray pulse, a lost transaction, how long a desynchronization lasts, and what the receiver makes of a byte
meanwhile (U17). -/

namespace Sys2Proof.Machine

/-! ## Reset (R251) -/

/-- Settles O1: the fields are those of the definition, and the receiver's drawn memories are in canonical form. -/
theorem resetIsFreshAndSatisfiesInvariant : Obligations.ResetIsFreshAndSatisfiesInvariant := by
  refine ⟨rfl, rfl, rfl, rfl, rfl, rfl, ?_⟩
  exact ⟨by decide, by decide, by simp [State.pending_of_idle, State.reset], rfl, rfl, Rx.memWf_ofDraw _⟩

/-! ## Construction (R250, R251) -/

theorem Cfg.legal_iff {c : Cfg} : c.legal = true ↔ ¬(c.lineCount = .two ∧ c.font = .f5x10) := by
  simp only [Cfg.legal, Bool.not_eq_true', ← Bool.not_eq_true, Bool.and_eq_true, beq_iff_eq]

section
variable {s : State} {rest : List HostInput}

/-- In `Idle` a presented construction is what the machine does next. -/
theorem step_of_construct {c : Cfg} {t : Tim} (hidle : s.phase = .idle) (hinbox : s.inbox = .construct c t :: rest) :
    step s = .next (construct c t { s with inbox := rest }) := by
  simp [step, nextActivity, hinbox, hidle]

/-- A stray pulse is met at once, unless EN is High (R267 (a)). -/
theorem step_of_strayPulse (hinbox : s.inbox = .strayPulse :: rest) (hen : s.lv.en ≠ .high) :
    step s = .next (strayPulse { s with inbox := rest }) := by
  simp [step, nextActivity, hinbox, hen]

/-- A loss is met at once (R267 (c)). -/
theorem step_of_loseTransaction (hinbox : s.inbox = .loseTransaction :: rest) :
    step s = .next (loseNext { s with inbox := rest }) := by
  simp [step, nextActivity, hinbox]

end

/-- Settles O2: a legal pair is accepted, with the lines `Unknown`. -/
theorem constructionLeavesFreshEngine : Obligations.ConstructionLeavesFreshEngine := by
  intro s c t rest hidle hinbox hpair
  rw [step_of_construct hidle hinbox, construct, if_pos (Cfg.legal_iff.mpr hpair)]
  rfl

/-- Settles O3: the illegal pair returns its error and nothing else. -/
theorem illegalConstructionIsRefused : Obligations.IllegalConstructionIsRefused := by
  intro s c t rest hidle hinbox hlines hfont
  have hillegal : ¬c.legal = true := fun h => Cfg.legal_iff.mp h ⟨hlines, hfont⟩
  rw [step_of_construct hidle hinbox, construct, if_neg hillegal]
  rfl

/-! ## One latch, desynchronized or not (R203-R207, R267) -/

section
variable {now : Nat} {d : RxDraws}

/-- Out of `M4H`, and not busy, a desynchronized receiver reads any value (U17). -/
theorem latchDesynchronized_of_ne_m4h {r : Rx} (hmode : r.mode ≠ .m4h) (hbusy : r.busyUntil ≤ now) (n : Nibble) :
    r.latchDesynchronized now n d = Rx.misread now d := by
  rcases Rx.latchDesynchronized_cases now n d r with ⟨-, hm, -⟩ | ⟨-, -, h⟩ | ⟨hb, -⟩
  · exact absurd hm hmode
  · exact h
  · omega

/-- What it executes then is no longer than CLEAR (R212). -/
theorem busyUntil_misread_le (now : Nat) (d : RxDraws) : (Rx.misread now d).busyUntil ≤ now + 1520000 :=
  Nat.add_le_add_left (Nat.min_le_right _ _) now

variable {s : State} {rs : RegSel} {n : Nibble}

/-- In `M4H` the nibble is held as a high one whether or not the receiver is desynchronized (R204). -/
theorem latched_of_m4h (hmode : s.rx.mode = .m4h) (hbusy : s.rx.busyUntil ≤ now) :
    s.latched now rs n d = { s.rx with mode := .m4l n } := by
  by_cases hsync : s.sync = .lost
  · rw [latched_of_lost hsync, Rx.latchDesynchronized_of_m4h hmode hbusy]
  · rw [latched_of_sync hsync, Rx.latch_of_not_busy rs n d hbusy, hmode]

/-- While the receiver is busy, a latch leaves any state (R207). -/
theorem latched_of_busy (hbusy : now < s.rx.busyUntil) : s.latched now rs n d = Rx.ofDraw d.anyRx := by
  by_cases hsync : s.sync = .lost
  · rw [latched_of_lost hsync]; exact if_pos hbusy
  · rw [latched_of_sync hsync]; exact if_pos hbusy

end

/-- Settles O51: the pulse is one latch at the time it ends, and writes nothing of the engine. -/
theorem strayPulseShiftsPhase : Obligations.StrayPulseShiftsPhase := by
  intro s rest hinbox hen d rs
  have hrx : (strayPulse { s with inbox := rest }).rx
      = s.latched (strayPulse { s with inbox := rest }).clock rs d.strayLines d := rfl
  refine ⟨_, step_of_strayPulse hinbox hen, rfl, rfl, rfl, rfl, rfl, rfl, rfl, rfl, rfl, rfl, rfl, rfl, rfl,
    Nat.le_add_right _ _, ?_, ?_, ?_, ?_, ?_⟩ <;> rw [hrx]
  · exact fun hbusy hmode => latched_of_m4h hmode hbusy
  · intro hsync hbusy h hmode
    rw [latched_of_sync hsync, Rx.latch_of_not_busy rs _ d hbusy, hmode]
  · intro hsync hbusy hmode
    rw [latched_of_sync hsync, Rx.latch_of_not_busy rs _ d hbusy, hmode]
  · intro hsync hbusy hmode
    rw [latched_of_lost hsync, latchDesynchronized_of_ne_m4h hmode hbusy]
    exact ⟨rfl, busyUntil_misread_le _ d⟩
  · exact latched_of_busy

/-! ## A lost transaction (R267 (c)) -/

/-- The execution delay at the end of a byte transfer leaves what its nibbles left at the receiver. -/
theorem emitAll_byteEvents_receiver (s : State) (t : Tim) (rs : RegSel) (v : Byte) :
    let u := emitAll (emitAll s (nibbleEvents t rs (highNibble v))) (nibbleEvents t rs (lowNibble v))
    (emitAll s (byteEvents t rs v)).rx = u.rx ∧ (emitAll s (byteEvents t rs v)).losing = u.losing
      ∧ (emitAll s (byteEvents t rs v)).sync = u.sync := by
  rw [byteEvents, emitAll_append, emitAll_append]
  exact emitAll_of_quiet _ _ (by simp)

/-- When the high nibble is lost, a byte transfer is its low nibble, which a receiver in `M4H` holds as a high one. -/
theorem emitAll_byteEvents_lost {s : State} (rs : RegSel) (v : Byte) (hc : s.tim.covers) (hlosing : s.losing = true)
    (hmode : s.rx.mode = .m4h) (hbusy : s.rx.busyUntil ≤ s.clock) :
    (emitAll s (byteEvents s.tim rs v)).rx = { s.rx with mode := .m4l (lowNibble v) }
    ∧ (emitAll s (byteEvents s.tim rs v)).losing = false ∧ (emitAll s (byteEvents s.tim rs v)).sync = .lost := by
  obtain ⟨hrx, hlosing', hsync'⟩ := emitAll_byteEvents_receiver s s.tim rs v
  obtain ⟨hrxu, hlosingu, hsyncu⟩ := emitAll_nibbleEvents_lost s rs (highNibble v) hlosing
  have htim := emitAll_tim s (nibbleEvents s.tim rs (highNibble v))
  have hclock := clock_add_delaySum_le s (nibbleEvents s.tim rs (highNibble v))
  rw [hrx, hlosing', hsync']
  generalize emitAll s (nibbleEvents s.tim rs (highNibble v)) = u at hrxu hlosingu hsyncu htim hclock ⊢
  rw [← htim] at hc ⊢
  obtain ⟨now, d, hnow, hlatch, -, hlosingw, hsyncw⟩ := emitAll_nibbleEvents_rx u rs (lowNibble v) hc hlosingu
  rw [← hrxu] at hmode hbusy
  exact ⟨by rw [hlatch, latched_of_m4h hmode (by omega), hrxu], hlosingw, hsyncw.trans hsyncu⟩

/-- Settles O52: the loss takes the high nibble, so the low nibble is the one that the receiver holds. -/
theorem lostTransactionShiftsPhase : Obligations.LostTransactionShiftsPhase := by
  refine ⟨fun s rest hinbox => step_of_loseTransaction hinbox, ?_⟩
  intro s rs v hlosing hmode hbusy hc
  obtain ⟨hrx, hlosing', hsync⟩ :=
    emitAll_byteEvents_lost (s := begun false (byteEvents s.tim rs v) s) rs v hc hlosing hmode hbusy
  simp only [transferred, respond_rx, respond_losing, respond_sync, respond_trace, respond_drv, emitAll_trace, emitAll_drv]
  exact ⟨hrx, hlosing', hsync, rfl, rfl⟩

/-! ## How long a desynchronization lasts (R254, R267) -/

/-- A hazard that has begun has not ended, and a desynchronization stays one. -/
def Sync.Lasts (y y' : Sync) : Prop := y ≠ .held → y' ≠ .held ∧ (y = .lost → y' = .lost)

section
variable {y y' y'' : Sync}

theorem Sync.Lasts.of_eq (h : y' = y) : y.Lasts y' := by
  subst h
  exact fun hy => ⟨hy, id⟩

theorem Sync.Lasts.of_lost (h : y' = .lost) : y.Lasts y' := by
  subst h
  exact fun _ => ⟨by simp, fun _ => rfl⟩

theorem Sync.Lasts.trans (h : y.Lasts y') (h' : y'.Lasts y'') : y.Lasts y'' := by
  intro hy
  obtain ⟨hy', hlost⟩ := h hy
  obtain ⟨hy'', hlost'⟩ := h' hy'
  exact ⟨hy'', fun hl => hlost' (hlost hl)⟩

end

section
variable (k pos : Nat) (s : State) (es : List BusEvent) (ws : List DrvWrite) (resp : Option Response)

@[simp] theorem applyWrites_sync : (applyWrites k s ws).sync = s.sync :=
  (congrArg State.sync (applyWrites_eq_setDrv k s ws)).trans rfl
@[simp] theorem settle_sync : (settle pos es ws resp s).sync = s.sync := by cases es <;> simp [settle]
@[simp] theorem runEvents_sync : (runEvents ws k s es).sync = (emitAll s es).sync :=
  (congrArg State.sync (runEvents_eq_setDrv ws k s es)).trans rfl
@[simp] theorem construct_sync (c : Cfg) (t : Tim) : (construct c t s).sync = s.sync := by
  unfold construct
  split <;> rfl

theorem finished_sync : s.finished.sync = (emitAll s s.pending).sync := by
  cases hp : s.phase with
  | idle => rw [s.finished_of_idle hp, s.pending_of_idle hp]; rfl
  | busy pos rest ws resp => simp [s.finished_of_busy hp, s.pending_of_busy hp]

/-- No event ends a hazard. -/
theorem lasts_emitAll : s.sync.Lasts (emitAll s es).sync := by
  rcases emitAll_sync s es with h | ⟨-, h⟩
  · exact .of_eq h
  · exact .of_lost h

theorem lasts_finished : s.sync.Lasts s.finished.sync := by
  rw [finished_sync]
  exact lasts_emitAll s s.pending

theorem lasts_microStep : s.sync.Lasts (microStep s).sync := by
  cases hp : s.phase with
  | idle => exact .of_eq (by simp [microStep, hp])
  | busy pos rest ws resp =>
    cases rest with
    | nil => exact .of_eq (by simp [microStep_of_no_event hp])
    | cons e es =>
      rw [microStep_of_event hp, settle_sync, applyWrites_sync]
      exact lasts_emitAll s [e]

end

/-- Once a hazard has begun, a byte transfer is a later byte (R267). -/
theorem sync_begin_byteEvents_of_ne {y : Sync} (hy : y ≠ .held) (lv : Levels) (t : Tim) (rs : RegSel) (v : Byte) :
    y.begin false lv (byteEvents t rs v) = .lost := by
  rw [sync_begin_byteEvents, if_neg hy]

/-- Of the forms of a plan only that of an admitted `initialize` ends a hazard where it is accepted. -/
theorem lasts_accept {i : Instr} {s : State} (h : ¬(i = .reqInitialize ∧ s.drv = .uninitialized)) :
    s.sync.Lasts (accept (planOf i s) s).sync := by
  rcases planOf_cases i s with ⟨r, -, hp⟩ | ⟨rs, v, -, hp⟩ | ⟨n, -, -, hp⟩ | ⟨hi, hd, -⟩
  · rw [hp]
    exact .of_eq (respond_sync s (some r))
  · intro hy
    have hlost : (accept (planOf i s) s).sync = .lost := by
      rw [hp, accept, settle_sync, applyWrites_sync]
      exact sync_begin_byteEvents_of_ne hy s.lv s.tim rs v
    exact Sync.Lasts.of_lost hlost hy
  · have hbegun : begun (initializes []) (nibbleEvents s.tim .command n) s = s :=
      begun_nibbleEvents s.tim .command n s
    rw [hp, accept, hbegun, settle_sync, applyWrites_sync]
    exact .of_eq rfl
  · exact absurd ⟨hi, hd⟩ h

/-- A step that does not take an admitted `initialize` ends no hazard. -/
theorem lasts_step {s t : State} (hstep : step s = .next t) :
    s.sync.Lasts t.sync
    ∨ (s.phase = .idle ∧ s.drv = .uninitialized
        ∧ ∃ p rest, s.inbox = .word p :: rest ∧ decode p = .ok .reqInitialize) := by
  rcases step_cases hstep with ⟨-, -, rfl⟩ | ⟨-, rfl⟩ | ⟨c, tm, rest, -, -, rfl⟩
    | ⟨p, rest, i, hidle, hinbox, hdecode, hrun⟩ | ⟨rest, -, -, rfl⟩ | ⟨rest, -, rfl⟩
  · exact .inl (.of_eq rfl)
  · exact .inl (lasts_microStep s)
  · exact .inl (.of_eq (construct_sync { s with inbox := rest } c tm))
  · by_cases hinit : i = .reqInitialize ∧ s.drv = .uninitialized
    · obtain ⟨rfl, hd⟩ := hinit
      exact .inr ⟨hidle, hd, p, rest, hinbox, hdecode⟩
    · have haccept := lasts_accept (s := { s with inbox := rest }) hinit
      rcases hrun with ⟨-, hexec⟩ | ⟨-, rfl⟩
      · rw [exec_eq_finished_accept (s := { s with inbox := rest }) i hidle] at hexec
        cases hexec
        exact .inl (haccept.trans (lasts_finished _))
      · exact .inl haccept
  · exact .inl (.of_lost rfl)
  · exact .inl (.of_eq rfl)

theorem transferred_sync (s : State) (rs : RegSel) (v : Byte) :
    (transferred s rs v).sync = (emitAll (begun false (byteEvents s.tim rs v) s) (byteEvents s.tim rs v)).sync := by
  rw [transferred, respond_sync]

/-- Once a hazard has begun, a byte transfer desynchronizes the receiver for good (R267). -/
theorem transferred_sync_of_ne {s : State} (hsync : s.sync ≠ .held) (rs : RegSel) (v : Byte) :
    (transferred s rs v).sync = .lost := by
  have hbegun : (begun false (byteEvents s.tim rs v) s).sync = .lost :=
    sync_begin_byteEvents_of_ne hsync s.lv s.tim rs v
  rw [transferred_sync]
  exact (lasts_emitAll _ _ (by rw [hbegun]; decide)).2 hbegun

/-- FUNCTION with DL = 1 is hazard (b) (R267). -/
theorem transferred_sync_function (s : State) {v : Byte} (hv : highNibble v = 0x3#4) :
    (transferred s .command v).sync ≠ .held := by
  have hbegun : (begun false (byteEvents s.tim .command v) s).sync ≠ .held := by
    rw [begun_sync, sync_begin_byteEvents]
    split <;> simp [hv]
  rw [transferred_sync]
  exact (lasts_emitAll _ _ hbegun).1

/-- An admitted `initialize` of which no transaction is lost ends the hazards (R209, R254). -/
theorem exec_initialize_sync {s : State} (hd : s.drv = .uninitialized) (hlosing : s.losing = false) :
    ∃ t, exec .reqInitialize s = .next t ∧ t.drv = .ready ∧ t.sync = .held := by
  refine ⟨_, exec_initialize s hd, by rw [respond_drv, setDrv_drv], ?_⟩
  rw [respond_sync, setDrv_sync]
  rcases emitAll_sync (begun true (initEvents s.tim s.cfg) s) (initEvents s.tim s.cfg) with h | ⟨hl, -⟩
  · exact h
  · simp [hlosing] at hl

/-- Settles O53: hazards (a), (b) and (c) begin it, every form of a step but an admitted `initialize` keeps it, and that one
ends it. -/
theorem desynchronizationLasts : Obligations.DesynchronizationLasts := by
  refine ⟨fun s t hsync hstep => (lasts_step hstep).imp_left fun h => h hsync, ?_, ?_, ?_, ?_, ?_⟩
  · intro s v w rs _ hv
    have hfunction := transferred_sync_function s hv
    exact ⟨hfunction, transferred_sync_of_ne hfunction rs w⟩
  · exact fun s rest hinbox hen => ⟨_, step_of_strayPulse hinbox hen, rfl⟩
  · exact fun s rest hinbox => ⟨_, step_of_loseTransaction hinbox, rfl⟩
  · intro s rs n hlosing
    obtain ⟨-, -, hsync⟩ := emitAll_nibbleEvents_lost s rs n hlosing
    exact hsync
  · exact fun s hd hlosing => exec_initialize_sync hd hlosing

/-! ## What a desynchronized receiver makes of a byte (U17) -/

/-- Two events of the same time and the same edges of EN and RW: they differ at most in what they drive on another line. -/
inductive BusEvent.Alike : BusEvent → BusEvent → Prop where
  | same (e : BusEvent) : Alike e e
  | drive {l : Line} (v v' : Drive) : l ≠ .en → l ≠ .rw → Alike (.setLine l v) (.setLine l v')

/-- They are the same to the times of the pins. -/
theorem pins_after_alike {e f : BusEvent} (hef : e.Alike f) (p : PinTimes) (now : Nat) : p.after now e = p.after now f := by
  cases hef with
  | same e => rfl
  | @drive l v v' hen hrw =>
    cases l with
    | en => exact absurd rfl hen
    | _ => rfl

/-- They are the same to the levels of EN and RW. -/
theorem get_after_alike {e f : BusEvent} {l : Line} (hl : l = .en ∨ l = .rw) (hef : e.Alike f) {lv lv' : Levels}
    (hlv : lv.get l = lv'.get l) : (lv.after e).get l = (lv'.after f).get l := by
  cases hef with
  | same e =>
    cases e with
    | delay d => exact hlv
    | setLine l' v => rw [Levels.after, Levels.after, Levels.get_set, Levels.get_set, hlv]
  | @drive l' v v' hen hrw =>
    have hother : l ≠ l' := by
      rintro rfl
      exact hl.elim hen hrw
    rw [Levels.after, Levels.after, Levels.get_set, Levels.get_set, if_neg hother, if_neg hother, hlv]

/-- Two states at the same time, with the same levels of EN and RW, pin times, coming loss and hazards: the receivers of both
latch at the same moments with the same draws. -/
structure SameTiming (s t : State) : Prop where
  clock : s.clock = t.clock
  draws : s.draws = t.draws
  pins : s.pins = t.pins
  losing : s.losing = t.losing
  sync : s.sync = t.sync
  en : s.lv.en = t.lv.en
  rw : s.lv.rw = t.lv.rw

theorem SameTiming.refl (s : State) : SameTiming s s := ⟨rfl, rfl, rfl, rfl, rfl, rfl, rfl⟩

section
variable {s t : State} {e f : BusEvent}

theorem SameTiming.latchesAt (h : SameTiming s t) (hef : e.Alike f) : s.latchesAt e = t.latchesAt f := by
  cases hef with
  | same e => simp [State.latchesAt, Levels.fallsAt, h.en, h.rw]
  | drive v v' hen hrw => rw [latchesAt_of_ne (by simp [hen]), latchesAt_of_ne (by simp [hen])]

theorem SameTiming.endOf (h : SameTiming s t) (hef : e.Alike f) : s.endOf e = t.endOf f := by
  have hmin : e.minDuration = f.minDuration := by cases hef <;> rfl
  simp only [State.endOf, h.clock, h.draws, hmin]

/-- Alike events keep it. -/
theorem SameTiming.emit (h : SameTiming s t) (hef : e.Alike f) : SameTiming (emit s e) (emit t f) := by
  have hlatches := h.latchesAt hef
  have hend := h.endOf hef
  refine ⟨hend, ?_, ?_, ?_, ?_, ?_, ?_⟩
  · rw [emit_draws, emit_draws, h.draws]
  · rw [emit_pins, emit_pins, h.pins, hend]
    exact pins_after_alike hef _ _
  · rw [emit_losing, emit_losing, h.losing, hlatches]
  · rw [emit_sync, emit_sync, State.syncAfter, State.syncAfter, h.losing, h.sync, hlatches]
  · exact get_after_alike (.inl rfl) hef h.en
  · exact get_after_alike (.inr rfl) hef h.rw

theorem SameTiming.emitAll (h : SameTiming s t) {es fs : List BusEvent} (hes : List.Forall₂ BusEvent.Alike es fs) :
    SameTiming (emitAll s es) (emitAll t fs) := by
  induction hes generalizing s t with
  | nil => exact h
  | cons hef _ ih => exact ih (h.emit hef)

end

/-- The events of a nibble transaction up to where EN is lowered (R101). -/
def pulseEvents (t : Tim) (rs : RegSel) (n : Nibble) : List BusEvent :=
  [.setLine .rs (lvl rs.bit), .setLine .rw .low] ++ setUpEvents t n ++ [.setLine .en .high, .delay t.tEnPulse]

section
variable (t : Tim) (rs rs' : RegSel) (n n' : Nibble)

theorem nibbleEvents_eq_pulseEvents :
    nibbleEvents t rs n = pulseEvents t rs n ++ [.setLine .en .low, .delay t.tNibbleSettle] :=
  nibbleEvents_eq t rs n

theorem pulseEvents_quiet : BusEvent.setLine .en .low ∉ pulseEvents t rs n := by
  unfold pulseEvents setUpEvents
  split <;> simp

/-- Nothing but RS and the data lines tells two nibble transactions apart. -/
theorem pulseEvents_alike : List.Forall₂ BusEvent.Alike (pulseEvents t rs n) (pulseEvents t rs' n') := by
  unfold pulseEvents setUpEvents
  split <;> simp [BusEvent.Alike.same, BusEvent.Alike.drive]

theorem nibbleEvents_alike : List.Forall₂ BusEvent.Alike (nibbleEvents t rs n) (nibbleEvents t rs' n') := by
  rw [nibbleEvents_eq_pulseEvents, nibbleEvents_eq_pulseEvents]
  exact List.rel_append (pulseEvents_alike t rs rs' n n') (by simp [BusEvent.Alike.same])

/-- At their end the receiver samples the lowering of EN (R202). -/
theorem latchesAt_pulseEvents (s : State) : (emitAll s (pulseEvents t rs n)).latchesAt (.setLine .en .low) = true := by
  rw [State.latchesAt, emitAll_lv]
  unfold pulseEvents setUpEvents
  split <;> rfl

end

/-- The settle delay leaves what the lowering of EN left at the receiver. -/
theorem emitAll_fall_rx (u : State) (wait : Nat) :
    (emitAll u [.setLine .en .low, .delay wait]).rx = u.rxAfter (.setLine .en .low) := by
  obtain ⟨hrx, -⟩ := emitAll_of_quiet (emit u (.setLine .en .low)) [.delay wait] (by simp)
  exact hrx

/-- What a nibble transaction leaves at a desynchronized receiver is the same for any two nibbles and register selects,
at two receivers that make the same of every latch. -/
theorem emitAll_nibbleEvents_rx_congr {s t : State} (h : SameTiming s t) (hsync : s.sync = .lost)
    (hlosing : s.losing = true → s.rx = t.rx)
    (hlatch : ∀ now n n' d, s.clock ≤ now → s.rx.latchDesynchronized now n d = t.rx.latchDesynchronized now n' d)
    (tim : Tim) (rs rs' : RegSel) (n n' : Nibble) :
    (emitAll s (nibbleEvents tim rs n)).rx = (emitAll t (nibbleEvents tim rs' n')).rx := by
  rw [nibbleEvents_eq_pulseEvents, nibbleEvents_eq_pulseEvents, emitAll_append, emitAll_append, emitAll_fall_rx,
    emitAll_fall_rx]
  have hsame := h.emitAll (pulseEvents_alike tim rs rs' n n')
  have hlatches := latchesAt_pulseEvents tim rs n s
  have hlatches' := latchesAt_pulseEvents tim rs' n' t
  obtain ⟨hrx, hlosingu, hsyncu⟩ := emitAll_of_quiet s _ (pulseEvents_quiet tim rs n)
  obtain ⟨hrx', -⟩ := emitAll_of_quiet t _ (pulseEvents_quiet tim rs' n')
  have hclock := clock_add_delaySum_le s (pulseEvents tim rs n)
  generalize emitAll s (pulseEvents tim rs n) = u at *
  generalize emitAll t (pulseEvents tim rs' n') = v at *
  have hlost : u.sync = .lost := hsyncu.trans hsync
  have hend : u.clock ≤ u.endOf (.setLine .en .low) := Nat.le_add_right _ _
  rw [State.rxAfter, State.rxAfter, if_pos hlatches, if_pos hlatches', ← hsame.losing, ← hsame.pins, ← hsame.draws,
    ← hsame.endOf (.same _), latched_of_lost hlost, latched_of_lost (hsame.sync ▸ hlost), hrx, hrx', hlosingu]
  split
  · exact hlosing (by assumption)
  · split
    · exact hlatch _ _ _ _ (by omega)
    · rfl

/-- When a hazard has begun, a byte transfer begins at a desynchronized receiver. -/
theorem begun_byteEvents_of_ne {s : State} (hsync : s.sync ≠ .held) (rs : RegSel) (v : Byte) :
    begun false (byteEvents s.tim rs v) s = { s with sync := .lost } := by
  rw [begun, sync_begin_byteEvents_of_ne hsync]

section
variable {s : State} (hsync : s.sync = .lost) (hlosing : s.losing = false) (hc : s.tim.covers) (hmode : s.rx.mode = .m4h)
  (hbusy : s.rx.busyUntil ≤ s.clock)
include hsync hlosing hc hmode hbusy

/-- After a high nibble at a desynchronized receiver in `M4H`, a latch completes a byte, which is read as any value. -/
theorem misread_after_highNibble (rs : RegSel) (n : Nibble) :
    let u := emitAll s (nibbleEvents s.tim rs n)
    u.losing = false ∧ u.sync = .lost
      ∧ ∀ now m d, u.clock ≤ now → u.rx.latchDesynchronized now m d = Rx.misread now d := by
  intro u
  obtain ⟨fall, d', hfall, hlatch, hclock, hlosing', hsync'⟩ := emitAll_nibbleEvents_rx s rs n hc hlosing
  have hheld : u.rx = { s.rx with mode := .m4l n } := hlatch.trans (latched_of_m4h hmode (by omega))
  have hbusy' : u.rx.busyUntil ≤ u.clock := by
    rw [hheld]
    show s.rx.busyUntil ≤ (emitAll s (nibbleEvents s.tim rs n)).clock
    omega
  have hmode' : u.rx.mode ≠ .m4h := by
    rw [hheld]
    simp
  exact ⟨hlosing', hsync'.trans hsync, fun now m d hnow => latchDesynchronized_of_ne_m4h hmode' (hbusy'.trans hnow) m⟩

/-- A byte transfer there leaves the same state for two bytes and register selects. -/
theorem emitAll_byteEvents_rx_congr (rs rs' : RegSel) (v v' : Byte) :
    (emitAll s (byteEvents s.tim rs v)).rx = (emitAll s (byteEvents s.tim rs' v')).rx := by
  obtain ⟨hrx, -⟩ := emitAll_byteEvents_receiver s s.tim rs v
  obtain ⟨hrx', -⟩ := emitAll_byteEvents_receiver s s.tim rs' v'
  have hsame := (SameTiming.refl s).emitAll (nibbleEvents_alike s.tim rs rs' (highNibble v) (highNibble v'))
  obtain ⟨hlosingu, hsyncu, hread⟩ := misread_after_highNibble hsync hlosing hc hmode hbusy rs (highNibble v)
  obtain ⟨-, -, hread'⟩ := misread_after_highNibble hsync hlosing hc hmode hbusy rs' (highNibble v')
  rw [hrx, hrx']
  refine emitAll_nibbleEvents_rx_congr hsame hsyncu (fun h => absurd h (by simp [hlosingu]))
    (fun now n n' d hnow => ?_) s.tim rs rs' _ _
  rw [hread now n d hnow, hread' now n' d (hsame.clock ▸ hnow)]

end

/-- A nibble transaction at a desynchronized receiver that is not busy leaves it busy no longer than CLEAR takes (R212). -/
theorem busyUntil_nibbleEvents_le {s : State} (hsync : s.sync = .lost) (hc : s.tim.covers)
    (hbusy : s.rx.busyUntil ≤ s.clock) (rs : RegSel) (n : Nibble) :
    (emitAll s (nibbleEvents s.tim rs n)).rx.busyUntil ≤ (emitAll s (nibbleEvents s.tim rs n)).clock + 1520000 := by
  have hclock := clock_add_delaySum_le s (nibbleEvents s.tim rs n)
  cases hlosing : s.losing with
  | true =>
    obtain ⟨hrx, -⟩ := emitAll_nibbleEvents_lost s rs n hlosing
    rw [hrx]
    omega
  | false =>
    obtain ⟨now, d, hnow, hrx, hend, -⟩ := emitAll_nibbleEvents_rx s rs n hc hlosing
    rw [latched_of_lost hsync] at hrx
    rw [hrx]
    by_cases hmode : s.rx.mode = .m4h
    · rw [Rx.latchDesynchronized_of_m4h hmode (by omega)]
      show s.rx.busyUntil ≤ _
      omega
    · rw [latchDesynchronized_of_ne_m4h hmode (by omega)]
      have hmisread := busyUntil_misread_le now d
      omega

/-- Settles O54: any two nibble transactions from one state latch at the same time with the same draws, and what a latch
that completes a byte leaves is drawn. -/
theorem desynchronizedReceiverReadsAnyValue : Obligations.DesynchronizedReceiverReadsAnyValue := by
  refine ⟨?_, ?_, ?_⟩
  · intro s rs rs' n n' hsync hmode
    exact emitAll_nibbleEvents_rx_congr (SameTiming.refl s) hsync (fun _ => rfl)
      (fun now n n' d _ => Rx.latchDesynchronized_of_mode hmode n n') s.tim rs rs' n n'
  · intro s rs rs' v v' hsync hlosing hc hmode hbusy
    simp only [transferred, respond_rx, begun_byteEvents_of_ne hsync]
    exact emitAll_byteEvents_rx_congr (s := { s with sync := .lost }) rfl hlosing hc hmode hbusy rs rs' v v'
  · exact fun s rs n hsync hc hbusy => busyUntil_nibbleEvents_le hsync hc hbusy rs n

end Sys2Proof.Machine
